-- ==== Sys2Proof/Word.lean ====
section
/-! DEFINITION. The block's word types (rules R8, R101): everything is unsigned, bit 0 is the least significant bit. -/

namespace Sys2Proof

/-- One frame-buffer byte, one 8-bit register, one byte on a serial link. -/
abbrev Byte := BitVec 8

/-- One command word or micro-op word (rule R101: every word is 24 bits). -/
abbrev Word24 := BitVec 24

end Sys2Proof
end

