-- ==== Sys2Proof/Config.lean ====
section
/-! DEFINITION. What is fixed before reset and never changes while the block runs (rules R6, R7, R23): the straps' code
sets, the implementation parameters as plain data, and the OPEN values of the spec as constants with no body. -/

namespace Sys2Proof

/-- The gray mode, `CFG[1:0]` (rules R6, R23). `reserved` is strap code 3: such a block is disabled at reset (`ERR = 6`). -/
inductive GrayMode where
  | contrast4
  | triplane4
  | level3
  | reserved
  deriving DecidableEq, Repr

/-- The synchronisation protocol, `CFG[3:2]` (rules R6, R23). `reserved` is strap code 3. -/
inductive SyncMode where
  | threePhase
  | parkRow
  | slowDrive
  | reserved
  deriving DecidableEq, Repr

/-- The claimed hardware timer, `CFG[5:4]` (rules R6, R23, R170). No rule depends on which. -/
inductive TimerSel where
  | ta
  | tb
  | tc
  | reserved
  deriving DecidableEq, Repr

/-- Address order of a transfer burst, `XFER_ORDER` (rule R7, decision D8). -/
inductive XferOrder where
  | desc
  | asc
  deriving DecidableEq, Repr

/-- The frame-buffer page of the park band. Rule R199 allows 0 and 7 only, so no other value can be written down. -/
inductive ParkPage where
  | page0
  | page7
  deriving DecidableEq, Repr

/-- The abstract display-controller commands of the bus log (rule R80). -/
inductive BusCmd where
  | reorient
  /-- `C(PRECHARGE, d, p)`: discharge, then precharge cycles. -/
  | precharge (d p : Nat)
  | contrast (v : Byte)
  | rowstart (r : BitVec 6)
  | ptr (col : BitVec 7) (page : BitVec 3)
  | slow (e : Bool)
  deriving DecidableEq, Repr

/-- One entry of `START_CMDS` (rules R7, R221): a command with fixed arguments, or the one that carries the register `CON`. -/
inductive StartCmd where
  | fixed (c : BusCmd)
  | contrastOfCon
  deriving DecidableEq, Repr

/-- The implementation parameters of rules R6 and R7. They stand in State as data that nothing writes, so that a statement
about every state is a statement about every configuration. -/
structure Params where
  /-- `REFRESH_HZ` (R6). -/
  refreshHz : Nat
  /-- `UN0`, `UD0` (R6): reset values of `UN`, `UD`. -/
  un0 : Byte
  ud0 : Byte
  /-- `PRECHARGE_CYCLES`, `DISCHARGE_CYCLES` (R6). -/
  prechargeCycles : Nat
  dischargeCycles : Nat
  /-- `DEFAULT_CONTRAST` (R6): reset value of `CON`. -/
  defaultContrast : Byte
  /-- `XFER_ORDER` (R7). -/
  xferOrder : XferOrder
  /-- `PARK_PAGE` (R7, R199). -/
  parkPage : ParkPage
  /-- The six AND-masks (R7). -/
  maskP2 : Byte
  maskP3A : Byte
  maskP3C : Byte
  maskMain : Byte
  maskPark2P : Byte
  maskParkSD : Byte
  /-- `ROW_PARK_3P`, `ROW_PARK_SD` (R7). -/
  rowPark3P : BitVec 6
  rowParkSD : BitVec 6
  /-- `PARK_PTR_COL`, `PARK_PTR_PAGE` (R7). -/
  parkPtrCol : BitVec 7
  parkPtrPage : BitVec 3
  /-- `CONTRAST_TRICK` (R7): `none` is the default, `MODE == CONTRAST4`. -/
  contrastTrick : Option Bool
  /-- `PLANE_CONTRAST[p]` (R7, R29): the byte of plane `p` at position `p`. -/
  planeContrast : List Byte
  /-- `SLOW_ENTER_CMDS`, `SLOW_EXIT_CMDS` (R7). -/
  slowEnterCmds : List Byte
  slowExitCmds : List Byte
  /-- `ENC_REORIENT` (R7). -/
  encReorient : List Byte
  /-- `ENC_PRECHARGE(d, p)`, `ENC_CONTRAST(v)`, `ENC_ROWSTART(r)`, `ENC_PTR(col, page)` (R7), each as a table of (arguments,
  bytes); arguments with no row read a free function of `Config` (log entry 19). -/
  encPrecharge : List ((Nat × Nat) × List Byte)
  encContrast : List (Byte × List Byte)
  encRowstart : List (BitVec 6 × List Byte)
  encPtr : List ((BitVec 7 × BitVec 3) × List Byte)
  /-- `START_CMDS` (R7, R221): `none` is the default list of rule R221 (log entry 14). -/
  startCmds : Option (List StartCmd)
  /-- `TW` (R7): the timer's width in bits. -/
  tw : Nat
  /-- `RELOAD(hz)` (R7) as a table of (rate, ticks); a rate with no row reads the free function `Config.freeReload`. -/
  reloadTable : List (Nat × Nat)
  /-- `DELAY_SHORT` (R7, R173). -/
  delayShort : Nat
  /-- `VALID_COMBO` (R7): the combinations the build rejects; the default is none. -/
  invalidCombos : List (GrayMode × SyncMode × TimerSel)
  /-- `T_BYTE` (R7, R157): no rule depends on it. -/
  tByte : Nat
  deriving DecidableEq, Repr

namespace Config

/-! The OPEN values (93_implementation_defined.md U18: a model takes them as arguments and fixes none). They have no body:
nothing can be proved of what they are. The first group are the parameters of the block `State.reset` resets. -/

opaque refreshHz : Nat
opaque un0 : Byte
opaque ud0 : Byte
opaque prechargeCycles : Nat
opaque dischargeCycles : Nat
opaque defaultContrast : Byte
opaque rowPark3P : BitVec 6
opaque parkPtrCol : BitVec 7
opaque parkPtrPage : BitVec 3
opaque slowEnterCmds : List Byte
opaque slowExitCmds : List Byte
opaque delayShort : Nat
opaque tByte : Nat

/-- `RELOAD(hz)` where the configuration's table has no row for `hz` (rules R7, R178; N6). A free value: safe (log entry 6). -/
opaque freeReload : Nat → Nat

/-- `DELAY(2)` for a reload value that is not above `2 * DELAY_SHORT`, as a function of the two (R173, R293 put such a
configuration outside the spec and state no value). DESIGN CHOICE, a free value: safe (log entry 7). -/
opaque freeDelay : Nat → Nat → Nat

/-- `PLANE_CONTRAST[p]` where the configuration's table has no byte for `p` (R7, R29; U9, U18). DESIGN CHOICE, a free value:
safe (log entry 9). -/
opaque freeContrast : BitVec 2 → Byte

/-- `NPLANES` of the reserved gray-mode strap code, which the spec does not give (R23: the block is disabled). DESIGN CHOICE,
a free value: safe (log entry 8). -/
opaque freePlanes : Nat

/-- The mapper's rule under the reserved gray-mode strap code, which the spec does not give (R130). DESIGN CHOICE, a free
value: safe (log entry 8). -/
opaque freeRule : BitVec 2 → BitVec 2 → Bool

/-- `ENC_REORIENT` of the block `State.reset` resets (R7, N4). -/
opaque encReorient : List Byte

/-- `ENC_*` of a command for which the configuration's table has no row (R7, N4). DESIGN CHOICE, free values: safe (log
entry 19). -/
opaque freeEncPrecharge : Nat × Nat → List Byte
opaque freeEncContrast : Byte → List Byte
opaque freeEncRowstart : BitVec 6 → List Byte
opaque freeEncPtr : BitVec 7 × BitVec 3 → List Byte

/-- The configuration surface of the block `State.reset` resets: rule R7's defaults where it gives one, else an OPEN
value of its own. -/
def params : Params where
  refreshHz := refreshHz
  un0 := un0
  ud0 := ud0
  prechargeCycles := prechargeCycles
  dischargeCycles := dischargeCycles
  defaultContrast := defaultContrast
  xferOrder := .desc
  parkPage := .page7
  maskP2 := 0x7F
  maskP3A := 0xFF
  maskP3C := 0xFF
  maskMain := 0xFF
  maskPark2P := 0x7F
  maskParkSD := 0xFF
  rowPark3P := rowPark3P
  rowParkSD := 63
  parkPtrCol := parkPtrCol
  parkPtrPage := parkPtrPage
  contrastTrick := none
  planeContrast := []
  slowEnterCmds := slowEnterCmds
  slowExitCmds := slowExitCmds
  encReorient := encReorient
  encPrecharge := []
  encContrast := []
  encRowstart := []
  encPtr := []
  startCmds := none
  tw := 16
  reloadTable := []
  delayShort := delayShort
  invalidCombos := []
  tByte := tByte

/-- The straps of the block `State.reset` resets: `CONTRAST4`, `THREE_PHASE`, `TA`. DESIGN CHOICE, unsafe (log entry 1): R6 makes
all three model arguments; every statement about reset is made of `State.resetWith` for every strap word. -/
def straps : BitVec 6 := 0b000000

end Config

end Sys2Proof
end

