-- ==== Sys2Proof/Machine/Tables.lean ====
section
/-! DEFINITION. The functions of the configuration that stand in `Params` as tables (rule R7): looking up a row. -/

namespace Sys2Proof.Machine

/-- The value of the first row with the key, else the free function's. -/
def lookupOr {α β : Type} [BEq α] (rows : List (α × β)) (free : α → β) (key : α) : β :=
  match rows.find? (fun row => row.1 == key) with
  | some row => row.2
  | none => free key

/-- `RELOAD(hz)` (rules R7, R178): the configuration's row for the rate, else the free function (log entry 6). -/
def reload (p : Params) (hz : Nat) : Nat := lookupOr p.reloadTable Config.freeReload hz

/-- The byte string `ENC_kind(args)` of a command, the slow-drive bytes being `SLOW_ENTER_CMDS` and `SLOW_EXIT_CMDS` (rules R7,
R80, R197). -/
def encodeCmd (p : Params) : BusCmd → List Byte
  | .reorient => p.encReorient
  | .precharge d q => lookupOr p.encPrecharge Config.freeEncPrecharge (d, q)
  | .contrast v => lookupOr p.encContrast Config.freeEncContrast v
  | .rowstart r => lookupOr p.encRowstart Config.freeEncRowstart r
  | .ptr col page => lookupOr p.encPtr Config.freeEncPtr (col, page)
  | .slow true => p.slowEnterCmds
  | .slow false => p.slowExitCmds

end Sys2Proof.Machine
end

