-- ==== Sys2Proof/Machine/Bus.lean ====
section
/-! DEFINITION. The bus log's events and what they stand for on the wire (rules R80, R81). -/

namespace Sys2Proof.Machine

/-- One event of `BUS` (rule R80). -/
inductive BusEvent where
  /-- `C(kind, args)`, sent in command mode. -/
  | cmd (c : BusCmd)
  /-- `D(v, o)`: the byte written to `SPDR` and the value of `DORD` when it was written. -/
  | data (v : Byte) (o : Bool)
  deriving DecidableEq, Repr

/-- `bitrev8(v)` (rule R8): bit `i` of the result is `v[7-i]`. -/
def bitrev8 (v : Byte) : Byte := v.reverse

/-- What a receiver that assembles every byte most significant bit first receives (rule R81). -/
def receivedByte (v : Byte) (o : Bool) : Byte := if o then bitrev8 v else v

/-- One byte on the wire: the command/data line, the data-order bit, the byte. -/
structure WireByte where
  dc : Bool
  dord : Bool
  byte : Byte
  deriving DecidableEq, Repr

/-- The wire bytes of one event: a command's bytes with `DC = 0` and `DORD = 0` (rule R153: commands are sent outside
bursts; DEDUCED, log entry 13), a data byte with `DC = 1`. -/
def BusEvent.wire (p : Params) : BusEvent → List WireByte
  | .cmd c => (encodeCmd p c).map (fun b => ⟨false, false, b⟩)
  | .data v o => [⟨true, o, v⟩]

/-- The flattened wire log (rule R80). -/
def wireLog (p : Params) (events : List BusEvent) : List WireByte := events.flatMap (BusEvent.wire p)

end Sys2Proof.Machine
end

