-- ==== Sys2Proof/Machine/Memory.lean ====
section
/-! DEFINITION. The frame buffer `FB` (rules R70 to R74): 1024 bytes, held as the list of the bytes that differ from what an
unlisted address reads as, in one canonical form. -/

namespace Sys2Proof.Machine

/-- The frame buffer: (address, byte) pairs. -/
abbrev Memory := List Host.Cell

/-- The number of bytes of `FB` (rule R71: "size is exactly `128*8` bytes"). -/
def fbBytes : Nat := 1024

/-- What an address that is not listed reads as: the reset contents of `FB` (rules R71, R280). -/
def unlistedByte : Byte := 0x00

/-- `MemRead(FB, a, 1)` (rule R9). -/
def Memory.read : Memory → Nat → Byte
  | [], _ => unlistedByte
  | (k, v) :: rest, a => if k = a then v else Memory.read rest a

/-- The cell of address `a` put in front of `rest`, or nothing when it holds what an unlisted address reads as. -/
def Memory.consCell (a : Nat) (v : Byte) (rest : Memory) : Memory :=
  if v = unlistedByte then rest else (a, v) :: rest

/-- `MemWrite(FB, a, 1, v)` (rule R9), keeping the canonical form. -/
def Memory.write : Memory → Nat → Byte → Memory
  | [], a, v => Memory.consCell a v []
  | (k, w) :: rest, a, v =>
    if a < k then Memory.consCell a v ((k, w) :: rest)
    else if a = k then Memory.consCell a v rest
    else (k, w) :: Memory.write rest a v

/-- The canonical form from address `lo` on: strictly rising addresses of `FB`, no entry that an unlisted address equals. -/
def Memory.wfFrom : Nat → Memory → Bool
  | _, [] => true
  | lo, (k, v) :: rest => decide (lo ≤ k) && decide (k < fbBytes) && v != unlistedByte && Memory.wfFrom (k + 1) rest

/-- The canonical form. -/
def Memory.wf (m : Memory) : Bool := Memory.wfFrom 0 m

end Sys2Proof.Machine
end

