-- ==== Sys2Proof/Syntax.lean ====
section
/-! DEFINITION. The 21 encoded operations (rules R100, R102, R104), one constructor per row of the opcode map, and the
two ports a word can be presented at. -/

namespace Sys2Proof

/-- Where a word is presented (rule R103): the host port, or the sequencer's fetch from `UROM`. -/
inductive Port where
  | host
  | urom
  deriving DecidableEq, Repr

/-- The encoded operations. Each operand has exactly the width rule R102 gives its field. -/
inductive Instr where
  /-- `MAPC p, c` (R132). -/
  | mapc (p c : BitVec 2)
  /-- `MAPR p, c` (R133). -/
  | mapr (p c : BitVec 2)
  /-- `PXW x, y, c` (R136). -/
  | pxw (x : BitVec 7) (y : BitVec 6) (c : BitVec 2)
  /-- `START` (R221). -/
  | start
  /-- `WAIT clr` (R222). -/
  | wait (clr : Bool)
  /-- `POLL clr` (R223). -/
  | poll (clr : Bool)
  /-- `NEEDUPD` (R225). -/
  | needupd
  /-- `GETPLANE` (R226). -/
  | getplane
  /-- `SETCON v` (R227). -/
  | setcon (v : Byte)
  /-- `SETUPD n, d` (R228). -/
  | setupd (n d : Byte)
  /-- `SETHZ hz` (R178). -/
  | sethz (hz : BitVec 16)
  /-- `TIEW e` (R177). -/
  | tiew (e : Bool)
  /-- `FBWR addr, data` (R158). -/
  | fbwr (addr : BitVec 10) (data : Byte)
  /-- `FBRD addr` (R159). -/
  | fbrd (addr : BitVec 10)
  /-- `U_END` (R192). -/
  | uEnd
  /-- `U_CON` (R193). -/
  | uCon
  /-- `U_ROW r` (R194). -/
  | uRow (r : BitVec 6)
  /-- `U_PTR col, page` (R195). -/
  | uPtr (col : BitVec 7) (page : BitVec 3)
  /-- `U_XFER page, pages, mask, ce` (R152). -/
  | uXfer (page : BitVec 3) (pages : BitVec 4) (mask : Byte) (ce : Bool)
  /-- `U_SLOW e` (R197). -/
  | uSlow (e : Bool)
  /-- `U_ADV` (R198). -/
  | uAdv
  deriving DecidableEq, Repr

end Sys2Proof
end

