-- ==== Sys2Proof/WellFormed.lean ====
section
/-! DEFINITION. The static checks. Operand ranges are carried by the operand types of `Instr` (rule R102), so the check on
an operation is its class (rule R103, second test); the checks on a configuration are those of rules R173, R199, R293. -/

namespace Sys2Proof

/-- The class column of rule R104: which port an operation belongs to. -/
def Instr.port : Instr → Port
  | .mapc _ _ | .mapr _ _ | .pxw _ _ _ | .start | .wait _ | .poll _ | .needupd | .getplane
  | .setcon _ | .setupd _ _ | .sethz _ | .tiew _ | .fbwr _ _ | .fbrd _ => .host
  | .uEnd | .uCon | .uRow _ | .uPtr _ _ | .uXfer _ _ _ _ | .uSlow _ | .uAdv => .urom

/-- An operation is well formed at a port when its class is that port (rule R103: `class(op) != port` is refused). -/
def Instr.wellFormedAt (port : Port) (i : Instr) : Bool := i.port == port

/-- A reload value the timer model admits (rule R293): it fits the timer, and under `THREE_PHASE` it is above both short
phases together. -/
def Params.reloadOk (p : Params) (sync : SyncMode) (ticks : Nat) : Bool :=
  decide (1 ≤ ticks) && decide (ticks < 2 ^ p.tw) &&
    (sync != .threePhase || decide (2 * p.delayShort < ticks))

/-- The rate has a reload value the timer model admits (rule R293: for `REFRESH_HZ` and for every rate given to `SETHZ`). -/
def Params.rateOk (p : Params) (sync : SyncMode) (hz : Nat) : Bool := p.reloadOk sync (Machine.reload p hz)

/-- `NPLANES` as far as the length of `PLANE_CONTRAST` needs it (rules R6, R29). Under the reserved `MODE` strap code, for which
the spec gives no `NPLANES`, the check asks for 2 bytes: DESIGN CHOICE, safe (log entry 21). -/
def GrayMode.contrastBytes : GrayMode → Nat
  | .triplane4 => 3
  | _ => 2

/-- The configurations the spec is about (rules R6, R29, R173, R293): a positive refresh rate, a short delay of at least one
tick, an admitted reload value for `REFRESH_HZ`, from the table or not, and for every rate of the table, and one contrast
byte per plane. -/
def Params.wellFormed (p : Params) (mode : GrayMode) (sync : SyncMode) : Bool :=
  decide (1 ≤ p.delayShort) && decide (1 ≤ p.refreshHz) && p.rateOk sync p.refreshHz &&
    p.reloadTable.all (fun r => p.rateOk sync r.1) &&
    p.planeContrast.length == mode.contrastBytes

end Sys2Proof
end

