-- ==== Sys2Proof/Decode.lean ====
section
/-! DEFINITION. Decoding (rules R101 to R107, R110), total on every word and on every byte string, and the encoder written
from the same tables. -/

namespace Sys2Proof

/-! ### Fields (rule R101) -/

/-- `w[23:16]`, the opcode of formats `HAB` and `HN`. -/
def opField (w : Word24) : Byte := w.extractLsb' 16 8
/-- `w[15:8]`. -/
def aField (w : Word24) : Byte := w.extractLsb' 8 8
/-- `w[7:0]`. -/
def bField (w : Word24) : Byte := w.extractLsb' 0 8
/-- `w[23:18]`, the opcode of format `HM`. -/
def op6Field (w : Word24) : BitVec 6 := w.extractLsb' 18 6
/-- `w[17:8]`, the frame-buffer address of format `HM`. -/
def addrField (w : Word24) : BitVec 10 := w.extractLsb' 8 10

/-! ### The opcode map (rule R104) -/

/-- One row of rule R104: the class, `match`, `mask`, `must_be_zero`, and the operand assembly of rule R102. -/
structure OpRow where
  mnemonic : String
  port : Port
  pattern : Word24
  mask : Word24
  mbz : Word24
  operands : Word24 → Instr

def rowMapc : OpRow := ⟨"MAPC", .host, 0x010000, 0xFF0000, 0x00FCFC,
  fun w => .mapc ((aField w).extractLsb' 0 2) ((bField w).extractLsb' 0 2)⟩
def rowMapr : OpRow := ⟨"MAPR", .host, 0x020000, 0xFF0000, 0x00FCFC,
  fun w => .mapr ((aField w).extractLsb' 0 2) ((bField w).extractLsb' 0 2)⟩
def rowPxw : OpRow := ⟨"PXW", .host, 0x030000, 0xFF0000, 0x008000,
  fun w => .pxw ((aField w).extractLsb' 0 7) ((bField w).extractLsb' 0 6) ((bField w).extractLsb' 6 2)⟩
def rowStart : OpRow := ⟨"START", .host, 0x100000, 0xFF0000, 0x00FFFF, fun _ => .start⟩
def rowWait : OpRow := ⟨"WAIT", .host, 0x110000, 0xFF0000, 0x00FFFE, fun w => .wait ((bField w).getLsbD 0)⟩
def rowPoll : OpRow := ⟨"POLL", .host, 0x120000, 0xFF0000, 0x00FFFE, fun w => .poll ((bField w).getLsbD 0)⟩
def rowNeedupd : OpRow := ⟨"NEEDUPD", .host, 0x130000, 0xFF0000, 0x00FFFF, fun _ => .needupd⟩
def rowGetplane : OpRow := ⟨"GETPLANE", .host, 0x140000, 0xFF0000, 0x00FFFF, fun _ => .getplane⟩
def rowSetcon : OpRow := ⟨"SETCON", .host, 0x200000, 0xFF0000, 0x00FF00, fun w => .setcon (bField w)⟩
def rowSetupd : OpRow := ⟨"SETUPD", .host, 0x210000, 0xFF0000, 0x000000, fun w => .setupd (aField w) (bField w)⟩
def rowSethz : OpRow := ⟨"SETHZ", .host, 0x220000, 0xFF0000, 0x000000, fun w => .sethz (aField w ++ bField w)⟩
def rowTiew : OpRow := ⟨"TIEW", .host, 0x230000, 0xFF0000, 0x00FFFE, fun w => .tiew ((bField w).getLsbD 0)⟩
def rowFbwr : OpRow := ⟨"FBWR", .host, 0x800000, 0xFC0000, 0x000000, fun w => .fbwr (addrField w) (bField w)⟩
def rowFbrd : OpRow := ⟨"FBRD", .host, 0x840000, 0xFC0000, 0x0000FF, fun w => .fbrd (addrField w)⟩
def rowUEnd : OpRow := ⟨"U_END", .urom, 0x400000, 0xFF0000, 0x00FFFF, fun _ => .uEnd⟩
def rowUCon : OpRow := ⟨"U_CON", .urom, 0x410000, 0xFF0000, 0x00FFFF, fun _ => .uCon⟩
def rowURow : OpRow := ⟨"U_ROW", .urom, 0x420000, 0xFF0000, 0x00FFC0, fun w => .uRow ((bField w).extractLsb' 0 6)⟩
def rowUPtr : OpRow := ⟨"U_PTR", .urom, 0x430000, 0xFF0000, 0x00F880,
  fun w => .uPtr ((bField w).extractLsb' 0 7) ((aField w).extractLsb' 0 3)⟩
def rowUXfer : OpRow := ⟨"U_XFER", .urom, 0x440000, 0xFF0000, 0x000000,
  fun w => .uXfer ((aField w).extractLsb' 0 3) ((aField w).extractLsb' 3 4) (bField w) ((aField w).getLsbD 7)⟩
def rowUSlow : OpRow := ⟨"U_SLOW", .urom, 0x450000, 0xFF0000, 0x00FFFE, fun w => .uSlow ((bField w).getLsbD 0)⟩
def rowUAdv : OpRow := ⟨"U_ADV", .urom, 0x460000, 0xFF0000, 0x00FFFF, fun _ => .uAdv⟩

/-- The opcode map of rule R104, row by row. -/
def opcodeMap : List OpRow :=
  [rowMapc, rowMapr, rowPxw, rowStart, rowWait, rowPoll, rowNeedupd, rowGetplane, rowSetcon, rowSetupd, rowSethz,
    rowTiew, rowFbwr, rowFbrd] ++
  [rowUEnd, rowUCon, rowURow, rowUPtr, rowUXfer, rowUSlow, rowUAdv]

/-- The row of a word with `w[23] == 0`: the one whose opcode equals `w[23:16]`, none if there is none (rules R103, R105). -/
def rowOfOpcode (op : Byte) : Option OpRow :=
  match op.toNat with
  | 0x01 => some rowMapc
  | 0x02 => some rowMapr
  | 0x03 => some rowPxw
  | 0x10 => some rowStart
  | 0x11 => some rowWait
  | 0x12 => some rowPoll
  | 0x13 => some rowNeedupd
  | 0x14 => some rowGetplane
  | 0x20 => some rowSetcon
  | 0x21 => some rowSetupd
  | 0x22 => some rowSethz
  | 0x23 => some rowTiew
  | 0x40 => some rowUEnd
  | 0x41 => some rowUCon
  | 0x42 => some rowURow
  | 0x43 => some rowUPtr
  | 0x44 => some rowUXfer
  | 0x45 => some rowUSlow
  | 0x46 => some rowUAdv
  | _ => none

/-- The row of a word of format `HM` (rule R103, first branch). -/
def rowOfOp6 (op6 : BitVec 6) : Option OpRow :=
  match op6.toNat with
  | 0b100000 => some rowFbwr
  | 0b100001 => some rowFbrd
  | _ => none

/-- The operation a word selects, before the class and reserved-bit tests (rule R103). -/
def rowOf (w : Word24) : Option OpRow :=
  if w.getLsbD 23 then rowOfOp6 (op6Field w) else rowOfOpcode (opField w)

/-! ### The decoder (rule R103) -/

/-- What decoding a word gives: an operation, or one of the three refusals of rule R103, by name. -/
inductive Decoded where
  /-- The word is the operation `i`. -/
  | ok (i : Instr)
  /-- No operation has this opcode. -/
  | illegalOpcode
  /-- The operation belongs to the other port. -/
  | wrongPort
  /-- A must-be-zero bit of the operation is 1. -/
  | reservedField
  deriving DecidableEq, Repr

/-- The decode procedure, its three tests in rule R103's order. -/
def decode (port : Port) (w : Word24) : Decoded :=
  match rowOf w with
  | none => .illegalOpcode
  | some row =>
    if row.port != port then .wrongPort
    else if w &&& row.mbz != 0 then .reservedField
    else .ok (row.operands w)

/-- The fault code a refused word raises (rules R103, R105, R251): 1 or 2 at the host port, 5 at `UROM`; 0 for a word that
decodes. -/
def Decoded.faultCode (port : Port) : Decoded → BitVec 4
  | .ok _ => 0
  | .illegalOpcode | .wrongPort => match port with | .host => 1 | .urom => 5
  | .reservedField => match port with | .host => 2 | .urom => 5

/-! ### The encoder -/

/-- A word of format `HAB` or `HN` (rule R101). -/
def hab (op a b : Byte) : Word24 := op ++ a ++ b

/-- A word of format `HM` (rule R101). -/
def hm (op6 : BitVec 6) (addr : BitVec 10) (data : Byte) : Word24 := op6 ++ addr ++ data

/-- A one-bit operand in bit 0 of a byte. -/
def bitByte (e : Bool) : Byte := (0 : BitVec 7) ++ BitVec.ofBool e

/-- The word of an operation, from the field table of rule R102 and the opcodes of rule R104. -/
def encode : Instr → Word24
  | .mapc p c => hab 0x01 ((0 : BitVec 6) ++ p) ((0 : BitVec 6) ++ c)
  | .mapr p c => hab 0x02 ((0 : BitVec 6) ++ p) ((0 : BitVec 6) ++ c)
  | .pxw x y c => hab 0x03 ((0 : BitVec 1) ++ x) (c ++ y)
  | .start => hab 0x10 0 0
  | .wait clr => hab 0x11 0 (bitByte clr)
  | .poll clr => hab 0x12 0 (bitByte clr)
  | .needupd => hab 0x13 0 0
  | .getplane => hab 0x14 0 0
  | .setcon v => hab 0x20 0 v
  | .setupd n d => hab 0x21 n d
  | .sethz hz => hab 0x22 (hz.extractLsb' 8 8) (hz.extractLsb' 0 8)
  | .tiew e => hab 0x23 0 (bitByte e)
  | .fbwr addr data => hm 0b100000 addr data
  | .fbrd addr => hm 0b100001 addr 0
  | .uEnd => hab 0x40 0 0
  | .uCon => hab 0x41 0 0
  | .uRow r => hab 0x42 0 ((0 : BitVec 2) ++ r)
  | .uPtr col page => hab 0x43 ((0 : BitVec 5) ++ page) ((0 : BitVec 1) ++ col)
  | .uXfer page pages mask ce => hab 0x44 (BitVec.ofBool ce ++ pages ++ page) mask
  | .uSlow e => hab 0x45 0 (bitByte e)
  | .uAdv => hab 0x46 0 0

/-! ### Words on a byte-wide link (rules R76, R110): the most significant byte first -/

/-- The three bytes of a word in sending order. -/
def wordBytes (w : Word24) : List Byte := [opField w, aField w, bField w]

/-- What a byte string gives: the decoding of its first word and the bytes after it, or too few bytes for a word (DESIGN
CHOICE, safe, log entry 18). -/
inductive ByteDecoded where
  | word (d : Decoded) (rest : List Byte)
  | truncated
  deriving DecidableEq, Repr

/-- Decoding at a port from the bytes of a serial link. -/
def decodeBytes (port : Port) : List Byte → ByteDecoded
  | op :: a :: b :: rest => .word (decode port (hab op a b)) rest
  | _ => .truncated

/-! ### The numbering of spec/opcode_table.json -/

/-- The word the table's numbering gives: `nbits` bits of `w`, every bit above them 0. -/
def tableWord (nbits w : Nat) : Word24 := BitVec.ofNat 24 (w % 2 ^ nbits)

/-- The port whose operations the word's opcode is among; a word that is no operation goes to the host port. -/
def tablePort (w : Word24) : Port :=
  match rowOf w with
  | some row => row.port
  | none => .host

/-- The operation the decoder reads from an opcode-table word, laid out in its three bytes. -/
def decodeTableWord (nbits w : Nat) : Option Instr :=
  match decodeBytes (tablePort (tableWord nbits w)) (wordBytes (tableWord nbits w)) with
  | .word (.ok i) _ => some i
  | _ => none

end Sys2Proof
end

