-- ==== Sys2Proof/Machine/Parameters.lean ====
section
/-! DEFINITION. What the rules compute from the configuration: the strap fields (R23), the planes (R24), the phase
delays (R173), the default command list of `START` (R221), and the micro-program store (R199 to R205). -/

namespace Sys2Proof.Machine

/-! ### The straps (rule R23) -/

def modeOfCode (code : BitVec 2) : GrayMode :=
  match code.toNat with
  | 0 => .contrast4
  | 1 => .triplane4
  | 2 => .level3
  | _ => .reserved

def syncOfCode (code : BitVec 2) : SyncMode :=
  match code.toNat with
  | 0 => .threePhase
  | 1 => .parkRow
  | 2 => .slowDrive
  | _ => .reserved

def timerOfCode (code : BitVec 2) : TimerSel :=
  match code.toNat with
  | 0 => .ta
  | 1 => .tb
  | 2 => .tc
  | _ => .reserved

/-- `CFG[1:0]`. -/
def strapMode (cfg : BitVec 6) : GrayMode := modeOfCode (cfg.extractLsb' 0 2)
/-- `CFG[3:2]`. -/
def strapSync (cfg : BitVec 6) : SyncMode := syncOfCode (cfg.extractLsb' 2 2)
/-- `CFG[5:4]`. -/
def strapTimer (cfg : BitVec 6) : TimerSel := timerOfCode (cfg.extractLsb' 4 2)

/-- The configurations that cannot be built (rules R23, R251): a reserved code, or `VALID_COMBO` false. -/
def badConfig (p : Params) (cfg : BitVec 6) : Bool :=
  strapMode cfg == .reserved || strapSync cfg == .reserved || strapTimer cfg == .reserved ||
    p.invalidCombos.contains (strapMode cfg, strapSync cfg, strapTimer cfg)

/-- `NPLANES(MODE)` (rules R6, R24; conflict C5). -/
def nplanes : GrayMode → Nat
  | .contrast4 => 2
  | .triplane4 => 3
  | .level3 => 2
  | .reserved => Config.freePlanes

/-- `SYNC == THREE_PHASE`. -/
def isThreePhase : SyncMode → Bool
  | .threePhase => true
  | _ => false

/-! ### The timer's values -/

/-- A value held in a timer register of `TW` bits (rules R30, R31). Outside R293 the reduction is a DESIGN CHOICE, unsafe (log
entry 6). -/
def timerWord (p : Params) (n : Nat) : Nat := n % 2 ^ p.tw

/-- `DELAY(2) = TCR - 2 * DELAY_SHORT` (rule R173); a free value where the configuration leaves no difference. -/
def delayLong (p : Params) (tcr : Nat) : Nat :=
  if 2 * p.delayShort < tcr then tcr - 2 * p.delayShort else Config.freeDelay tcr p.delayShort

/-- `DELAY(q)` (rule R173), as a timer register holds it. -/
def delayOf (p : Params) (tcr : Nat) (q : BitVec 2) : Nat :=
  timerWord p (if q = 2 then delayLong p tcr else p.delayShort)

/-! ### Bus values -/

/-- `CONTRAST_TRICK` (rule R7): by default true exactly under `CONTRAST4`. -/
def contrastTrick (p : Params) (mode : GrayMode) : Bool := p.contrastTrick.getD (mode == .contrast4)

/-- `PLANE_CONTRAST[plane]` (rules R7, R29). -/
def planeContrast (p : Params) (plane : BitVec 2) : Byte :=
  match p.planeContrast[plane.toNat]? with
  | some v => v
  | none => Config.freeContrast plane

/-- `START_CMDS` (rules R7, R221). -/
def startCmds (p : Params) : List StartCmd :=
  match p.startCmds with
  | some cmds => cmds
  | none =>
    [.fixed .reorient, .fixed (.precharge p.dischargeCycles p.prechargeCycles), .contrastOfCon, .fixed (.rowstart 0),
      .fixed (.ptr p.parkPtrCol p.parkPtrPage)]

/-- One command of `START_CMDS` with the register `CON` filled in. -/
def startCmd (con : Byte) : StartCmd → BusCmd
  | .fixed c => c
  | .contrastOfCon => .contrast con

/-! ### The micro-program store (rules R199 to R205) -/

/-- `PARK_PAGE`. -/
def parkPage (p : Params) : BitVec 3 :=
  match p.parkPage with
  | .page0 => 0
  | .page7 => 7

/-- `MAIN_PAGE` (rule R199). -/
def mainPage (p : Params) : BitVec 3 :=
  match p.parkPage with
  | .page0 => 1
  | .page7 => 0

/-- `U_PTR PTR`. -/
def uPtrPark (p : Params) : Instr := .uPtr p.parkPtrCol p.parkPtrPage
/-- A burst of the park page. -/
def uXferPark (p : Params) (mask : Byte) (ce : Bool) : Instr := .uXfer (parkPage p) 1 mask ce
/-- The burst of the seven main pages. -/
def uXferMain (p : Params) : Instr := .uXfer (mainPage p) 7 p.maskMain true

/-- `THREE_PHASE`, phase 1 (rule R200). -/
def programPhase1 (p : Params) : List Instr := [.uCon, .uRow p.rowPark3P, uPtrPark p, .uEnd]
/-- `THREE_PHASE`, phase 2 (rule R201). -/
def programPhase2 (p : Params) : List Instr := [uXferPark p p.maskP2 false, uPtrPark p, .uEnd]
/-- `THREE_PHASE`, phase 3 (rule R202). -/
def programPhase3 (p : Params) : List Instr :=
  [uPtrPark p, uXferPark p p.maskP3A false, .uRow 0, uXferMain p, uXferPark p p.maskP3C true, .uAdv, .uEnd]
/-- `PARK_ROW` (rule R203). -/
def programParkRow (p : Params) : List Instr :=
  [.uCon, uXferPark p p.maskPark2P true, .uRow 63, uXferMain p, .uRow 0, .uAdv, .uEnd]
/-- `SLOW_DRIVE` (rule R204). -/
def programSlowDrive (p : Params) : List Instr :=
  [.uCon, .uSlow true, uXferPark p p.maskParkSD true, .uRow p.rowParkSD, uXferMain p, .uRow 0, .uSlow false, .uAdv, .uEnd]

/-- The program of latched phase `q` (rule R199): under the two-phase protocols only phase 1 has one. -/
def program (p : Params) (sync : SyncMode) (q : Nat) : List Instr :=
  match sync, q with
  | .threePhase, 1 => programPhase1 p
  | .threePhase, 2 => programPhase2 p
  | .threePhase, 3 => programPhase3 p
  | .parkRow, 1 => programParkRow p
  | .slowDrive, 1 => programSlowDrive p
  | _, _ => []

/-- The number of words of `UROM`, and of one phase's part of it (rule R199). -/
def uromWords : Nat := 48
def phaseWords : Nat := 16

/-- The 16 words of phase `q`: its program, then `U_END` (rule R205). -/
def phaseStore (p : Params) (sync : SyncMode) (q : Nat) : List Word24 :=
  let words := (program p sync q).map encode
  words ++ List.replicate (phaseWords - words.length) (encode .uEnd)

/-- `UROM` as the build fills it: word `16 * (q - 1) + i` is micro-op `i` of phase `q` (rules R199, R205). -/
def microStore (p : Params) (sync : SyncMode) : List Word24 :=
  phaseStore p sync 1 ++ phaseStore p sync 2 ++ phaseStore p sync 3

end Sys2Proof.Machine
end

