-- ==== Sys2Proof/Machine/State.lean ====
section
/-! DEFINITION. The machine's state as plain data (rules R20 to R38, R70, R80), its stops, and reset (R280, R281). -/

namespace Sys2Proof.Machine

/-- Why the machine stops. Every fault of the spec (R251) is a NEXT state with `ERR` written, not one of these. -/
inductive Fault where
  /-- The sequencer formed a fetch address that `UROM` does not have (48 words, rule R199): only with a latched phase of 0,
  which rule R25 says is never produced, or a store of another size. Raised by the fetch. DEDUCED, safe: the machine stops
  (log entry 10). -/
  | uromAddressAbsent
  deriving DecidableEq, Repr

/-- Why an instruction has no meaning. -/
inductive Refusal where
  /-- Raised by an arm of `exec` for an operation that has no meaning yet. No arm does. Safe. -/
  | notModelled (mnemonic : String)
  deriving DecidableEq, Repr

/-- A step of an agent other than the host (rules R5, R171, R172, R256). -/
inductive AsyncStep where
  /-- One tick of the refresh timer (R171). -/
  | tick
  /-- The fire event as the untimed reading of R171 admits it: enabled whenever `TRUN == 1` (R172; DEDUCED, safe, log
  entry 12). -/
  | fire
  /-- The agent `ISR` takes the interrupt if it is takeable (R256). -/
  | entry
  deriving DecidableEq, Repr

/-- What the host does at its port, in order (rules R220, R230). -/
inductive HostAct where
  /-- It presents a command word. -/
  | word (w : Word24)
  /-- It masks or unmasks interrupts around its own code between commands (R230, last row; R286; DEDUCED, safe, log entry
  11). -/
  | setGie (e : Bool)
  deriving DecidableEq, Repr

/-- Who invoked the step in progress (rule R190: `WAIT` or `POLL`). -/
inductive Caller where
  | wait (clr : Bool)
  | poll
  deriving DecidableEq, Repr

/-- The host's position in its command (rule R256: "kept by the model's own control state"; DEDUCED, safe, log entry 3). -/
inductive Ctl where
  /-- Between commands: the port accepts the next word. -/
  | idle
  /-- Halted by `W3`; the next action is `W4` (R222). -/
  | asleep (clr : Bool)
  /-- In the loop `S2` of a step: the next action fetches a micro-op (R190). -/
  | uops (c : Caller)
  /-- The step has ended: the next action is `W6` or `P3` (R222, R223). -/
  | stepDone (c : Caller)
  deriving DecidableEq, Repr

/-- U4 and the CPU bits: every register the timer and the ISR read or write, and the steps those agents are still to take. -/
structure Sched where
  /-- `PHASE` (R25). -/
  phase : BitVec 2
  /-- `ND` (R27). -/
  nd : Bool
  /-- `TCR` (R30), of `TW` bits. -/
  tcr : Nat
  /-- `TCNT`, `OCR` (R31), of `TW` bits. -/
  tcnt : Nat
  ocr : Nat
  /-- `TRUN`, `TIE`, `TIF` (R31). -/
  trun : Bool
  tie : Bool
  tif : Bool
  /-- `GIE`, `SE`, `SLP` (R32). -/
  gie : Bool
  se : Bool
  slp : Bool
  /-- The steps of the timer and the ISR before each of the coming host actions, first action first (R10, R256). After
  the last entry every turn is one tick and the entry if the interrupt is takeable, and such an entry gives the host a
  share of turns without a tick (`Sched.fairTurn` in Ops.lean: R256, R284, R292). DESIGN CHOICE, log entry 2. -/
  turns : List (List AsyncStep)
  deriving DecidableEq, Repr

/-- The whole machine. -/
structure State where
  /-- `CFG`, register 0 (R23). -/
  cfg : BitVec 6
  /-- The implementation parameters (R6, R7; log entry 16). -/
  par : Params
  /-- `UROM` (R70, R199). -/
  urom : List Word24
  /-- U4, the timer and the CPU bits (R25, R27, R30 to R32). -/
  sch : Sched
  /-- `PLANE` (R24). -/
  plane : BitVec 2
  /-- `XPHASE` (R26). -/
  xphase : BitVec 2
  /-- `UPC` (R22). -/
  upc : BitVec 4
  /-- `CLRIN` (R36). -/
  clrin : Bool
  /-- `UCNT`, `UN`, `UD` (R28). -/
  ucnt : Byte
  un : Byte
  ud : Byte
  /-- `CON` (R29). -/
  con : Byte
  /-- `XPTR`, `XCNT`, `XMASK`, `XCLR`, `XD` (R20). -/
  xptr : BitVec 11
  xcnt : BitVec 11
  xmask : Byte
  xclr : Bool
  xd : Byte
  /-- `DORD`, `DC` (R33). -/
  dord : Bool
  dc : Bool
  /-- The frame buffer (R71). -/
  fb : Memory
  /-- `BUS` (R37), newest event first; read it through `State.bus` (log entry 17). -/
  log : List BusEvent
  /-- `STARTED` (R34). -/
  started : Bool
  /-- `ERR` (R35). -/
  err : BitVec 4
  /-- `RET` (R21). -/
  ret : Byte
  /-- The host's position in its command. -/
  ctl : Ctl
  /-- What the host is still to do at its port, first first (R220; log entry 4). -/
  hostActs : List HostAct
  deriving DecidableEq, Repr

/-- `CFG.MODE`. -/
def State.mode (s : State) : GrayMode := strapMode s.cfg
/-- `CFG.SYNC`. -/
def State.sync (s : State) : SyncMode := strapSync s.cfg
/-- `BUS` in the order of production (R37, R80). -/
def State.bus (s : State) : List BusEvent := s.log.reverse

/-- The block right after power-on reset, for every strap word and every configuration (R280, R281). The transfer engine's
working registers have no reset value in the spec: 0 is a DESIGN CHOICE, unsafe (log entry 5). -/
def State.resetWith (cfg : BitVec 6) (p : Params) : State where
  cfg := cfg
  par := p
  urom := microStore p (strapSync cfg)
  sch := {
    phase := 3
    nd := false
    tcr := timerWord p (reload p p.refreshHz)
    tcnt := 0
    ocr := 0
    trun := false
    tie := false
    tif := false
    gie := true
    se := false
    slp := false
    turns := [] }
  plane := 0
  xphase := 1
  upc := 0
  clrin := false
  ucnt := 0
  un := p.un0
  ud := p.ud0
  con := p.defaultContrast
  xptr := 0
  xcnt := 0
  xmask := 0
  xclr := false
  xd := 0
  dord := false
  dc := true
  fb := []
  log := []
  started := false
  err := if badConfig p cfg then 6 else 0
  ret := 0
  ctl := .idle
  hostActs := []

/-- The block `Config` describes, right after reset. -/
def State.reset : State := State.resetWith Config.straps Config.params

end Sys2Proof.Machine
end

