-- ==== Sys2Proof/Machine/Flags.lean ====
section
/-! DEFINITION. The block has no arithmetic condition codes (rule R39); these are its derived conditions. -/

namespace Sys2Proof.Machine

/-- The interrupt is takeable (rule R254): `TIF AND TIE AND GIE`. -/
def Sched.takeable (k : Sched) : Bool := k.tif && k.tie && k.gie

/-- The update-due condition `UCNT >= UN` (rules R39, R225), unsigned and not stored. -/
def updateDue (ucnt un : Byte) : Bool := decide (un.toNat ≤ ucnt.toNat)

/-- `terminal(q)` (rule R224). -/
def terminalPhase (sync : SyncMode) (q : BitVec 2) : Bool := !isThreePhase sync || q == 3

/-- The block is disabled (rule R251: while `ERR == 6` every host command word is refused). -/
def State.disabled (s : State) : Bool := s.err == 6

end Sys2Proof.Machine
end

