-- ==== Sys2Proof/Machine/Operands.lean ====
section
/-! DEFINITION. What the operand fields mean beyond their value (rule R102): pixel addressing (R72), the extent of a burst
(R77, R151, R155), and the extension of narrow results to `RET` (R9 `zext_8`). -/

namespace Sys2Proof.Machine

/-- The frame-buffer address of pixel (`x`, `y`): `128 * y[5:3] + x`, 10 bits (rules R72, R136). -/
def pixelAddr (x : BitVec 7) (y : BitVec 6) : BitVec 10 := y.extractLsb' 3 3 ++ x

/-- The bit of that byte: `1 << y[2:0]` (rules R72, R136). -/
def pixelBit (y : BitVec 6) : Byte := (1 : Byte) <<< (y.extractLsb' 0 3).toNat

/-- The byte with the pixel's bit set or cleared, its other bits kept (rule R136). -/
def plotBit (lit : Bool) (y : BitVec 6) (old : Byte) : Byte :=
  if lit then old ||| pixelBit y else old &&& ~~~ pixelBit y

/-- The operands of a burst are inside the contract (rules R151 `X0`, R155). -/
def burstOk (page : BitVec 3) (pages : BitVec 4) : Bool :=
  decide (1 ≤ pages.toNat) && decide (page.toNat + pages.toNat ≤ 8)

/-- The lowest address of a burst: `128 * page` (rules R77, R102). -/
def burstLow (page : BitVec 3) : BitVec 11 := BitVec.ofNat 11 (128 * page.toNat)
/-- One past the last byte of a burst: `128 * (page + pages)` (rule R151). -/
def burstEnd (page : BitVec 3) (pages : BitVec 4) : BitVec 11 := BitVec.ofNat 11 (128 * (page.toNat + pages.toNat))
/-- The length of a burst: `128 * pages` (rule R151). -/
def burstLen (pages : BitVec 4) : BitVec 11 := BitVec.ofNat 11 (128 * pages.toNat)

/-- `zext_8` of a mapped pixel value. -/
def pixelByte (lit : Bool) : Byte := if lit then 1 else 0

/-- The micro-op address `{XPHASE - 1, UPC}` (rules R22, R199): 6 bits. -/
def uromAddr (xphase : BitVec 2) (upc : BitVec 4) : BitVec 6 := (xphase - 1) ++ upc

end Sys2Proof.Machine
end

