-- ==== Sys2Proof/Machine/Ops.lean ====
section
/-! DEFINITION. The named operations over the state that the meanings share: register and memory writes, bus events (R9, R80),
raising a fault (R250), the timer (R171, R172), interrupt entry, the ISR and its return (R174, R175, R256, R257), and the
point between two host actions (R10). -/

namespace Sys2Proof.Machine

/-! ### Registers, memory and the bus -/

/-- `RET <- v` (R9, R21). -/
def State.setRet (v : Byte) (s : State) : State := { s with ret := v }

/-- The scheduler's registers replaced. -/
def State.setSch (k : Sched) (s : State) : State := { s with sch := k }

/-- The host's position replaced. -/
def State.setCtl (c : Ctl) (s : State) : State := { s with ctl := c }

/-- `MemRead(FB, a, 1)` (R9). -/
def State.fbRead (a : Nat) (s : State) : Byte := s.fb.read a

/-- `MemWrite(FB, a, 1, v)` (R9). -/
def State.fbWrite (a : Nat) (v : Byte) (s : State) : State := { s with fb := s.fb.write a v }

/-- `emit C(kind, args)` (R9, R80, R196): one command event, sent with `DC` low, after which `DC` is 1. -/
def State.emitCmd (c : BusCmd) (s : State) : State := { s with log := .cmd c :: s.log, dc := true }

/-- `SPDR <- v ; emit D(v)` (R9, R80): one data event, with the value of `DORD` when the byte is written. -/
def State.emitData (v : Byte) (s : State) : State := { s with log := .data v s.dord :: s.log }

/-! ### Faults (R250) -/

/-- What a fault does to the host's position: inside a step it ends the step, as `U_END` does (R155, R190, R250). -/
def Ctl.endStep : Ctl → Ctl
  | .uops c => .stepDone c
  | c => c

/-- `raise Fault(code)` (R250): `ERR` keeps the first code; the command, or the step in progress, ends; nothing else. -/
def State.raiseFault (code : BitVec 4) (s : State) : State :=
  { s with err := if s.err = 0 then code else s.err, ctl := s.ctl.endStep }

/-! ### The timer (R171, R172) -/

/-- The fire event (R172). A second fire with `TIF` set is absorbed (R255). -/
def Sched.fire (k : Sched) : Sched := { k with tcnt := 0, tif := true }

/-- One tick (R171). -/
def Sched.tick (p : Params) (k : Sched) : Sched :=
  if k.trun then
    if timerWord p (k.tcnt + 1) = k.ocr then Sched.fire { k with tcnt := timerWord p (k.tcnt + 1) }
    else { k with tcnt := timerWord p (k.tcnt + 1) }
  else k

/-! ### The interrupt (R174, R175, R256, R257) -/

/-- The phase after `q` (R174): 3 goes to 1. -/
def nextPhase (q : BitVec 2) : BitVec 2 := if q = 3 then 1 else q + 1

/-- Entry (R256, first three lines of `E0`): the pending bit is cleared, a sleeping host is woken, interrupts are masked.
Nothing is saved and nothing is vectored. -/
def Sched.enterInterrupt (k : Sched) : Sched := { k with tif := false, slp := false, gie := false }

/-- The ISR body `I0` (R174 under `THREE_PHASE`, R175 under the two-phase protocols). Under the reserved `SYNC` strap code, for
which the spec gives no body, it is R175's: DESIGN CHOICE, unsafe (log entry 20). -/
def Sched.isrBody (sync : SyncMode) (p : Params) (k : Sched) : Sched :=
  if isThreePhase sync then
    { k with phase := nextPhase k.phase, ocr := delayOf p k.tcr (nextPhase k.phase), nd := true }
  else { k with ocr := k.tcr, nd := true }

/-- Return (R257): `GIE <- 1`; the host goes on where it was. -/
def Sched.returnFromInterrupt (k : Sched) : Sched := { k with gie := true }

/-- The whole atomic action `E0` (R256). -/
def Sched.takeInterrupt (sync : SyncMode) (p : Params) (k : Sched) : Sched :=
  ((k.enterInterrupt).isrBody sync p).returnFromInterrupt

/-! ### Between two host actions (R10) -/

/-- One step of the timer or of the ISR, when it is enabled (R171, R254, R256). -/
def Sched.async (sync : SyncMode) (p : Params) (e : AsyncStep) (k : Sched) : Sched :=
  match e with
  | .tick => k.tick p
  | .fire => if k.trun then k.fire else k
  | .entry => if k.takeable then k.takeInterrupt sync p else k

/-- The turns without a tick after an interrupt of the fair schedule: more than any step of a built micro-program store spans
(1,165 in phase 3), so that each step finishes before the next fire (R284, R292). DESIGN CHOICE, log entry 2. -/
def hostShare : Nat := 2048

/-- The turn after the last entry of the schedule: one tick, then the entry if the interrupt is takeable, after which the
host has its share of turns. So a running timer fires for ever, a takeable interrupt is taken, and a `WAIT` that is not
hung completes (R256, R292: fairness; DESIGN CHOICE, log entry 2). -/
def Sched.fairTurn (sync : SyncMode) (p : Params) (k : Sched) : Sched :=
  let ticked := k.tick p
  if ticked.takeable then { ticked.takeInterrupt sync p with turns := List.replicate hostShare [] } else ticked

/-- The steps that fall between two host actions, in their order: the first entry of `turns`, or the fair turn. -/
def Sched.turn (sync : SyncMode) (p : Params) (k : Sched) : Sched :=
  match k.turns with
  | [] => k.fairTurn sync p
  | steps :: rest => steps.foldl (fun k e => k.async sync p e) { k with turns := rest }

/-- The point between two host actions: only the scheduler's registers can change (R176). -/
def State.boundary (s : State) : State := s.setSch (s.sch.turn s.sync s.par)

end Sys2Proof.Machine
end

