-- ==== Sys2Proof/Machine/Sequencer.lean ====
section
/-! DEFINITION. U3, the sequencer (43_sequencer.md): the start of a step and the micro-ops but `U_XFER`. The loop `S2` is the
machine's own cycle: each micro-op is one step of it (Cycle.lean). -/

namespace Sys2Proof.Machine

/-- The phase a step latches (R26, R190 `S0`). -/
def latchedPhase (s : State) : BitVec 2 := if isThreePhase s.sync then s.sch.phase else 1

/-- `S0` (R190): one masked action. -/
def stepLatch (clr : Bool) (s : State) : State :=
  { s with sch := { s.sch with nd := false }, xphase := latchedPhase s, clrin := clr, upc := 0 }

/-- `S1` (R190): interrupts are unmasked and the loop `S2` begins. -/
def stepUnmask (c : Caller) (s : State) : State :=
  { s with sch := { s.sch with gie := true }, ctl := .uops c }

/-- `STEP(clr)` up to its first fetch (R190). -/
def stepBegin (c : Caller) (clr : Bool) (s : State) : State := stepUnmask c (stepLatch clr s).boundary

/-- `U_END` (R192): the step ends; nothing is written. -/
def execUEnd (s : State) : Host.Outcome State Fault Refusal := .next (s.setCtl s.ctl.endStep)

/-- `U_CON` (R193). -/
def execUCon (s : State) : Host.Outcome State Fault Refusal :=
  .next (if contrastTrick s.par s.mode then s.emitCmd (.contrast (planeContrast s.par s.plane)) else s)

/-- `U_ROW r` (R194). -/
def execURow (r : BitVec 6) (s : State) : Host.Outcome State Fault Refusal := .next (s.emitCmd (.rowstart r))

/-- `U_PTR col, page` (R195). -/
def execUPtr (col : BitVec 7) (page : BitVec 3) (s : State) : Host.Outcome State Fault Refusal :=
  .next (s.emitCmd (.ptr col page))

/-- `U_SLOW e` (R197). -/
def execUSlow (e : Bool) (s : State) : Host.Outcome State Fault Refusal := .next (s.emitCmd (.slow e))

/-- The plane after `plane` (R198). -/
def nextPlane (mode : GrayMode) (plane : BitVec 2) : BitVec 2 :=
  if plane.toNat + 1 = nplanes mode then 0 else plane + 1

/-- `U_ADV` (R198): the plane advances, and a wrap to 0 adds `UD` to `UCNT` modulo 256. -/
def execUAdv (s : State) : Host.Outcome State Fault Refusal :=
  let plane := nextPlane s.mode s.plane
  .next { s with plane := plane, ucnt := if plane = 0 then s.ucnt + s.ud else s.ucnt }

end Sys2Proof.Machine
end

