-- ==== Sys2Proof/Machine/HostSync.lean ====
section
/-! DEFINITION. The host commands of 44_host_sync.md: `START`, `WAIT`, `POLL`, `NEEDUPD`, `GETPLANE`, `SETCON`, `SETUPD`.
`State.boundary` stands between two labelled actions (R10). -/

namespace Sys2Proof.Machine

/-! ### START (R221) -/

/-- `T1`. -/
def startClear (s : State) : State :=
  { s with plane := 0, ucnt := 0, sch := { s.sch with phase := 3, nd := false } }

/-- `T2`: each command of `START_CMDS`, in order. -/
def startEmit (s : State) : State :=
  (startCmds s.par).foldl (fun s c => s.emitCmd (startCmd s.con c)) s

/-- The first compare value (R221 `T3`). -/
def firstCompare (s : State) : Nat := if isThreePhase s.sync then delayOf s.par s.sch.tcr 3 else s.sch.tcr

/-- `T3`. -/
def startTimer (s : State) : State :=
  { s with
    sch := { s.sch with tcnt := 0, tif := false, ocr := firstCompare s, tie := true, trun := true }
    started := true }

/-- `START` (R221): a second one raises `Fault(4)` and changes nothing. -/
def execStart (s : State) : Host.Outcome State Fault Refusal :=
  .next (if s.started then s.raiseFault 4
    else startTimer (startEmit (startClear s.boundary).boundary).boundary)

/-! ### WAIT (R222) -/

/-- `GIE <- e`, the mask writes of `W0`, `P0` and of the host's own code. -/
def State.setGie (e : Bool) (s : State) : State := s.setSch { s.sch with gie := e }

/-- `W2`: `SE <- 1`. -/
def waitArm (s : State) : State := s.setSch { s.sch with se := true }

/-- `W3`: `atomically { GIE <- 1 ; SLP <- 1 }`. The host takes no action while `SLP == 1`. -/
def waitHalt (clr : Bool) (s : State) : State :=
  { s with sch := { s.sch with gie := true, slp := true }, ctl := .asleep clr }

/-- `W0` to `W3`, or `W0`, `W1` and the step's `S0`, `S1` when `ND == 1`. -/
def waitEnter (clr : Bool) (s : State) : State :=
  let masked := (s.setGie false).boundary
  if masked.sch.nd then stepBegin (.wait clr) clr masked.boundary
  else waitHalt clr (waitArm masked.boundary).boundary

/-- `W4`, then the step's `S0`, `S1`: what a woken host does. The flag is not tested again. -/
def waitWake (clr : Bool) (s : State) : State :=
  stepBegin (.wait clr) clr (s.setSch { s.sch with se := false, gie := false }).boundary

/-- `W6`: done after a terminal step, else again from `W0`. -/
def waitDone (clr : Bool) (s : State) : State :=
  if terminalPhase s.sync s.xphase then s.setCtl .idle else waitEnter clr s.boundary

/-- `WAIT clr` (R222), up to the halt or the first fetch of its step; the rest are the cycles of Cycle.lean. -/
def execWait (clr : Bool) (s : State) : Host.Outcome State Fault Refusal := .next (waitEnter clr s)

/-! ### POLL (R223) -/

/-- The result of a `POLL` that stepped: `{0b000000, terminal, 0b1}`. -/
def pollResult (terminal : Bool) : Byte := if terminal then 0x03 else 0x01

/-- `P3`. -/
def pollDone (s : State) : State :=
  (s.setRet (pollResult (terminalPhase s.sync s.xphase))).setCtl .idle

/-- `P0`, `P1` and either the exit of `P1` (`GIE` restored, `RET` 0) or the step's `S0`, `S1`. -/
def pollEnter (clr : Bool) (s : State) : State :=
  let masked := (s.setGie false).boundary
  if masked.sch.nd then stepBegin .poll clr masked.boundary
  else (masked.setGie s.sch.gie).setRet 0x00

/-- `POLL clr` (R223), up to its early exit or the first fetch of its step; the rest are the cycles of Cycle.lean. -/
def execPoll (clr : Bool) (s : State) : Host.Outcome State Fault Refusal := .next (pollEnter clr s)

/-! ### Pacing, queries and settings (R225 to R228) -/

/-- `NEEDUPD` (R225). -/
def execNeedupd (s : State) : Host.Outcome State Fault Refusal :=
  .next (if updateDue s.ucnt s.un then { s with ucnt := s.ucnt - s.un, ret := 0x01 } else s.setRet 0x00)

/-- `GETPLANE` (R226): `RET <- zext_8(PLANE)`. -/
def execGetplane (s : State) : Host.Outcome State Fault Refusal := .next (s.setRet (s.plane.setWidth 8))

/-- `SETCON v` (R227). -/
def execSetcon (v : Byte) (s : State) : Host.Outcome State Fault Refusal :=
  .next (State.emitCmd (.contrast v) { s with con := v })

/-- `SETUPD n, d` (R228). -/
def execSetupd (n d : Byte) (s : State) : Host.Outcome State Fault Refusal :=
  .next { s with un := n, ud := d, ucnt := 0 }

end Sys2Proof.Machine
end

