-- ==== Sys2Proof/Machine/Scheduler.lean ====
section
/-! DEFINITION. U4's host commands (42_scheduler.md): `TIEW`, `SETHZ`. The timer's and the ISR's own steps stand in Ops.lean. -/

namespace Sys2Proof.Machine

/-- `TIEW e` (R177): `TIE <- e`. -/
def execTiew (e : Bool) (s : State) : Host.Outcome State Fault Refusal :=
  .next (s.setSch { s.sch with tie := e })

/-- `SETHZ hz` (R178): `TCR <- RELOAD(hz)`, with `GIE` saved, cleared and restored around the write in one action. -/
def execSethz (hz : BitVec 16) (s : State) : Host.Outcome State Fault Refusal :=
  .next (s.setSch { s.sch with tcr := timerWord s.par (reload s.par hz.toNat) })

end Sys2Proof.Machine
end

