-- ==== Sys2Proof/Machine/Cycle.lean ====
section
/-! DEFINITION. One host action at the machine's grain: a command word from the port, a micro-op from `UROM`, or the action
that follows a halt or a step (R190, R191, R220, R222, R223), with `run` the meaning of a decoded operation. -/

namespace Sys2Proof.Machine

/-- The word at the host port (R103, R220, R251): refused whole while `ERR == 6`, else decoded and executed, or its decode
fault raised. The host's position is `idle`. -/
def presentWord (run : Instr → State → Host.Outcome State Fault Refusal) (w : Word24) (s : State) :
    Host.Outcome State Fault Refusal :=
  if s.disabled then .next s
  else
    match decode .host w with
    | .ok i => run i s
    | d => .next (s.raiseFault (d.faultCode .host))

/-- The host's next act at an idle port; with none it waits (R280; log entry 15). -/
def hostPort (run : Instr → State → Host.Outcome State Fault Refusal) (s : State) : Host.Outcome State Fault Refusal :=
  match s.hostActs with
  | [] => .next s
  | .word w :: rest => presentWord run w { s with hostActs := rest }
  | .setGie e :: rest => .next (State.setGie e { s with hostActs := rest })

/-- One round of `S2` (R190): fetch, `UPC <- UPC + 1`, decode at port `UROM`, execute. -/
def fetchUop (run : Instr → State → Host.Outcome State Fault Refusal) (s : State) : Host.Outcome State Fault Refusal :=
  match s.urom[(uromAddr s.xphase s.upc).toNat]? with
  | none => .fault .uromAddressAbsent
  | some w =>
    match decode .urom w with
    | .ok i => run i { s with upc := s.upc + 1 }
    | d => .next (State.raiseFault (d.faultCode .urom) { s with upc := s.upc + 1 })

/-- What follows a step: `W6` or `P3`. -/
def stepReturn (c : Caller) (s : State) : State :=
  match c with
  | .wait clr => waitDone clr s
  | .poll => pollDone s

/-- The host's next action. While `SLP == 1` it takes none (R222, R261). -/
def hostAction (run : Instr → State → Host.Outcome State Fault Refusal) (s : State) :
    Host.Outcome State Fault Refusal :=
  if s.sch.slp then .next s
  else
    match s.ctl with
    | .idle => hostPort run s
    | .asleep clr => .next (waitWake clr s)
    | .uops _ => fetchUop run s
    | .stepDone c => .next (stepReturn c s)

/-- One cycle: the steps of the timer and the ISR that fall before the host's action, then that action (R10). -/
def cycle (run : Instr → State → Host.Outcome State Fault Refusal) (s : State) : Host.Outcome State Fault Refusal :=
  hostAction run s.boundary

/-! ### Placing an instruction where the next cycle fetches it -/

/-- `UROM` with `w` at address `a`, filled up to its 48 words with `U_END` where it is shorter (R199, R205). -/
def uromPlace (urom : List Word24) (a : Nat) (w : Word24) : List Word24 :=
  (urom ++ List.replicate (uromWords - urom.length) (encode .uEnd)).set a w

/-- A host word: an idle, enabled port at which it is the next act. -/
def placeHostWord (w : Word24) (s : State) : State :=
  { s with
    ctl := .idle
    err := if s.disabled then 0 else s.err
    sch := { s.sch with slp := false }
    hostActs := .word w :: s.hostActs }

/-- The latched phase when it has words in `UROM`, else phase 1. -/
def placePhase (xphase : BitVec 2) : BitVec 2 := if xphase = 0 then 1 else xphase

/-- The step in progress, or a `POLL`'s where there is none. -/
def placeCtl : Ctl → Ctl
  | .uops c => .uops c
  | _ => .uops .poll

/-- A micro-op: a step in progress whose next fetch address holds it. -/
def placeUop (w : Word24) (s : State) : State :=
  { s with
    ctl := placeCtl s.ctl
    sch := { s.sch with slp := false }
    xphase := placePhase s.xphase
    urom := uromPlace s.urom (uromAddr (placePhase s.xphase) s.upc).toNat w }

/-- The opcode-table word placed at the port its operation belongs to. -/
def placeTableWord (nbits w : Nat) (s : State) : State :=
  match tablePort (tableWord nbits w) with
  | .host => placeHostWord (tableWord nbits w) s
  | .urom => placeUop (tableWord nbits w) s

end Sys2Proof.Machine
end

