-- ==== Sys2Proof/Machine/Mapper.lean ====
section
/-! DEFINITION. U1, the bit-plane colour mapper (40_mapper.md): the truth functions, `MAPC`, `MAPR`, `PXW`. -/

namespace Sys2Proof.Machine

/-- `rule(MODE, k, c)` (R130). `rule(CONTRAST4, 2, c)` and `rule(LEVEL3, 2, c)` are never evaluated (U5). -/
def mapRule (mode : GrayMode) (k c : BitVec 2) : Bool :=
  match mode with
  | .contrast4 => c &&& (k + 1) != 0
  | .level3 | .triplane4 => decide (k.toNat < c.toNat)
  | .reserved => Config.freeRule k c

/-- `LUT[MODE]` (R70, R131): the read-only truth table. The reserved strap code has none. -/
def lutWord : GrayMode → Option (BitVec 12)
  | .contrast4 => some 0x0CA
  | .level3 => some 0x0CE
  | .triplane4 => some 0x8CE
  | .reserved => none

/-- `LUT[MODE][4*k + c]` (R131). -/
def lutBit (lut : BitVec 12) (k c : BitVec 2) : Bool := lut.getLsbD (4 * k.toNat + c.toNat)

/-- `rulesel(MODE, p)` (R134). -/
def ruleSel (mode : GrayMode) (p : BitVec 2) : BitVec 2 :=
  if p = 0 then 0
  else if mode = .triplane4 then (if p = 1 then 1 else 2)
  else 1

/-- `MAPC p, c` (R132). -/
def execMapc (p c : BitVec 2) (s : State) : Host.Outcome State Fault Refusal :=
  .next (if nplanes s.mode ≤ p.toNat then s.raiseFault 3 else s.setRet (pixelByte (mapRule s.mode p c)))

/-- `MAPR p, c` (R133). -/
def execMapr (p c : BitVec 2) (s : State) : Host.Outcome State Fault Refusal :=
  .next (s.setRet (pixelByte (mapRule s.mode (ruleSel s.mode p) c)))

/-- `PXW x, y, c` (R136). -/
def execPxw (x : BitVec 7) (y : BitVec 6) (c : BitVec 2) (s : State) : Host.Outcome State Fault Refusal :=
  let lit := mapRule s.mode (ruleSel s.mode s.plane) c
  let addr := (pixelAddr x y).toNat
  .next (s.fbWrite addr (plotBit lit y (s.fbRead addr)))

end Sys2Proof.Machine
end

