-- ==== Sys2Proof/Machine/Transfer.lean ====
section
/-! DEFINITION. U2, the SPI transfer engine (41_transfer.md): the burst `XFER`, `U_XFER`, and the host's byte access to the
frame buffer, `FBWR` and `FBRD`. -/

namespace Sys2Proof.Machine

/-- `X0` after its check (R151): the working registers are loaded. -/
def xferLoad (page : BitVec 3) (pages : BitVec 4) (mask : Byte) (clr : Bool) (s : State) : State :=
  { s with
    xmask := mask
    xclr := clr
    xcnt := burstLen pages
    xptr := match s.par.xferOrder with
      | .desc => burstEnd page pages
      | .asc => burstLow page }

/-- `X1` (R151, R153): `DORD` is toggled, `DC` is raised. -/
def xferOpen (s : State) : State := { s with dord := !s.dord, dc := true }

/-- `X3` (R151, R153): `DORD` is toggled back. -/
def xferClose (s : State) : State := { s with dord := !s.dord }

/-- The address the next byte is read from (R151 `X2`): descending order decrements the pointer first. -/
def xferAddr (s : State) : BitVec 11 :=
  match s.par.xferOrder with
  | .desc => s.xptr - 1
  | .asc => s.xptr

/-- The pointer after a byte at address `a` (R151 `X2`): ascending order increments it last. -/
def xferNextPtr (order : XferOrder) (a : BitVec 11) : BitVec 11 :=
  match order with
  | .desc => a
  | .asc => a + 1

/-- `X2` for one byte (R151, R154): read, send the masked byte, clear, step. -/
def xferByte (s : State) : State :=
  let a := xferAddr s
  let d := s.fbRead a.toNat
  let sent := State.emitData (d &&& s.xmask) { s with xd := d }
  let cleared := if sent.xclr then sent.fbWrite a.toNat 0x00 else sent
  { cleared with xptr := xferNextPtr cleared.par.xferOrder a, xcnt := cleared.xcnt - 1 }

/-- `X2` (R151): `n` bytes, the timer and the ISR allowed before each (R156). -/
def xferBytes : Nat → State → State
  | 0, s => s
  | n + 1, s => xferBytes n (xferByte s.boundary)

/-- `XFER(page, pages, mask, clr)` (R151, R155). An invalid range raises `Fault(5)` before any access. -/
def xfer (page : BitVec 3) (pages : BitVec 4) (mask : Byte) (clr : Bool) (s : State) : State :=
  if burstOk page pages then
    let loaded := xferOpen (xferLoad page pages mask clr s).boundary
    xferClose (xferBytes loaded.xcnt.toNat loaded).boundary
  else s.raiseFault 5

/-- `U_XFER page, pages, mask, ce` (R152): the burst clears exactly when `ce` and `CLRIN` are both 1. -/
def execUXfer (page : BitVec 3) (pages : BitVec 4) (mask : Byte) (ce : Bool) (s : State) :
    Host.Outcome State Fault Refusal :=
  .next (xfer page pages mask (ce && s.clrin) s)

/-- `FBWR addr, data` (R158). -/
def execFbwr (addr : BitVec 10) (data : Byte) (s : State) : Host.Outcome State Fault Refusal :=
  .next (s.fbWrite addr.toNat data)

/-- `FBRD addr` (R159). -/
def execFbrd (addr : BitVec 10) (s : State) : Host.Outcome State Fault Refusal :=
  .next (s.setRet (s.fbRead addr.toNat))

end Sys2Proof.Machine
end

