-- ==== Sys2Proof/Machine/Dispatch.lean ====
section
/-! DEFINITION. One arm per operation of the opcode map. -/

namespace Sys2Proof.Machine

/-- What an operation does. -/
def exec (i : Instr) (s : State) : Host.Outcome State Fault Refusal :=
  match i with
  | .mapc p c => Sys2Proof.Machine.execMapc p c s
  | .mapr p c => Sys2Proof.Machine.execMapr p c s
  | .pxw x y c => Sys2Proof.Machine.execPxw x y c s
  | .start => Sys2Proof.Machine.execStart s
  | .wait clr => Sys2Proof.Machine.execWait clr s
  | .poll clr => Sys2Proof.Machine.execPoll clr s
  | .needupd => Sys2Proof.Machine.execNeedupd s
  | .getplane => Sys2Proof.Machine.execGetplane s
  | .setcon v => Sys2Proof.Machine.execSetcon v s
  | .setupd n d => Sys2Proof.Machine.execSetupd n d s
  | .sethz hz => Sys2Proof.Machine.execSethz hz s
  | .tiew e => Sys2Proof.Machine.execTiew e s
  | .fbwr addr data => Sys2Proof.Machine.execFbwr addr data s
  | .fbrd addr => Sys2Proof.Machine.execFbrd addr s
  | .uEnd => Sys2Proof.Machine.execUEnd s
  | .uCon => Sys2Proof.Machine.execUCon s
  | .uRow r => Sys2Proof.Machine.execURow r s
  | .uPtr col page => Sys2Proof.Machine.execUPtr col page s
  | .uXfer page pages mask ce => Sys2Proof.Machine.execUXfer page pages mask ce s
  | .uSlow e => Sys2Proof.Machine.execUSlow e s
  | .uAdv => Sys2Proof.Machine.execUAdv s

end Sys2Proof.Machine
end

