-- ==== Sys2Proof/Machine/Step.lean ====
section
/-! DEFINITION. The machine's step, and how a word is placed where it fetches. -/

namespace Sys2Proof.Machine

/-- One step of the machine: the asynchronous steps of one turn, then one host action. -/
def step (s : State) : Host.Outcome State Fault Refusal := cycle exec s

/-- `s` with an opcode-table word where the next step fetches: at the host port, or in `UROM` inside a step (log entry 4). -/
def State.withFetchWord (s : State) (nbits w : Nat) : State := placeTableWord nbits w s

end Sys2Proof.Machine
end

