-- ==== Sys2Proof/Safety.lean ====
section
/-! DEFINITION. What counts as a legal state and a safe run, and the vocabulary the claims use. -/

namespace Sys2Proof.Safety

open Sys2Proof.Machine

/-! ### Legal states: the ranges and relations the rules state of every reachable state -/

/-- `PLANE < NPLANES(MODE)` (R24), for the modes that have planes. -/
def planeLegal (s : State) : Prop := s.mode = .reserved ∨ s.plane.toNat < nplanes s.mode

/-- `PHASE` and `XPHASE` are 1, 2 or 3 (R25, R26, U9), and `UROM` has its 48 words (R199). -/
def sequencerLegal (s : State) : Prop := s.sch.phase ≠ 0 ∧ s.xphase ≠ 0 ∧ s.urom.length = uromWords

/-- The timer's registers hold `TW`-bit values (R30, R31). -/
def timerLegal (s : State) : Prop :=
  s.sch.tcr < 2 ^ s.par.tw ∧ s.sch.tcnt < 2 ^ s.par.tw ∧ s.sch.ocr < 2 ^ s.par.tw

/-- Before `START` the timer is stopped, no interrupt is pending and no step is due (R280, R282). -/
def unstartedLegal (s : State) : Prop :=
  s.started = false → s.sch.trun = false ∧ s.sch.tif = false ∧ s.sch.nd = false

/-- The host is halted exactly inside `WAIT`'s sleep, sleep is armed exactly there, and a command in progress between two
cycles has interrupts unmasked (R190, R222, R261). -/
def hostLegal (s : State) : Prop :=
  (s.sch.slp = true ↔ ∃ clr, s.ctl = .asleep clr) ∧ (s.sch.se = true ↔ ∃ clr, s.ctl = .asleep clr) ∧
    (s.ctl ≠ .idle → s.sch.gie = true)

/-- Between bursts `DORD` rests at 0 and the port is in data mode (R33, R153, R196). -/
def spiLegal (s : State) : Prop := s.dord = false ∧ s.dc = true

/-- `ERR` holds a code of rule R251, and code 6 exactly when the configuration cannot be built (R23, R251). -/
def faultLegal (s : State) : Prop := s.err.toNat ≤ 6 ∧ (s.err = 6 ↔ badConfig s.par s.cfg = true)

/-- The legal states. -/
structure Legal (s : State) : Prop where
  plane : planeLegal s
  sequencer : sequencerLegal s
  timer : timerLegal s
  unstarted : unstartedLegal s
  host : hostLegal s
  spi : spiLegal s
  fault : faultLegal s
  memory : s.fb.wf = true

/-- A run is safe when no number of steps ends it in a fault or a refusal. -/
def SafeRun (s : State) : Prop := ∀ n, ∃ t, Host.Core.run Sys2Proof.core n s = .next t

/-! ### Vocabulary of the claims -/

/-- The addresses of a burst in sending order (R151): descending from `128*(page+pages) - 1`, or ascending from `128*page`. -/
def burstAddrs (order : XferOrder) (page : BitVec 3) (pages : BitVec 4) : List Nat :=
  match order with
  | .desc => (List.range (128 * pages.toNat)).map (fun i => 128 * (page.toNat + pages.toNat) - 1 - i)
  | .asc => (List.range (128 * pages.toNat)).map (fun i => 128 * page.toNat + i)

/-- The data events of a burst over the frame buffer `fb` (R151, R154), with `DORD` at `o`. -/
def burstEvents (order : XferOrder) (page : BitVec 3) (pages : BitVec 4) (mask : Byte) (o : Bool) (fb : Memory) :
    List BusEvent :=
  (burstAddrs order page pages).map (fun a => .data (fb.read a &&& mask) o)

/-- `a` is an address of the burst. -/
def inBurst (page : BitVec 3) (pages : BitVec 4) (a : Nat) : Bool :=
  decide (128 * page.toNat ≤ a) && decide (a < 128 * (page.toNat + pages.toNat))

/-- The scheduler after the asynchronous steps of `n` turns. -/
def turnsTaken (sync : SyncMode) (p : Params) : Nat → Sched → Sched
  | 0, k => k
  | n + 1, k => turnsTaken sync p n (k.turn sync p)

/-- The host commands that return a value (R21). -/
def returnsValue : Instr → Bool
  | .mapc _ _ | .mapr _ _ | .poll _ | .needupd | .getplane | .fbrd _ => true
  | _ => false

end Sys2Proof.Safety
end

