-- ==== Sys2Proof/Certificates/Slice0/Obligations.lean ====
section
/-! DEFINITION. The statements for the provers. Each docstring names the rules it formalises. -/

open Sys2Proof Sys2Proof.Machine Sys2Proof.Safety

/-! ### Encoding -/

/-- R101, R102, R103, R104: the word of every operation decodes to that operation at its own port, and is refused for its
class at the other. -/
def Obligations.DecodeOfEncode : Prop :=
  ∀ (i : Instr) (port : Port), decode port (encode i) = if i.wellFormedAt port then .ok i else .wrongPort

/-- R103, R107: a word that decodes is the word of the operation it decodes to, so every word has one meaning. -/
def Obligations.EncodeOfDecode : Prop :=
  ∀ (port : Port) (w : Word24) (i : Instr), decode port w = .ok i → encode i = w ∧ i.wellFormedAt port = true

/-- R104: `match` and `mask` select the operation. -/
def Obligations.RowsAreSelectedByMatchAndMask : Prop :=
  ∀ (w : Word24) (row : OpRow), row ∈ opcodeMap →
    ((rowOf w).map OpRow.mnemonic = some row.mnemonic ↔ w &&& row.mask = row.pattern)

/-- R105: the illegal opcodes are exactly the listed ranges, at both ports. -/
def Obligations.IllegalOpcodesAreTheListedRanges : Prop :=
  ∀ (w : Word24) (port : Port), decode port w = .illegalOpcode ↔
    (let op := (opField w).toNat
     op = 0x00 ∨ (0x04 ≤ op ∧ op ≤ 0x0F) ∨ (0x15 ≤ op ∧ op ≤ 0x1F) ∨ (0x24 ≤ op ∧ op ≤ 0x3F) ∨
       (0x47 ≤ op ∧ op ≤ 0x7F) ∨ 0x88 ≤ op)

/-- R76, R110: a word sent on a byte-wide link, most significant byte first, decodes as the word does. -/
def Obligations.LinkBytesDecodeAsTheWord : Prop :=
  ∀ (port : Port) (w : Word24) (rest : List Byte), decodeBytes port (wordBytes w ++ rest) = .word (decode port w) rest

/-- V1 of 95_test_vectors.md: words spelled out from the formats decode to the operations they stand for. -/
def Obligations.SpelledOutWordsDecode : Prop :=
  decode .host 0b00000001_00000001_00000010#24 = .ok (.mapc 1 2) ∧
  decode .host 0b00000011_00000101_01001100#24 = .ok (.pxw 5 12 1) ∧
  decode .host 0b00010010_00000000_00000001#24 = .ok (.poll true) ∧
  decode .host 0b00100001_00000011_00000010#24 = .ok (.setupd 3 2) ∧
  decode .host 0b100000_1110000000_11110000#24 = .ok (.fbwr 896 0xF0) ∧
  decode .urom 0b01000011_00000111_01111111#24 = .ok (.uPtr 127 7) ∧
  decode .urom 0b01000100_10111000_11111111#24 = .ok (.uXfer 0 7 0xFF true)

/-! ### One step -/

/-- R103, R220: an awake, idle, enabled block runs the operation of the presented word, after the turn of the timer and the
ISR (the model's own schedule, log entry 2), with the word used up (log entry 4). -/
def Obligations.StepRunsPresentedWord : Prop :=
  ∀ (s : State) (w : Word24) (rest : List HostAct) (i : Instr),
    s.boundary.sch.slp = false → s.ctl = .idle → s.hostActs = .word w :: rest → s.err ≠ 6 → decode .host w = .ok i →
    step s = exec i { s.boundary with hostActs := rest }

/-- R190, R191, R199: inside a step the machine runs the operation of the micro-op at `{XPHASE - 1, UPC}`, with `UPC` gone up
by one. -/
def Obligations.StepRunsFetchedMicroOp : Prop :=
  ∀ (s : State) (c : Caller) (w : Word24) (i : Instr),
    s.boundary.sch.slp = false → s.ctl = .uops c → s.urom[((s.xphase - 1) ++ s.upc : BitVec 6).toNat]? = some w →
    decode .urom w = .ok i →
    step s = exec i { s.boundary with upc := s.upc + 1 }

/-- R103, R105, R250, R251: a host word that is illegal or a micro-op raises `Fault(1)`, one with a reserved bit set raises
`Fault(2)`; `ERR` keeps the first code and nothing else changes. -/
def Obligations.RefusedHostWordsOnlyWriteErr : Prop :=
  ∀ (s : State) (w : Word24) (rest : List HostAct),
    s.boundary.sch.slp = false → s.ctl = .idle → s.hostActs = .word w :: rest → s.err ≠ 6 →
    ((decode .host w = .illegalOpcode ∨ (0x40 ≤ (opField w).toNat ∧ (opField w).toNat ≤ 0x46)) →
      step s = .next { s.boundary with hostActs := rest, err := if s.err = 0 then 1 else s.err }) ∧
    (∀ row ∈ opcodeMap, row.port = .host → w &&& row.mask = row.pattern → w &&& row.mbz ≠ 0 →
      step s = .next { s.boundary with hostActs := rest, err := if s.err = 0 then 2 else s.err })

/-- R103, R105, R190, R251: a fetched word that is no micro-op raises `Fault(5)` and ends the step. -/
def Obligations.RefusedMicroWordsEndTheStep : Prop :=
  ∀ (s : State) (c : Caller) (w : Word24),
    s.boundary.sch.slp = false → s.ctl = .uops c → s.urom[((s.xphase - 1) ++ s.upc : BitVec 6).toNat]? = some w →
    (∀ i, decode .urom w ≠ .ok i) →
    step s = .next { s.boundary with
      upc := s.upc + 1, err := if s.err = 0 then 5 else s.err, ctl := .stepDone c }

/-- R251: while `ERR == 6` every host word is refused whole. -/
def Obligations.DisabledBlockRefusesEveryWord : Prop :=
  ∀ (s : State) (w : Word24) (rest : List HostAct),
    s.ctl = .idle → s.hostActs = .word w :: rest → s.err = 6 → s.boundary.sch.slp = false →
    step s = .next { s.boundary with hostActs := rest }

/-- R222, R261: while `SLP == 1` the host takes no action; only the timer's and the ISR's own registers can move. -/
def Obligations.SleepingHostTakesNoAction : Prop :=
  ∀ s : State, s.boundary.sch.slp = true →
    ∃ k : Sched, step s = .next { s with sch := k } ∧ k.slp = true ∧ k.tcr = s.sch.tcr ∧ k.trun = s.sch.trun ∧
      k.tie = s.sch.tie ∧ k.se = s.sch.se ∧ k.gie = s.sch.gie

/-! ### U1, the mapper -/

/-- R131: the truth functions are the bits of the lookup constants. -/
def Obligations.MapperIsItsLookupTable : Prop :=
  ∀ (mode : GrayMode) (lut : BitVec 12) (k c : BitVec 2),
    lutWord mode = some lut → k.toNat < nplanes mode → mapRule mode k c = lutBit lut k c

/-- R130, R132: `MAPC` under each mode. Plane `p` of `CONTRAST4` tests bit `p` of the colour; plane `p` of the threshold modes
is lit when the colour is above `p`; a plane the mode does not have raises `Fault(3)`. -/
def Obligations.MapcReturnsThePixel : Prop :=
  ∀ (p c : BitVec 2) (s : State),
    (s.mode = .contrast4 → p.toNat < 2 →
      exec (.mapc p c) s = .next { s with ret := if c.getLsbD p.toNat then 1 else 0 }) ∧
    (s.mode = .level3 → p.toNat < 2 →
      exec (.mapc p c) s = .next { s with ret := if p.toNat < c.toNat then 1 else 0 }) ∧
    (s.mode = .triplane4 → p.toNat < 3 →
      exec (.mapc p c) s = .next { s with ret := if p.toNat < c.toNat then 1 else 0 }) ∧
    ((s.mode = .contrast4 ∨ s.mode = .level3) → 2 ≤ p.toNat → s.ctl = .idle →
      exec (.mapc p c) s = .next { s with err := if s.err = 0 then 3 else s.err }) ∧
    (s.mode = .triplane4 → p.toNat = 3 → s.ctl = .idle →
      exec (.mapc p c) s = .next { s with err := if s.err = 0 then 3 else s.err })

/-- R133, R134: `MAPR` under each mode; a plane past the mode's last one behaves as the last one. -/
def Obligations.MaprReturnsThePixel : Prop :=
  ∀ (p c : BitVec 2) (s : State),
    (s.mode = .contrast4 →
      exec (.mapr p c) s = .next { s with ret := if c.getLsbD (min p.toNat 1) then 1 else 0 }) ∧
    (s.mode = .level3 →
      exec (.mapr p c) s = .next { s with ret := if min p.toNat 1 < c.toNat then 1 else 0 }) ∧
    (s.mode = .triplane4 →
      exec (.mapr p c) s = .next { s with ret := if min p.toNat 2 < c.toNat then 1 else 0 })

/-- R72, R136: `PXW` sets or clears bit `y mod 8` of the byte at `128 * floor(y / 8) + x`, as the colour maps on the current
plane; no other bit, byte or register changes. -/
def Obligations.PxwWritesOnePixel : Prop :=
  ∀ (x : BitVec 7) (y : BitVec 6) (c : BitVec 2) (s : State), s.fb.wf = true →
    ∃ t, exec (.pxw x y c) s = .next t ∧ t = { s with fb := t.fb } ∧ t.fb.wf = true ∧
      (∀ a, a ≠ 128 * (y.toNat / 8) + x.toNat → t.fb.read a = s.fb.read a) ∧
      (∀ j, j < 8 →
        (t.fb.read (128 * (y.toNat / 8) + x.toNat)).getLsbD j =
          if j = y.toNat % 8 then mapRule s.mode (ruleSel s.mode s.plane) c
          else (s.fb.read (128 * (y.toNat / 8) + x.toNat)).getLsbD j)

/-! ### U2, the transfer engine -/

/-- R151, R152, R153, R154: a burst in range sends `128 * pages` masked bytes in order, each with `DORD` toggled, clears the
range exactly when `ce` and `CLRIN` are both 1, and restores `DORD`. That the scheduler takes `128 * pages + 2` turns
meanwhile is the model's grain and schedule (log entries 2 and 3). -/
def Obligations.UXferSendsThePages : Prop :=
  ∀ (page : BitVec 3) (pages : BitVec 4) (mask : Byte) (ce : Bool) (s : State),
    1 ≤ pages.toNat → page.toNat + pages.toNat ≤ 8 → s.fb.wf = true →
    ∃ t, exec (.uXfer page pages mask ce) s = .next t ∧
      t.bus = s.bus ++ burstEvents s.par.xferOrder page pages mask (!s.dord) s.fb ∧
      t.fb.wf = true ∧
      (∀ a, t.fb.read a = if ce && s.clrin && inBurst page pages a then 0 else s.fb.read a) ∧
      t.xptr.toNat = (match s.par.xferOrder with
        | .desc => 128 * page.toNat
        | .asc => 128 * (page.toNat + pages.toNat)) ∧
      (burstAddrs s.par.xferOrder page pages).getLast?.map s.fb.read = some t.xd ∧
      t = { s with
        sch := turnsTaken s.sync s.par (128 * pages.toNat + 2) s.sch
        xptr := t.xptr, xcnt := 0, xmask := mask, xclr := ce && s.clrin, xd := t.xd, dc := true
        fb := t.fb, log := t.log }

/-- R155: zero pages, or pages past the last one, raise `Fault(5)` before any access and end the step. -/
def Obligations.UXferOutsideTheBufferIsRefused : Prop :=
  ∀ (page : BitVec 3) (pages : BitVec 4) (mask : Byte) (ce : Bool) (s : State) (c : Caller),
    (pages = 0 ∨ 8 < page.toNat + pages.toNat) → s.ctl = .uops c →
    exec (.uXfer page pages mask ce) s =
      .next { s with err := if s.err = 0 then 5 else s.err, ctl := .stepDone c }

/-- R158, R159, R82: `FBWR` stores one byte and changes nothing else; `FBRD` returns the byte the latest `FBWR` to its address
stored, or the byte that was there, and changes nothing but `RET`. -/
def Obligations.FrameBufferBytesAreStoredAndReturned : Prop :=
  ∀ (a b : BitVec 10) (data : Byte) (s : State), s.fb.wf = true →
    exec (.fbrd b) s = .next { s with ret := s.fb.read b.toNat } ∧
    ∃ t, exec (.fbwr a data) s = .next t ∧ t = { s with fb := t.fb } ∧ t.fb.wf = true ∧
      t.fb.read a.toNat = data ∧ (∀ c, c ≠ a.toNat → t.fb.read c = s.fb.read c) ∧
      exec (.fbrd b) t = .next { t with ret := if a = b then data else s.fb.read b.toNat }

/-! ### U4, the scheduler -/

/-- R171: with the timer running, `OCR` ticks from `TCNT = 0` count up and the last of them fires. -/
def Obligations.TimerFiresAfterOcrTicks : Prop :=
  ∀ (p : Params) (k : Sched), k.trun = true → k.tcnt = 0 → 1 ≤ k.ocr → k.ocr < 2 ^ p.tw →
    (∀ n, n < k.ocr → Nat.repeat (Sched.tick p) n k = { k with tcnt := n }) ∧
    Nat.repeat (Sched.tick p) k.ocr k = { k with tcnt := 0, tif := true }

/-- R255: any number of fires before an entry cause one entry, as one fire does. -/
def Obligations.FiresCoalesce : Prop :=
  ∀ (sync : SyncMode) (p : Params) (k : Sched) (n : Nat) (rest : List (List AsyncStep)),
    Sched.turn sync p { k with turns := (List.replicate (n + 1) .fire ++ [.entry, .entry]) :: rest } =
      Sched.turn sync p { k with turns := [.fire, .entry] :: rest }

/-- R173, R174, R179, R256, R257: a takeable interrupt under `THREE_PHASE` advances the phase, programs the duration of the
phase entered, sets `ND`, clears `TIF`, wakes the host and returns unmasked. That the entry is the turn `[.entry]`, which is
used up, is the model's schedule (log entry 2). -/
def Obligations.InterruptAdvancesThePhase : Prop :=
  ∀ (p : Params) (k : Sched) (rest : List (List AsyncStep)),
    k.tif = true → k.tie = true → k.gie = true → k.turns = [.entry] :: rest →
    p.delayShort < 2 ^ p.tw → 2 * p.delayShort < k.tcr → k.tcr < 2 ^ p.tw →
    let done := { k with turns := rest, tif := false, slp := false, gie := true, nd := true }
    (k.phase = 3 → k.turn .threePhase p = { done with phase := 1, ocr := p.delayShort }) ∧
    (k.phase = 1 → k.turn .threePhase p = { done with phase := 2, ocr := k.tcr - 2 * p.delayShort }) ∧
    (k.phase = 2 → k.turn .threePhase p = { done with phase := 3, ocr := p.delayShort })

/-- R175, R256, R257: under the two-phase protocols a takeable interrupt programs the same delay, sets `ND`, clears `TIF` and
`SLP` and returns unmasked; `PHASE` is not written. That the entry is the turn `[.entry]`, which is used up, is the model's
schedule (log entry 2). -/
def Obligations.InterruptOfTheTwoPhaseProtocols : Prop :=
  ∀ (sync : SyncMode) (p : Params) (k : Sched) (rest : List (List AsyncStep)),
    sync = .parkRow ∨ sync = .slowDrive →
    k.tif = true → k.tie = true → k.gie = true → k.turns = [.entry] :: rest →
    k.turn sync p = { k with
      turns := rest, tif := false, slp := false, gie := true, nd := true, ocr := k.tcr }

/-- R40, R254: while `GIE == 0` or `TIE == 0` no interrupt is taken and a pending one is kept. -/
def Obligations.MaskedInterruptIsHeld : Prop :=
  ∀ (sync : SyncMode) (p : Params) (k : Sched), k.gie = false ∨ k.tie = false →
    ∃ tcnt tif turns, k.turn sync p = { k with tcnt := tcnt, tif := tif, turns := turns } ∧ (k.tif = true → tif = true)

/-- R176: the ISR and the timer write no register outside the scheduler, and what they do there depends on no such register.
Also R38, R256: `TCR`, `TRUN`, `TIE`, `SE` stay, `GIE` is left as found, `ND` is never cleared and `SLP` never set. -/
def Obligations.AsynchronousStepsStayInTheScheduler : Prop :=
  ∀ s : State,
    (∃ phase nd tcnt ocr tif slp turns,
      s.boundary = { s with sch := { s.sch with
        phase := phase, nd := nd, tcnt := tcnt, ocr := ocr, tif := tif, slp := slp, turns := turns } } ∧
      (s.sch.nd = true → nd = true) ∧ (s.sch.slp = false → slp = false)) ∧
    (∀ r : State, r.cfg = s.cfg → r.par = s.par → r.sch = s.sch → r.boundary.sch = s.boundary.sch)

/-- R256, R292, R261: fairness, as the model's schedule gives it (log entry 2; the bounds are the model's). A takeable interrupt
is taken within the turns of the schedule and one more; a running timer fires within those and `2^TW` more; and a `WAIT`
asleep with the timer running and its interrupt enabled wakes and begins its step (machine steps: log entry 3). -/
def Obligations.EnabledInterruptsComeAndAreTaken : Prop :=
  (∀ (sync : SyncMode) (p : Params) (k : Sched), k.takeable = true →
    (turnsTaken sync p (k.turns.length + 1) k).nd = true ∧ (turnsTaken sync p (k.turns.length + 1) k).slp = false) ∧
  (∀ (sync : SyncMode) (p : Params) (k : Sched),
    k.trun = true → k.tif = false → k.nd = false → k.tcnt < 2 ^ p.tw → k.ocr < 2 ^ p.tw →
    ∃ n, n ≤ k.turns.length + 2 ^ p.tw ∧
      ((turnsTaken sync p n k).tif = true ∨ (turnsTaken sync p n k).nd = true)) ∧
  (∀ (s : State) (clr : Bool),
    s.ctl = .asleep clr → s.sch.slp = true → s.sch.trun = true → s.sch.tie = true → s.sch.gie = true →
    s.sch.tcnt < 2 ^ s.par.tw → s.sch.ocr < 2 ^ s.par.tw →
    ∃ n t, n ≤ s.sch.turns.length + 2 ^ s.par.tw ∧ Host.Core.run Sys2Proof.core n s = .next t ∧
      t.ctl = .uops (.wait clr))

/-- R177, R178: `TIEW` writes `TIE` and nothing else; `SETHZ` writes `TCR` and nothing else, with the reload value of the rate
where that fits the timer (R293; a wider one is held modulo `2^TW`, the model's choice, log entry 6). -/
def Obligations.TimerCommandsWriteOneRegister : Prop :=
  ∀ (e : Bool) (hz : BitVec 16) (s : State),
    exec (.tiew e) s = .next { s with sch := { s.sch with tie := e } } ∧
    ∃ ticks, exec (.sethz hz) s = .next { s with sch := { s.sch with tcr := ticks } } ∧ ticks < 2 ^ s.par.tw ∧
      (reload s.par hz.toNat < 2 ^ s.par.tw → ticks = reload s.par hz.toNat)

/-! ### U3, the micro-ops -/

/-- R194, R195, R197: `U_ROW`, `U_PTR`, `U_SLOW` each append one command event and leave the port in data mode (R80, R196).
The words of `U_ROW` and `U_PTR` carry every operand value, and with a reserved bit set raise `Fault(5)`. -/
def Obligations.CommandMicroOpsEmitOneEvent : Prop :=
  (∀ (r : BitVec 6) (col : BitVec 7) (page : BitVec 3) (e : Bool) (s : State),
    (∃ t, exec (.uRow r) s = .next t ∧ t.bus = s.bus ++ [.cmd (.rowstart r)] ∧
      t = { s with log := t.log, dc := true }) ∧
    (∃ t, exec (.uPtr col page) s = .next t ∧ t.bus = s.bus ++ [.cmd (.ptr col page)] ∧
      t = { s with log := t.log, dc := true }) ∧
    (∃ t, exec (.uSlow e) s = .next t ∧ t.bus = s.bus ++ [.cmd (.slow e)] ∧
      t = { s with log := t.log, dc := true })) ∧
  (∀ a b : Byte,
    decode .urom ((0x42 : Byte) ++ a ++ b) =
      (if a = 0 ∧ b &&& 0xC0 = 0 then .ok (.uRow (b.extractLsb' 0 6)) else .reservedField) ∧
    decode .urom ((0x43 : Byte) ++ a ++ b) =
      (if a &&& 0xF8 = 0 ∧ b &&& 0x80 = 0 then .ok (.uPtr (b.extractLsb' 0 7) (a.extractLsb' 0 3))
        else .reservedField)) ∧
  Decoded.reservedField.faultCode .urom = 5

/-- R193: `U_CON` emits the plane's contrast byte where the trick is on (by default exactly under `CONTRAST4`), else does
nothing. -/
def Obligations.UConWritesThePlaneContrast : Prop :=
  ∀ s : State,
    ((s.par.contrastTrick = some true ∨ (s.par.contrastTrick = none ∧ s.mode = .contrast4)) →
      ∃ v t, exec .uCon s = .next t ∧ t.bus = s.bus ++ [.cmd (.contrast v)] ∧
        t = { s with log := t.log, dc := true } ∧
        (∀ w, s.par.planeContrast[s.plane.toNat]? = some w → v = w)) ∧
    ((s.par.contrastTrick = some false ∨ (s.par.contrastTrick = none ∧ s.mode ≠ .contrast4)) →
      exec .uCon s = .next s)

/-- R198: `U_ADV` advances the plane modulo the mode's plane count, and a wrap to 0 adds `UD` to `UCNT` modulo 256. -/
def Obligations.UAdvAdvancesThePlane : Prop :=
  ∀ s : State, s.mode ≠ .reserved → s.plane.toNat < nplanes s.mode →
    ∃ t, exec .uAdv s = .next t ∧ t = { s with plane := t.plane, ucnt := t.ucnt } ∧
      t.plane.toNat = (s.plane.toNat + 1) % nplanes s.mode ∧
      t.ucnt.toNat = if s.plane.toNat + 1 = nplanes s.mode then (s.ucnt.toNat + s.ud.toNat) % 256 else s.ucnt.toNat

/-- R192: `U_END` ends the step and writes nothing. -/
def Obligations.UEndEndsTheStep : Prop :=
  ∀ (s : State) (c : Caller), s.ctl = .uops c → exec .uEnd s = .next { s with ctl := .stepDone c }

/-! ### Host commands -/

/-- R221: the first `START` re-initialises the plane, the phase, the flag and the credits, sends `START_CMDS` with `CON`, and
arms the timer with `DELAY(3)` or `TCR`. Before `START` the timer is stopped and nothing is pending (see
`LegalStatesAreKept`). That it takes three turns is the model's grain and schedule (log entries 2 and 3). -/
def Obligations.StartArmsTheEngine : Prop :=
  ∀ s : State, s.started = false → s.sch.trun = false → s.sch.tif = false →
    (s.sync = .threePhase → s.par.delayShort < 2 ^ s.par.tw) →
    ∃ t, exec .start s = .next t ∧
      t.bus = s.bus ++ (startCmds s.par).map (fun c => .cmd (startCmd s.con c)) ∧
      (s.par.startCmds = none → t.bus = s.bus ++
        [.cmd .reorient, .cmd (.precharge s.par.dischargeCycles s.par.prechargeCycles), .cmd (.contrast s.con),
          .cmd (.rowstart 0), .cmd (.ptr s.par.parkPtrCol s.par.parkPtrPage)]) ∧
      t = { s with
        plane := 0, ucnt := 0, started := true, log := t.log, dc := s.dc || !(startCmds s.par).isEmpty
        sch := { s.sch with
          phase := 3, nd := false, tcnt := 0, tif := false, tie := true, trun := true
          ocr := if s.sync = .threePhase then s.par.delayShort else s.sch.tcr
          turns := s.sch.turns.drop 3 } }

/-- R106, R221, R250: a second `START` raises `Fault(4)` and changes nothing else. -/
def Obligations.SecondStartIsRefused : Prop :=
  ∀ s : State, s.started = true → s.ctl = .idle →
    exec .start s = .next { s with err := if s.err = 0 then 4 else s.err }

/-- R222, R261: `WAIT` with no step due arms sleep, unmasks and halts in one piece: no interrupt is taken on the way. -/
def Obligations.WaitHaltsWhenNoStepIsDue : Prop :=
  ∀ (clr : Bool) (s : State), s.sch.nd = false →
    ∃ tcnt tif turns, exec (.wait clr) s = .next { s with
      ctl := .asleep clr
      sch := { s.sch with se := true, slp := true, gie := true, tcnt := tcnt, tif := tif, turns := turns } }

/-- R26, R190, R222, R223: `WAIT` and `POLL` with a step due begin it at once: the flag is cleared, the phase and the clear
decision are latched; `SE`, `SLP` and `RET` are not written. -/
def Obligations.WaitAndPollBeginADueStep : Prop :=
  ∀ (clr : Bool) (s : State), s.sch.nd = true →
    (∃ tcnt tif turns, exec (.wait clr) s = .next { s with
      ctl := .uops (.wait clr), upc := 0, clrin := clr, xphase := if s.sync = .threePhase then s.sch.phase else 1
      sch := { s.sch with nd := false, gie := true, tcnt := tcnt, tif := tif, turns := turns } }) ∧
    (∃ tcnt tif turns, exec (.poll clr) s = .next { s with
      ctl := .uops .poll, upc := 0, clrin := clr, xphase := if s.sync = .threePhase then s.sch.phase else 1
      sch := { s.sch with nd := false, gie := true, tcnt := tcnt, tif := tif, turns := turns } })

/-- R222, R257, R261: a halted host whose interrupt is taken disarms sleep and begins the step of the phase the ISR entered. -/
def Obligations.WokenWaitBeginsTheStep : Prop :=
  ∀ (clr : Bool) (s : State), s.ctl = .asleep clr → s.boundary.sch.slp = false →
    ∃ tcnt tif turns, step s = .next { s with
      ctl := .uops (.wait clr), upc := 0, clrin := clr
      xphase := if s.sync = .threePhase then s.boundary.sch.phase else 1
      sch := { s.boundary.sch with se := false, nd := false, gie := true, tcnt := tcnt, tif := tif, turns := turns } }

/-- R222, R224: after a step `WAIT` is done when the step was terminal, and else starts again from `W0`. -/
def Obligations.WaitReturnsAfterATerminalStep : Prop :=
  ∀ (clr : Bool) (s : State), s.ctl = .stepDone (.wait clr) → s.boundary.sch.slp = false →
    ((s.sync ≠ .threePhase ∨ s.xphase = 3) → step s = .next { s.boundary with ctl := .idle }) ∧
    ((s.sync = .threePhase ∧ s.xphase ≠ 3) → step s = exec (.wait clr) s.boundary.boundary)

/-- R223: `POLL` with no step due returns 0 and changes nothing else but the timer's own count and pending bit. -/
def Obligations.PollWithoutADueStepIsANoOp : Prop :=
  ∀ (clr : Bool) (s : State), s.sch.nd = false →
    ∃ tcnt tif turns, exec (.poll clr) s = .next { s with
      ret := 0x00, sch := { s.sch with tcnt := tcnt, tif := tif, turns := turns } }

/-- R223, R224: after its step `POLL` returns 0x03 for a terminal step and 0x01 for another. -/
def Obligations.PollReportsTheStep : Prop :=
  ∀ s : State, s.ctl = .stepDone .poll → s.boundary.sch.slp = false →
    ((s.sync ≠ .threePhase ∨ s.xphase = 3) → step s = .next { s.boundary with ctl := .idle, ret := 0x03 }) ∧
    ((s.sync = .threePhase ∧ s.xphase ≠ 3) → step s = .next { s.boundary with ctl := .idle, ret := 0x01 })

/-- R225: `NEEDUPD` spends `UN` credits when there are that many. -/
def Obligations.NeedupdSpendsCredits : Prop :=
  ∀ s : State, ∃ t, exec .needupd s = .next t ∧ t = { s with ucnt := t.ucnt, ret := t.ret } ∧
    (s.un.toNat ≤ s.ucnt.toNat → t.ret = 0x01 ∧ t.ucnt.toNat + s.un.toNat = s.ucnt.toNat) ∧
    (s.ucnt.toNat < s.un.toNat → t.ret = 0x00 ∧ t.ucnt = s.ucnt)

/-- R226: `GETPLANE`, opcode 0x14 with no operands, returns the current plane, zero-extended, and changes nothing else; a word
of it with a reserved bit set is refused for that, which raises `Fault(2)`; after reset the plane returned is 0. -/
def Obligations.GetplaneReturnsThePlane : Prop :=
  (∀ s : State, ∃ t, exec .getplane s = .next t ∧ t = { s with ret := t.ret } ∧ t.ret.toNat = s.plane.toNat) ∧
  decode .host 0x140000 = .ok .getplane ∧
  (∀ operands : BitVec 16, operands ≠ 0 →
    decode .host ((0x14 : Byte) ++ operands) = .reservedField ∧ Decoded.reservedField.faultCode .host = 2) ∧
  (∀ (cfg : BitVec 6) (p : Params),
    ∃ t, exec .getplane (State.resetWith cfg p) = .next t ∧ t.ret = 0)

/-- R227, R228: `SETCON` writes `CON` and sends it; `SETUPD` writes `UN`, `UD` and clears `UCNT`. -/
def Obligations.SettingsWriteTheirRegisters : Prop :=
  ∀ (v n d : Byte) (s : State),
    (∃ t, exec (.setcon v) s = .next t ∧ t.bus = s.bus ++ [.cmd (.contrast v)] ∧
      t = { s with con := v, log := t.log, dc := true }) ∧
    exec (.setupd n d) s = .next { s with un := n, ud := d, ucnt := 0 }

/-! ### Whole steps -/

/-- R190, R193, R199, R200: the step of phase 1 under `THREE_PHASE`. That it takes four machine steps is the model's grain (log
entry 3). -/
def Obligations.PhaseOneParksTheBand : Prop :=
  ∀ (s : State) (c : Caller),
    s.sync = .threePhase → s.urom = microStore s.par s.sync → s.ctl = .uops c → s.upc = 0 → s.xphase = 1 →
    s.sch.slp = false →
    ∃ t, Host.Core.run Sys2Proof.core 4 s = .next t ∧
      t.bus = s.bus ++
        (if contrastTrick s.par s.mode then [.cmd (.contrast (planeContrast s.par s.plane))] else []) ++
        [.cmd (.rowstart s.par.rowPark3P), .cmd (.ptr s.par.parkPtrCol s.par.parkPtrPage)] ∧
      t = { s with ctl := .stepDone c, upc := 4, dc := true, log := t.log, sch := t.sch }

/-- R201, R206: the step of phase 2 under `THREE_PHASE` sends the park page masked and never clears. That it takes three machine
steps is the model's grain (log entry 3). -/
def Obligations.PhaseTwoSendsTheParkPage : Prop :=
  ∀ (s : State) (c : Caller),
    s.sync = .threePhase → s.urom = microStore s.par s.sync → s.ctl = .uops c → s.upc = 0 → s.xphase = 2 →
    s.sch.slp = false → s.fb.wf = true →
    ∃ t, Host.Core.run Sys2Proof.core 3 s = .next t ∧
      t.bus = s.bus ++
        burstEvents s.par.xferOrder (parkPage s.par) 1 s.par.maskP2 (!s.dord) s.fb ++
        [.cmd (.ptr s.par.parkPtrCol s.par.parkPtrPage)] ∧
      t.ctl = .stepDone c ∧ t.fb = s.fb ∧ t.plane = s.plane ∧ t.ucnt = s.ucnt ∧ t.err = s.err ∧ t.ret = s.ret ∧
      t.dord = s.dord ∧ t.xphase = s.xphase ∧ t.clrin = s.clrin

/-- R202, R206, R291: the terminal step under `THREE_PHASE`: park page, un-park, main pages, park page, then the plane
advances; with `CLRIN` the whole frame buffer is zero after it, without it unchanged. That it takes seven machine steps is
the model's grain (log entry 3). -/
def Obligations.PhaseThreeCompletesTheRefresh : Prop :=
  ∀ (s : State) (c : Caller),
    s.sync = .threePhase → s.urom = microStore s.par s.sync → s.ctl = .uops c → s.upc = 0 → s.xphase = 3 →
    s.sch.slp = false → s.fb.wf = true →
    ∃ t, Host.Core.run Sys2Proof.core 7 s = .next t ∧
      t.bus = s.bus ++
        [.cmd (.ptr s.par.parkPtrCol s.par.parkPtrPage)] ++
        burstEvents s.par.xferOrder (parkPage s.par) 1 s.par.maskP3A (!s.dord) s.fb ++
        [.cmd (.rowstart 0)] ++
        burstEvents s.par.xferOrder (mainPage s.par) 7 s.par.maskMain (!s.dord) s.fb ++
        burstEvents s.par.xferOrder (parkPage s.par) 1 s.par.maskP3C (!s.dord) s.fb ∧
      t.ctl = .stepDone c ∧
      (∀ a, t.fb.read a = if s.clrin && decide (a < 1024) then 0 else s.fb.read a) ∧
      t.plane = nextPlane s.mode s.plane ∧
      t.ucnt = (if nextPlane s.mode s.plane = 0 then s.ucnt + s.ud else s.ucnt) ∧
      t.err = s.err ∧ t.ret = s.ret ∧ t.dord = s.dord ∧ t.xphase = s.xphase

/-- R203, R206, R208, R223, R291: under `PARK_ROW` a `POLL` with a step due runs to completion, whatever fires and interrupts
fall into it: it returns 0x03, with the refresh on the bus, the plane advanced and the buffer cleared or kept. That it takes
nine machine steps is the model's grain (log entry 3). -/
def Obligations.ParkRowPollRunsToCompletion : Prop :=
  ∀ (s : State) (clr : Bool) (rest : List HostAct),
    s.sync = .parkRow → s.urom = microStore s.par s.sync → s.ctl = .idle → s.sch.slp = false → s.err ≠ 6 →
    s.fb.wf = true → s.sch.nd = true → s.hostActs = .word (encode (.poll clr)) :: rest →
    ∃ t, Host.Core.run Sys2Proof.core 9 s = .next t ∧
      t.bus = s.bus ++
        (if contrastTrick s.par s.mode then [.cmd (.contrast (planeContrast s.par s.plane))] else []) ++
        burstEvents s.par.xferOrder (parkPage s.par) 1 s.par.maskPark2P (!s.dord) s.fb ++
        [.cmd (.rowstart 63)] ++
        burstEvents s.par.xferOrder (mainPage s.par) 7 s.par.maskMain (!s.dord) s.fb ++
        [.cmd (.rowstart 0)] ∧
      t.ctl = .idle ∧ t.hostActs = rest ∧ t.ret = 0x03 ∧ t.sch.gie = true ∧ t.sch.slp = false ∧
      (∀ a, t.fb.read a = if clr && decide (a < 1024) then 0 else s.fb.read a) ∧
      t.plane = nextPlane s.mode s.plane ∧
      t.ucnt = (if nextPlane s.mode s.plane = 0 then s.ucnt + s.ud else s.ucnt) ∧ t.err = s.err ∧ t.dord = s.dord

/-- R204, R206, R208, R222, R291: under `SLOW_DRIVE` a `WAIT` with a step due runs to completion, the transfers bracketed by
`C(SLOW, 1)` and `C(SLOW, 0)`, and leaves `RET` alone. That it takes eleven machine steps is the model's grain (log
entry 3). -/
def Obligations.SlowDriveWaitRunsToCompletion : Prop :=
  ∀ (s : State) (clr : Bool) (rest : List HostAct),
    s.sync = .slowDrive → s.urom = microStore s.par s.sync → s.ctl = .idle → s.sch.slp = false → s.err ≠ 6 →
    s.fb.wf = true → s.sch.nd = true → s.hostActs = .word (encode (.wait clr)) :: rest →
    ∃ t, Host.Core.run Sys2Proof.core 11 s = .next t ∧
      t.bus = s.bus ++
        (if contrastTrick s.par s.mode then [.cmd (.contrast (planeContrast s.par s.plane))] else []) ++
        [.cmd (.slow true)] ++
        burstEvents s.par.xferOrder (parkPage s.par) 1 s.par.maskParkSD (!s.dord) s.fb ++
        [.cmd (.rowstart s.par.rowParkSD)] ++
        burstEvents s.par.xferOrder (mainPage s.par) 7 s.par.maskMain (!s.dord) s.fb ++
        [.cmd (.rowstart 0), .cmd (.slow false)] ∧
      t.ctl = .idle ∧ t.hostActs = rest ∧ t.ret = s.ret ∧ t.sch.gie = true ∧ t.sch.slp = false ∧
      t.sch.se = s.sch.se ∧
      (∀ a, t.fb.read a = if clr && decide (a < 1024) then 0 else s.fb.read a) ∧
      t.plane = nextPlane s.mode s.plane ∧
      t.ucnt = (if nextPlane s.mode s.plane = 0 then s.ucnt + s.ud else s.ucnt) ∧ t.err = s.err ∧ t.dord = s.dord

/-! ### The whole machine -/

/-- R281: every register at reset, for every configuration (`Config`'s block is one of them). The transfer engine's working registers
are not mentioned: the spec states no reset value for them (log entry 5). -/
def Obligations.ResetValues : Prop :=
  ∀ (cfg : BitVec 6) (p : Params), reload p p.refreshHz < 2 ^ p.tw →
    let s := State.resetWith cfg p
    s.cfg = cfg ∧ s.par = p ∧ s.plane = 0 ∧ s.sch.phase = 3 ∧ s.xphase = 1 ∧ s.sch.nd = false ∧ s.ucnt = 0 ∧
    s.un = p.un0 ∧ s.ud = p.ud0 ∧ s.con = p.defaultContrast ∧ s.sch.tcr = reload p p.refreshHz ∧ s.sch.tcnt = 0 ∧
    s.sch.ocr = 0 ∧ s.sch.trun = false ∧ s.sch.tie = false ∧ s.sch.tif = false ∧ s.sch.gie = true ∧ s.sch.se = false ∧
    s.sch.slp = false ∧ s.dord = false ∧ s.dc = true ∧ s.started = false ∧ s.upc = 0 ∧ s.clrin = false ∧ s.ret = 0 ∧
    (∀ a, s.fb.read a = 0x00) ∧ s.bus = [] ∧ s.urom = microStore p (strapSync cfg) ∧ s.urom.length = 48 ∧
    (s.err = 6 ↔ badConfig p cfg = true) ∧ (badConfig p cfg = false → s.err = 0)

/-- The state after reset is legal, for every configuration (R24 to R26, R281). -/
def Obligations.ResetIsLegal : Prop := ∀ (cfg : BitVec 6) (p : Params), Legal (State.resetWith cfg p)

/-- R24, R25, R26, R32, R33, R35, U9: every step keeps the legal states legal. -/
def Obligations.LegalStatesAreKept : Prop := ∀ s t : State, Legal s → step s = .next t → Legal t

/-- R250, R252: from a legal state no number of steps ends the machine; every fault of the spec goes on. -/
def Obligations.LegalRunsNeverStop : Prop := ∀ s : State, Legal s → SafeRun s

/-- R37, R80: `BUS` is append-only. -/
def Obligations.BusIsAppendOnly : Prop :=
  ∀ s t : State, step s = .next t → ∃ events, t.bus = s.bus ++ events

/-- R6, R23, R85: no step writes the configuration, the straps or the micro-program store. -/
def Obligations.ConfigurationNeverChanges : Prop :=
  ∀ s t : State, step s = .next t → t.cfg = s.cfg ∧ t.par = s.par ∧ t.urom = s.urom

/-- R21: an operation that returns no value leaves `RET` unchanged. -/
def Obligations.RetIsWrittenByValueCommandsOnly : Prop :=
  ∀ (i : Instr) (s t : State), exec i s = .next t → returnsValue i = false → t.ret = s.ret

/-- R38, R41: `UN`, `UD` are written by `SETUPD` only, `CON` by `SETCON` only, `PLANE` by `U_ADV` and `START` only, and the
frame buffer by `FBWR`, `PXW` and `U_XFER` only (R73). -/
def Obligations.RegistersHaveTheirOwners : Prop :=
  ∀ (i : Instr) (s t : State), exec i s = .next t →
    ((∀ n d, i ≠ .setupd n d) → t.un = s.un ∧ t.ud = s.ud) ∧
    ((∀ v, i ≠ .setcon v) → t.con = s.con) ∧
    (i ≠ .uAdv → i ≠ .start → t.plane = s.plane) ∧
    ((∀ a d, i ≠ .fbwr a d) → (∀ x y c, i ≠ .pxw x y c) → (∀ g n m e, i ≠ .uXfer g n m e) → t.fb = s.fb)

/-- R25: under the two-phase protocols no step takes `PHASE` from its reset value 3. -/
def Obligations.TwoPhaseProtocolsNeverMovePhase : Prop :=
  ∀ s t : State, s.sync = .parkRow ∨ s.sync = .slowDrive → s.sch.phase = 3 → step s = .next t → t.sch.phase = 3

/-- R34, R35, R250: `ERR` keeps the first code and `STARTED` is never cleared. -/
def Obligations.ErrAndStartedAreSticky : Prop :=
  ∀ s t : State, step s = .next t → (s.err ≠ 0 → t.err = s.err) ∧ (s.started = true → t.started = true)

/-- R251, U7, U8: with the built micro-program store code 5 never arises. -/
def Obligations.BuiltStoreNeverRaisesBadUop : Prop :=
  ∀ s t : State, s.urom = microStore s.par s.sync → s.err ≠ 5 → step s = .next t → t.err ≠ 5

/-- R156, R208: what a micro-op does outside the scheduler does not depend on the scheduler's state or on the fires and
interrupts that fall into it. -/
def Obligations.MicroOpsIgnoreTheInterrupt : Prop :=
  ∀ (i : Instr) (s t : State) (k : Sched), i.wellFormedAt .urom = true → exec i s = .next t →
    ∃ k', exec i { s with sch := k } = .next { t with sch := k' }

/-- R222, R261, R285: a `WAIT` asleep with the interrupt disabled, or with the timer stopped and nothing pending, stays
asleep for ever. -/
def Obligations.WaitWithoutAnInterruptSleepsForEver : Prop :=
  ∀ (s : State) (clr : Bool) (n : Nat), s.ctl = .asleep clr → s.sch.slp = true →
    (s.sch.tie = false ∨ (s.sch.trun = false ∧ s.sch.tif = false)) →
    ∃ k : Sched, Host.Core.run Sys2Proof.core n s = .next { s with sch := k } ∧ k.slp = true
end

