-- ==== Sys2Proof/Laws/Sched.lean ====
section
/-! SUPPORT. What the asynchronous steps between two host actions can do to the scheduler's registers. -/

namespace Sys2Proof.Machine

/-- Packaged induction: what every asynchronous step keeps, a list of them keeps. -/
theorem Sched.foldl_keeps {P : Sched → Prop} {sync : SyncMode} {p : Params}
    (hasync : ∀ e k, P k → P (k.async sync p e)) (steps : List AsyncStep) (k : Sched) (h : P k) :
    P (steps.foldl (fun k e => k.async sync p e) k) := by
  induction steps generalizing k with
  | nil => exact h
  | cons e steps ih => exact ih _ (hasync e k h)

/-- What every asynchronous step and a change of the schedule keep, a turn keeps. -/
theorem Sched.turn_keeps {P : Sched → Prop} {sync : SyncMode} {p : Params}
    (hturns : ∀ k r, P k → P { k with turns := r }) (hasync : ∀ e k, P k → P (k.async sync p e)) (k : Sched) (h : P k) :
    P (k.turn sync p) := by
  unfold Sched.turn
  split
  · have htick : P (k.tick p) := hasync .tick k h
    unfold Sched.fairTurn
    simp only
    split
    · rename_i ht
      have hentry := hasync .entry _ htick
      rw [Sched.async, if_pos ht] at hentry
      exact hturns _ _ hentry
    · exact htick
  · exact Sched.foldl_keeps hasync _ _ (hturns k _ h)

/-- One asynchronous step is a tick that does not fire, a fire, an interrupt taken when it is takeable, or nothing. -/
theorem Sched.async_cases (sync : SyncMode) (p : Params) (e : AsyncStep) (k : Sched) :
    k.async sync p e = k ∨
    (k.trun = true ∧ k.async sync p e = { k with tcnt := timerWord p (k.tcnt + 1) }) ∨
    (k.trun = true ∧ k.async sync p e = k.fire) ∨
    (k.tif = true ∧ k.tie = true ∧ k.gie = true ∧ k.async sync p e = k.takeInterrupt sync p) := by
  cases e with
  | tick =>
    by_cases hr : k.trun = true
    · by_cases ho : timerWord p (k.tcnt + 1) = k.ocr
      · exact .inr (.inr (.inl ⟨hr, by simp [Sched.async, Sched.tick, hr, ho, Sched.fire]⟩))
      · exact .inr (.inl ⟨hr, by simp [Sched.async, Sched.tick, hr, ho]⟩)
    · exact .inl (by simp [Sched.async, Sched.tick, hr])
  | fire =>
    by_cases hr : k.trun = true
    · exact .inr (.inr (.inl ⟨hr, by simp [Sched.async, hr]⟩))
    · exact .inl (by simp [Sched.async, hr])
  | entry =>
    by_cases ht : k.takeable = true
    · have h := ht
      simp only [Sched.takeable, Bool.and_eq_true] at h
      exact .inr (.inr (.inr ⟨h.1.1, h.1.2, h.2, by simp [Sched.async, ht]⟩))
    · exact .inl (by simp [Sched.async, ht])

/-- The turn after the last entry of the schedule: one tick, then the entry if the interrupt is takeable, and the host's
share of turns after it. -/
theorem Sched.turn_fair {sync : SyncMode} {p : Params} {k : Sched} (h : k.turns = []) :
    k.turn sync p = if (k.tick p).takeable then
      { (k.tick p).takeInterrupt sync p with turns := List.replicate hostShare [] } else k.tick p := by
  unfold Sched.turn
  rw [h]
  rfl

/-- Within the host's share a turn changes nothing and uses itself up. -/
theorem Sched.turn_share {sync : SyncMode} {p : Params} {k : Sched} {rest : List (List AsyncStep)}
    (h : k.turns = [] :: rest) : k.turn sync p = { k with turns := rest } := by
  unfold Sched.turn
  rw [h]
  rfl

/-- Asynchronous steps read and write the schedule nowhere. -/
@[simp] theorem Sched.async_turns (sync : SyncMode) (p : Params) (e : AsyncStep) (k : Sched) :
    (k.async sync p e).turns = k.turns := by
  obtain h | ⟨-, h⟩ | ⟨-, h⟩ | ⟨-, -, -, h⟩ := Sched.async_cases sync p e k <;> rw [h]
  · rfl
  · unfold Sched.takeInterrupt Sched.isrBody; split <;> rfl

/-- A turn of the schedule only uses its own entry up. -/
theorem Sched.turn_turns {sync : SyncMode} {p : Params} {k : Sched} {steps : List AsyncStep}
    {rest : List (List AsyncStep)} (h : k.turns = steps :: rest) : (k.turn sync p).turns = rest := by
  unfold Sched.turn
  rw [h]
  exact Sched.foldl_keeps (P := fun j => j.turns = rest) (fun e j h => by rw [Sched.async_turns, h]) _ _ rfl

/-! ### Registers no asynchronous step writes (R38, R176) -/

theorem Sched.turn_fixed (sync : SyncMode) (p : Params) (k : Sched) :
    (k.turn sync p).tcr = k.tcr ∧ (k.turn sync p).trun = k.trun ∧ (k.turn sync p).tie = k.tie ∧
      (k.turn sync p).se = k.se := by
  refine Sched.turn_keeps (P := fun j => j.tcr = k.tcr ∧ j.trun = k.trun ∧ j.tie = k.tie ∧ j.se = k.se)
    (fun _ _ h => h) (fun e j h => ?_) k ⟨rfl, rfl, rfl, rfl⟩
  obtain h' | ⟨-, h'⟩ | ⟨-, h'⟩ | ⟨-, -, -, h'⟩ := Sched.async_cases sync p e j <;> rw [h']
  · exact h
  · exact h
  · exact h
  · unfold Sched.takeInterrupt Sched.isrBody; split <;> exact h

@[simp] theorem Sched.turn_tcr (sync : SyncMode) (p : Params) (k : Sched) : (k.turn sync p).tcr = k.tcr :=
  (Sched.turn_fixed sync p k).1
@[simp] theorem Sched.turn_trun (sync : SyncMode) (p : Params) (k : Sched) : (k.turn sync p).trun = k.trun :=
  (Sched.turn_fixed sync p k).2.1
@[simp] theorem Sched.turn_tie (sync : SyncMode) (p : Params) (k : Sched) : (k.turn sync p).tie = k.tie :=
  (Sched.turn_fixed sync p k).2.2.1
@[simp] theorem Sched.turn_se (sync : SyncMode) (p : Params) (k : Sched) : (k.turn sync p).se = k.se :=
  (Sched.turn_fixed sync p k).2.2.2

/-- Asynchronous steps only ever set `ND`. -/
theorem Sched.turn_nd {sync : SyncMode} {p : Params} {k : Sched} (h : k.nd = true) : (k.turn sync p).nd = true := by
  refine Sched.turn_keeps (P := fun j => j.nd = true) (fun _ _ h => h) (fun e j h => ?_) k h
  obtain h' | ⟨-, h'⟩ | ⟨-, h'⟩ | ⟨-, -, -, h'⟩ := Sched.async_cases sync p e j <;> rw [h']
  · exact h
  · exact h
  · exact h
  · unfold Sched.takeInterrupt Sched.isrBody; split <;> rfl

/-- Asynchronous steps only ever clear `SLP`. -/
theorem Sched.turn_slp {sync : SyncMode} {p : Params} {k : Sched} (h : k.slp = false) :
    (k.turn sync p).slp = false := by
  refine Sched.turn_keeps (P := fun j => j.slp = false) (fun _ _ h => h) (fun e j h => ?_) k h
  obtain h' | ⟨-, h'⟩ | ⟨-, h'⟩ | ⟨-, -, -, h'⟩ := Sched.async_cases sync p e j <;> rw [h']
  · exact h
  · exact h
  · exact h
  · unfold Sched.takeInterrupt Sched.isrBody; split <;> rfl

/-- The interrupt is taken only unmasked and returns unmasked, so a turn leaves `GIE` as it finds it. -/
@[simp] theorem Sched.turn_gie (sync : SyncMode) (p : Params) (k : Sched) : (k.turn sync p).gie = k.gie := by
  refine Sched.turn_keeps (P := fun j => j.gie = k.gie) (fun _ _ h => h) (fun e j h => ?_) k rfl
  obtain h' | ⟨-, h'⟩ | ⟨-, h'⟩ | ⟨-, -, hg, h'⟩ := Sched.async_cases sync p e j <;> rw [h']
  · exact h
  · exact h
  · exact h
  · rw [← h, hg]; unfold Sched.takeInterrupt; rfl

theorem nextPhase_ne_zero {q : BitVec 2} (h : q ≠ 0) : nextPhase q ≠ 0 := by
  revert q; decide

theorem Sched.turn_phase {sync : SyncMode} {p : Params} {k : Sched} (h : k.phase ≠ 0) :
    (k.turn sync p).phase ≠ 0 := by
  refine Sched.turn_keeps (P := fun j => j.phase ≠ 0) (fun _ _ h => h) (fun e j h => ?_) k h
  obtain h' | ⟨-, h'⟩ | ⟨-, h'⟩ | ⟨-, -, -, h'⟩ := Sched.async_cases sync p e j <;> rw [h']
  · exact h
  · exact h
  · exact h
  · unfold Sched.takeInterrupt Sched.isrBody
    split
    · exact nextPhase_ne_zero h
    · exact h

/-- While the interrupt is masked, or disabled at the timer, nothing but the timer's own two registers moves (R254). -/
theorem Sched.turn_untaken {sync : SyncMode} {p : Params} {k : Sched} (h : k.gie = false ∨ k.tie = false) :
    ∃ tcnt tif turns, k.turn sync p = { k with tcnt := tcnt, tif := tif, turns := turns } := by
  refine Sched.turn_keeps (P := fun j => ∃ tcnt tif turns, j = { k with tcnt := tcnt, tif := tif, turns := turns })
    ?_ ?_ k ⟨_, _, _, rfl⟩
  · rintro _ r ⟨tcnt, tif, turns, rfl⟩
    exact ⟨tcnt, tif, r, rfl⟩
  · rintro e _ ⟨tcnt, tif, turns, rfl⟩
    obtain h' | ⟨-, h'⟩ | ⟨-, h'⟩ | ⟨-, hi, hg, h'⟩ := Sched.async_cases sync p e { k with tcnt, tif, turns } <;> rw [h']
    · exact ⟨_, _, _, rfl⟩
    · exact ⟨_, _, _, rfl⟩
    · exact ⟨_, _, _, rfl⟩
    · rcases h with h | h
      · exact absurd hg (by simp [h])
      · exact absurd hi (by simp [h])

/-- With the timer stopped and nothing pending, asynchronous steps change nothing (R280). -/
theorem Sched.foldl_stopped {sync : SyncMode} {p : Params} (steps : List AsyncStep) {k : Sched} (hr : k.trun = false)
    (hf : k.tif = false) : steps.foldl (fun k e => k.async sync p e) k = k := by
  induction steps with
  | nil => rfl
  | cons e steps ih =>
    have he : k.async sync p e = k := by cases e <;> simp [Sched.async, Sched.tick, Sched.takeable, hr, hf]
    rw [List.foldl_cons, he, ih]

/-- With the timer stopped and nothing pending, a turn only uses itself up (R280). -/
theorem Sched.turn_stopped {sync : SyncMode} {p : Params} {k : Sched} (hr : k.trun = false) (hf : k.tif = false) :
    k.turn sync p = { k with turns := k.turns.drop 1 } := by
  unfold Sched.turn
  cases hk : k.turns with
  | nil =>
    have ht : k.tick p = k := by simp [Sched.tick, hr]
    have hn : k.takeable = false := by simp [Sched.takeable, hf]
    simp only [Sched.fairTurn, ht, hn, Bool.false_eq_true, if_false]
    rw [List.drop_nil, ← hk]
  | cons steps rest => exact Sched.foldl_stopped steps (k := { k with turns := rest }) hr hf

/-! ### The timer's registers stay in range -/

theorem timerWord_lt (p : Params) (n : Nat) : timerWord p n < 2 ^ p.tw := Nat.mod_lt _ (by positivity)

theorem timerWord_of_lt {p : Params} {n : Nat} (h : n < 2 ^ p.tw) : timerWord p n = n := Nat.mod_eq_of_lt h

theorem delayOf_lt (p : Params) (tcr : Nat) (q : BitVec 2) : delayOf p tcr q < 2 ^ p.tw := timerWord_lt p _

theorem Sched.turn_range {sync : SyncMode} {p : Params} {k : Sched}
    (h : k.tcr < 2 ^ p.tw ∧ k.tcnt < 2 ^ p.tw ∧ k.ocr < 2 ^ p.tw) :
    (k.turn sync p).tcr < 2 ^ p.tw ∧ (k.turn sync p).tcnt < 2 ^ p.tw ∧ (k.turn sync p).ocr < 2 ^ p.tw := by
  refine Sched.turn_keeps (P := fun j => j.tcr < 2 ^ p.tw ∧ j.tcnt < 2 ^ p.tw ∧ j.ocr < 2 ^ p.tw)
    (fun _ _ h => h) (fun e j h => ?_) k h
  obtain h' | ⟨-, h'⟩ | ⟨-, h'⟩ | ⟨-, -, -, h'⟩ := Sched.async_cases sync p e j <;> rw [h']
  · exact h
  · exact ⟨h.1, timerWord_lt p _, h.2.2⟩
  · exact ⟨h.1, by simp [Sched.fire], h.2.2⟩
  · unfold Sched.takeInterrupt Sched.isrBody
    split
    · exact ⟨h.1, h.2.1, delayOf_lt p _ _⟩
    · exact ⟨h.1, h.2.1, h.1⟩

end Sys2Proof.Machine
end

