-- ==== Sys2Proof/Laws/State.lean ====
section
/-! SUPPORT. What each named update does to each field of State, and to the views of it, once (every line by rfl). -/

namespace Sys2Proof.Machine

/-! ### `State.setRet` -/

@[simp] theorem State.setRet_cfg (v : Byte) (s : State) : (State.setRet v s).cfg = s.cfg := rfl
@[simp] theorem State.setRet_par (v : Byte) (s : State) : (State.setRet v s).par = s.par := rfl
@[simp] theorem State.setRet_urom (v : Byte) (s : State) : (State.setRet v s).urom = s.urom := rfl
@[simp] theorem State.setRet_sch (v : Byte) (s : State) : (State.setRet v s).sch = s.sch := rfl
@[simp] theorem State.setRet_plane (v : Byte) (s : State) : (State.setRet v s).plane = s.plane := rfl
@[simp] theorem State.setRet_xphase (v : Byte) (s : State) : (State.setRet v s).xphase = s.xphase := rfl
@[simp] theorem State.setRet_upc (v : Byte) (s : State) : (State.setRet v s).upc = s.upc := rfl
@[simp] theorem State.setRet_clrin (v : Byte) (s : State) : (State.setRet v s).clrin = s.clrin := rfl
@[simp] theorem State.setRet_ucnt (v : Byte) (s : State) : (State.setRet v s).ucnt = s.ucnt := rfl
@[simp] theorem State.setRet_un (v : Byte) (s : State) : (State.setRet v s).un = s.un := rfl
@[simp] theorem State.setRet_ud (v : Byte) (s : State) : (State.setRet v s).ud = s.ud := rfl
@[simp] theorem State.setRet_con (v : Byte) (s : State) : (State.setRet v s).con = s.con := rfl
@[simp] theorem State.setRet_xptr (v : Byte) (s : State) : (State.setRet v s).xptr = s.xptr := rfl
@[simp] theorem State.setRet_xcnt (v : Byte) (s : State) : (State.setRet v s).xcnt = s.xcnt := rfl
@[simp] theorem State.setRet_xmask (v : Byte) (s : State) : (State.setRet v s).xmask = s.xmask := rfl
@[simp] theorem State.setRet_xclr (v : Byte) (s : State) : (State.setRet v s).xclr = s.xclr := rfl
@[simp] theorem State.setRet_xd (v : Byte) (s : State) : (State.setRet v s).xd = s.xd := rfl
@[simp] theorem State.setRet_dord (v : Byte) (s : State) : (State.setRet v s).dord = s.dord := rfl
@[simp] theorem State.setRet_dc (v : Byte) (s : State) : (State.setRet v s).dc = s.dc := rfl
@[simp] theorem State.setRet_fb (v : Byte) (s : State) : (State.setRet v s).fb = s.fb := rfl
@[simp] theorem State.setRet_log (v : Byte) (s : State) : (State.setRet v s).log = s.log := rfl
@[simp] theorem State.setRet_started (v : Byte) (s : State) : (State.setRet v s).started = s.started := rfl
@[simp] theorem State.setRet_err (v : Byte) (s : State) : (State.setRet v s).err = s.err := rfl
@[simp] theorem State.setRet_ret (v : Byte) (s : State) : (State.setRet v s).ret = v := rfl
@[simp] theorem State.setRet_ctl (v : Byte) (s : State) : (State.setRet v s).ctl = s.ctl := rfl
@[simp] theorem State.setRet_hostActs (v : Byte) (s : State) : (State.setRet v s).hostActs = s.hostActs := rfl
@[simp] theorem State.setRet_mode (v : Byte) (s : State) : (State.setRet v s).mode = s.mode := rfl
@[simp] theorem State.setRet_sync (v : Byte) (s : State) : (State.setRet v s).sync = s.sync := rfl

/-! ### `State.setSch` -/

@[simp] theorem State.setSch_cfg (k : Sched) (s : State) : (State.setSch k s).cfg = s.cfg := rfl
@[simp] theorem State.setSch_par (k : Sched) (s : State) : (State.setSch k s).par = s.par := rfl
@[simp] theorem State.setSch_urom (k : Sched) (s : State) : (State.setSch k s).urom = s.urom := rfl
@[simp] theorem State.setSch_sch (k : Sched) (s : State) : (State.setSch k s).sch = k := rfl
@[simp] theorem State.setSch_plane (k : Sched) (s : State) : (State.setSch k s).plane = s.plane := rfl
@[simp] theorem State.setSch_xphase (k : Sched) (s : State) : (State.setSch k s).xphase = s.xphase := rfl
@[simp] theorem State.setSch_upc (k : Sched) (s : State) : (State.setSch k s).upc = s.upc := rfl
@[simp] theorem State.setSch_clrin (k : Sched) (s : State) : (State.setSch k s).clrin = s.clrin := rfl
@[simp] theorem State.setSch_ucnt (k : Sched) (s : State) : (State.setSch k s).ucnt = s.ucnt := rfl
@[simp] theorem State.setSch_un (k : Sched) (s : State) : (State.setSch k s).un = s.un := rfl
@[simp] theorem State.setSch_ud (k : Sched) (s : State) : (State.setSch k s).ud = s.ud := rfl
@[simp] theorem State.setSch_con (k : Sched) (s : State) : (State.setSch k s).con = s.con := rfl
@[simp] theorem State.setSch_xptr (k : Sched) (s : State) : (State.setSch k s).xptr = s.xptr := rfl
@[simp] theorem State.setSch_xcnt (k : Sched) (s : State) : (State.setSch k s).xcnt = s.xcnt := rfl
@[simp] theorem State.setSch_xmask (k : Sched) (s : State) : (State.setSch k s).xmask = s.xmask := rfl
@[simp] theorem State.setSch_xclr (k : Sched) (s : State) : (State.setSch k s).xclr = s.xclr := rfl
@[simp] theorem State.setSch_xd (k : Sched) (s : State) : (State.setSch k s).xd = s.xd := rfl
@[simp] theorem State.setSch_dord (k : Sched) (s : State) : (State.setSch k s).dord = s.dord := rfl
@[simp] theorem State.setSch_dc (k : Sched) (s : State) : (State.setSch k s).dc = s.dc := rfl
@[simp] theorem State.setSch_fb (k : Sched) (s : State) : (State.setSch k s).fb = s.fb := rfl
@[simp] theorem State.setSch_log (k : Sched) (s : State) : (State.setSch k s).log = s.log := rfl
@[simp] theorem State.setSch_started (k : Sched) (s : State) : (State.setSch k s).started = s.started := rfl
@[simp] theorem State.setSch_err (k : Sched) (s : State) : (State.setSch k s).err = s.err := rfl
@[simp] theorem State.setSch_ret (k : Sched) (s : State) : (State.setSch k s).ret = s.ret := rfl
@[simp] theorem State.setSch_ctl (k : Sched) (s : State) : (State.setSch k s).ctl = s.ctl := rfl
@[simp] theorem State.setSch_hostActs (k : Sched) (s : State) : (State.setSch k s).hostActs = s.hostActs := rfl
@[simp] theorem State.setSch_mode (k : Sched) (s : State) : (State.setSch k s).mode = s.mode := rfl
@[simp] theorem State.setSch_sync (k : Sched) (s : State) : (State.setSch k s).sync = s.sync := rfl

/-! ### `State.setCtl` -/

@[simp] theorem State.setCtl_cfg (c : Ctl) (s : State) : (State.setCtl c s).cfg = s.cfg := rfl
@[simp] theorem State.setCtl_par (c : Ctl) (s : State) : (State.setCtl c s).par = s.par := rfl
@[simp] theorem State.setCtl_urom (c : Ctl) (s : State) : (State.setCtl c s).urom = s.urom := rfl
@[simp] theorem State.setCtl_sch (c : Ctl) (s : State) : (State.setCtl c s).sch = s.sch := rfl
@[simp] theorem State.setCtl_plane (c : Ctl) (s : State) : (State.setCtl c s).plane = s.plane := rfl
@[simp] theorem State.setCtl_xphase (c : Ctl) (s : State) : (State.setCtl c s).xphase = s.xphase := rfl
@[simp] theorem State.setCtl_upc (c : Ctl) (s : State) : (State.setCtl c s).upc = s.upc := rfl
@[simp] theorem State.setCtl_clrin (c : Ctl) (s : State) : (State.setCtl c s).clrin = s.clrin := rfl
@[simp] theorem State.setCtl_ucnt (c : Ctl) (s : State) : (State.setCtl c s).ucnt = s.ucnt := rfl
@[simp] theorem State.setCtl_un (c : Ctl) (s : State) : (State.setCtl c s).un = s.un := rfl
@[simp] theorem State.setCtl_ud (c : Ctl) (s : State) : (State.setCtl c s).ud = s.ud := rfl
@[simp] theorem State.setCtl_con (c : Ctl) (s : State) : (State.setCtl c s).con = s.con := rfl
@[simp] theorem State.setCtl_xptr (c : Ctl) (s : State) : (State.setCtl c s).xptr = s.xptr := rfl
@[simp] theorem State.setCtl_xcnt (c : Ctl) (s : State) : (State.setCtl c s).xcnt = s.xcnt := rfl
@[simp] theorem State.setCtl_xmask (c : Ctl) (s : State) : (State.setCtl c s).xmask = s.xmask := rfl
@[simp] theorem State.setCtl_xclr (c : Ctl) (s : State) : (State.setCtl c s).xclr = s.xclr := rfl
@[simp] theorem State.setCtl_xd (c : Ctl) (s : State) : (State.setCtl c s).xd = s.xd := rfl
@[simp] theorem State.setCtl_dord (c : Ctl) (s : State) : (State.setCtl c s).dord = s.dord := rfl
@[simp] theorem State.setCtl_dc (c : Ctl) (s : State) : (State.setCtl c s).dc = s.dc := rfl
@[simp] theorem State.setCtl_fb (c : Ctl) (s : State) : (State.setCtl c s).fb = s.fb := rfl
@[simp] theorem State.setCtl_log (c : Ctl) (s : State) : (State.setCtl c s).log = s.log := rfl
@[simp] theorem State.setCtl_started (c : Ctl) (s : State) : (State.setCtl c s).started = s.started := rfl
@[simp] theorem State.setCtl_err (c : Ctl) (s : State) : (State.setCtl c s).err = s.err := rfl
@[simp] theorem State.setCtl_ret (c : Ctl) (s : State) : (State.setCtl c s).ret = s.ret := rfl
@[simp] theorem State.setCtl_ctl (c : Ctl) (s : State) : (State.setCtl c s).ctl = c := rfl
@[simp] theorem State.setCtl_hostActs (c : Ctl) (s : State) : (State.setCtl c s).hostActs = s.hostActs := rfl
@[simp] theorem State.setCtl_mode (c : Ctl) (s : State) : (State.setCtl c s).mode = s.mode := rfl
@[simp] theorem State.setCtl_sync (c : Ctl) (s : State) : (State.setCtl c s).sync = s.sync := rfl

/-! ### `State.fbWrite` -/

@[simp] theorem State.fbWrite_cfg (a : Nat) (v : Byte) (s : State) : (State.fbWrite a v s).cfg = s.cfg := rfl
@[simp] theorem State.fbWrite_par (a : Nat) (v : Byte) (s : State) : (State.fbWrite a v s).par = s.par := rfl
@[simp] theorem State.fbWrite_urom (a : Nat) (v : Byte) (s : State) : (State.fbWrite a v s).urom = s.urom := rfl
@[simp] theorem State.fbWrite_sch (a : Nat) (v : Byte) (s : State) : (State.fbWrite a v s).sch = s.sch := rfl
@[simp] theorem State.fbWrite_plane (a : Nat) (v : Byte) (s : State) : (State.fbWrite a v s).plane = s.plane := rfl
@[simp] theorem State.fbWrite_xphase (a : Nat) (v : Byte) (s : State) : (State.fbWrite a v s).xphase = s.xphase := rfl
@[simp] theorem State.fbWrite_upc (a : Nat) (v : Byte) (s : State) : (State.fbWrite a v s).upc = s.upc := rfl
@[simp] theorem State.fbWrite_clrin (a : Nat) (v : Byte) (s : State) : (State.fbWrite a v s).clrin = s.clrin := rfl
@[simp] theorem State.fbWrite_ucnt (a : Nat) (v : Byte) (s : State) : (State.fbWrite a v s).ucnt = s.ucnt := rfl
@[simp] theorem State.fbWrite_un (a : Nat) (v : Byte) (s : State) : (State.fbWrite a v s).un = s.un := rfl
@[simp] theorem State.fbWrite_ud (a : Nat) (v : Byte) (s : State) : (State.fbWrite a v s).ud = s.ud := rfl
@[simp] theorem State.fbWrite_con (a : Nat) (v : Byte) (s : State) : (State.fbWrite a v s).con = s.con := rfl
@[simp] theorem State.fbWrite_xptr (a : Nat) (v : Byte) (s : State) : (State.fbWrite a v s).xptr = s.xptr := rfl
@[simp] theorem State.fbWrite_xcnt (a : Nat) (v : Byte) (s : State) : (State.fbWrite a v s).xcnt = s.xcnt := rfl
@[simp] theorem State.fbWrite_xmask (a : Nat) (v : Byte) (s : State) : (State.fbWrite a v s).xmask = s.xmask := rfl
@[simp] theorem State.fbWrite_xclr (a : Nat) (v : Byte) (s : State) : (State.fbWrite a v s).xclr = s.xclr := rfl
@[simp] theorem State.fbWrite_xd (a : Nat) (v : Byte) (s : State) : (State.fbWrite a v s).xd = s.xd := rfl
@[simp] theorem State.fbWrite_dord (a : Nat) (v : Byte) (s : State) : (State.fbWrite a v s).dord = s.dord := rfl
@[simp] theorem State.fbWrite_dc (a : Nat) (v : Byte) (s : State) : (State.fbWrite a v s).dc = s.dc := rfl
@[simp] theorem State.fbWrite_fb (a : Nat) (v : Byte) (s : State) : (State.fbWrite a v s).fb = s.fb.write a v := rfl
@[simp] theorem State.fbWrite_log (a : Nat) (v : Byte) (s : State) : (State.fbWrite a v s).log = s.log := rfl
@[simp] theorem State.fbWrite_started (a : Nat) (v : Byte) (s : State) : (State.fbWrite a v s).started = s.started := rfl
@[simp] theorem State.fbWrite_err (a : Nat) (v : Byte) (s : State) : (State.fbWrite a v s).err = s.err := rfl
@[simp] theorem State.fbWrite_ret (a : Nat) (v : Byte) (s : State) : (State.fbWrite a v s).ret = s.ret := rfl
@[simp] theorem State.fbWrite_ctl (a : Nat) (v : Byte) (s : State) : (State.fbWrite a v s).ctl = s.ctl := rfl
@[simp] theorem State.fbWrite_hostActs (a : Nat) (v : Byte) (s : State) : (State.fbWrite a v s).hostActs = s.hostActs := rfl
@[simp] theorem State.fbWrite_mode (a : Nat) (v : Byte) (s : State) : (State.fbWrite a v s).mode = s.mode := rfl
@[simp] theorem State.fbWrite_sync (a : Nat) (v : Byte) (s : State) : (State.fbWrite a v s).sync = s.sync := rfl

/-! ### `State.emitCmd` -/

@[simp] theorem State.emitCmd_cfg (c : BusCmd) (s : State) : (State.emitCmd c s).cfg = s.cfg := rfl
@[simp] theorem State.emitCmd_par (c : BusCmd) (s : State) : (State.emitCmd c s).par = s.par := rfl
@[simp] theorem State.emitCmd_urom (c : BusCmd) (s : State) : (State.emitCmd c s).urom = s.urom := rfl
@[simp] theorem State.emitCmd_sch (c : BusCmd) (s : State) : (State.emitCmd c s).sch = s.sch := rfl
@[simp] theorem State.emitCmd_plane (c : BusCmd) (s : State) : (State.emitCmd c s).plane = s.plane := rfl
@[simp] theorem State.emitCmd_xphase (c : BusCmd) (s : State) : (State.emitCmd c s).xphase = s.xphase := rfl
@[simp] theorem State.emitCmd_upc (c : BusCmd) (s : State) : (State.emitCmd c s).upc = s.upc := rfl
@[simp] theorem State.emitCmd_clrin (c : BusCmd) (s : State) : (State.emitCmd c s).clrin = s.clrin := rfl
@[simp] theorem State.emitCmd_ucnt (c : BusCmd) (s : State) : (State.emitCmd c s).ucnt = s.ucnt := rfl
@[simp] theorem State.emitCmd_un (c : BusCmd) (s : State) : (State.emitCmd c s).un = s.un := rfl
@[simp] theorem State.emitCmd_ud (c : BusCmd) (s : State) : (State.emitCmd c s).ud = s.ud := rfl
@[simp] theorem State.emitCmd_con (c : BusCmd) (s : State) : (State.emitCmd c s).con = s.con := rfl
@[simp] theorem State.emitCmd_xptr (c : BusCmd) (s : State) : (State.emitCmd c s).xptr = s.xptr := rfl
@[simp] theorem State.emitCmd_xcnt (c : BusCmd) (s : State) : (State.emitCmd c s).xcnt = s.xcnt := rfl
@[simp] theorem State.emitCmd_xmask (c : BusCmd) (s : State) : (State.emitCmd c s).xmask = s.xmask := rfl
@[simp] theorem State.emitCmd_xclr (c : BusCmd) (s : State) : (State.emitCmd c s).xclr = s.xclr := rfl
@[simp] theorem State.emitCmd_xd (c : BusCmd) (s : State) : (State.emitCmd c s).xd = s.xd := rfl
@[simp] theorem State.emitCmd_dord (c : BusCmd) (s : State) : (State.emitCmd c s).dord = s.dord := rfl
@[simp] theorem State.emitCmd_dc (c : BusCmd) (s : State) : (State.emitCmd c s).dc = true := rfl
@[simp] theorem State.emitCmd_fb (c : BusCmd) (s : State) : (State.emitCmd c s).fb = s.fb := rfl
@[simp] theorem State.emitCmd_log (c : BusCmd) (s : State) : (State.emitCmd c s).log = .cmd c :: s.log := rfl
@[simp] theorem State.emitCmd_started (c : BusCmd) (s : State) : (State.emitCmd c s).started = s.started := rfl
@[simp] theorem State.emitCmd_err (c : BusCmd) (s : State) : (State.emitCmd c s).err = s.err := rfl
@[simp] theorem State.emitCmd_ret (c : BusCmd) (s : State) : (State.emitCmd c s).ret = s.ret := rfl
@[simp] theorem State.emitCmd_ctl (c : BusCmd) (s : State) : (State.emitCmd c s).ctl = s.ctl := rfl
@[simp] theorem State.emitCmd_hostActs (c : BusCmd) (s : State) : (State.emitCmd c s).hostActs = s.hostActs := rfl
@[simp] theorem State.emitCmd_mode (c : BusCmd) (s : State) : (State.emitCmd c s).mode = s.mode := rfl
@[simp] theorem State.emitCmd_sync (c : BusCmd) (s : State) : (State.emitCmd c s).sync = s.sync := rfl

/-! ### `State.emitData` -/

@[simp] theorem State.emitData_cfg (v : Byte) (s : State) : (State.emitData v s).cfg = s.cfg := rfl
@[simp] theorem State.emitData_par (v : Byte) (s : State) : (State.emitData v s).par = s.par := rfl
@[simp] theorem State.emitData_urom (v : Byte) (s : State) : (State.emitData v s).urom = s.urom := rfl
@[simp] theorem State.emitData_sch (v : Byte) (s : State) : (State.emitData v s).sch = s.sch := rfl
@[simp] theorem State.emitData_plane (v : Byte) (s : State) : (State.emitData v s).plane = s.plane := rfl
@[simp] theorem State.emitData_xphase (v : Byte) (s : State) : (State.emitData v s).xphase = s.xphase := rfl
@[simp] theorem State.emitData_upc (v : Byte) (s : State) : (State.emitData v s).upc = s.upc := rfl
@[simp] theorem State.emitData_clrin (v : Byte) (s : State) : (State.emitData v s).clrin = s.clrin := rfl
@[simp] theorem State.emitData_ucnt (v : Byte) (s : State) : (State.emitData v s).ucnt = s.ucnt := rfl
@[simp] theorem State.emitData_un (v : Byte) (s : State) : (State.emitData v s).un = s.un := rfl
@[simp] theorem State.emitData_ud (v : Byte) (s : State) : (State.emitData v s).ud = s.ud := rfl
@[simp] theorem State.emitData_con (v : Byte) (s : State) : (State.emitData v s).con = s.con := rfl
@[simp] theorem State.emitData_xptr (v : Byte) (s : State) : (State.emitData v s).xptr = s.xptr := rfl
@[simp] theorem State.emitData_xcnt (v : Byte) (s : State) : (State.emitData v s).xcnt = s.xcnt := rfl
@[simp] theorem State.emitData_xmask (v : Byte) (s : State) : (State.emitData v s).xmask = s.xmask := rfl
@[simp] theorem State.emitData_xclr (v : Byte) (s : State) : (State.emitData v s).xclr = s.xclr := rfl
@[simp] theorem State.emitData_xd (v : Byte) (s : State) : (State.emitData v s).xd = s.xd := rfl
@[simp] theorem State.emitData_dord (v : Byte) (s : State) : (State.emitData v s).dord = s.dord := rfl
@[simp] theorem State.emitData_dc (v : Byte) (s : State) : (State.emitData v s).dc = s.dc := rfl
@[simp] theorem State.emitData_fb (v : Byte) (s : State) : (State.emitData v s).fb = s.fb := rfl
@[simp] theorem State.emitData_log (v : Byte) (s : State) : (State.emitData v s).log = .data v s.dord :: s.log := rfl
@[simp] theorem State.emitData_started (v : Byte) (s : State) : (State.emitData v s).started = s.started := rfl
@[simp] theorem State.emitData_err (v : Byte) (s : State) : (State.emitData v s).err = s.err := rfl
@[simp] theorem State.emitData_ret (v : Byte) (s : State) : (State.emitData v s).ret = s.ret := rfl
@[simp] theorem State.emitData_ctl (v : Byte) (s : State) : (State.emitData v s).ctl = s.ctl := rfl
@[simp] theorem State.emitData_hostActs (v : Byte) (s : State) : (State.emitData v s).hostActs = s.hostActs := rfl
@[simp] theorem State.emitData_mode (v : Byte) (s : State) : (State.emitData v s).mode = s.mode := rfl
@[simp] theorem State.emitData_sync (v : Byte) (s : State) : (State.emitData v s).sync = s.sync := rfl

/-! ### `State.raiseFault` -/

@[simp] theorem State.raiseFault_cfg (code : BitVec 4) (s : State) : (State.raiseFault code s).cfg = s.cfg := rfl
@[simp] theorem State.raiseFault_par (code : BitVec 4) (s : State) : (State.raiseFault code s).par = s.par := rfl
@[simp] theorem State.raiseFault_urom (code : BitVec 4) (s : State) : (State.raiseFault code s).urom = s.urom := rfl
@[simp] theorem State.raiseFault_sch (code : BitVec 4) (s : State) : (State.raiseFault code s).sch = s.sch := rfl
@[simp] theorem State.raiseFault_plane (code : BitVec 4) (s : State) : (State.raiseFault code s).plane = s.plane := rfl
@[simp] theorem State.raiseFault_xphase (code : BitVec 4) (s : State) : (State.raiseFault code s).xphase = s.xphase := rfl
@[simp] theorem State.raiseFault_upc (code : BitVec 4) (s : State) : (State.raiseFault code s).upc = s.upc := rfl
@[simp] theorem State.raiseFault_clrin (code : BitVec 4) (s : State) : (State.raiseFault code s).clrin = s.clrin := rfl
@[simp] theorem State.raiseFault_ucnt (code : BitVec 4) (s : State) : (State.raiseFault code s).ucnt = s.ucnt := rfl
@[simp] theorem State.raiseFault_un (code : BitVec 4) (s : State) : (State.raiseFault code s).un = s.un := rfl
@[simp] theorem State.raiseFault_ud (code : BitVec 4) (s : State) : (State.raiseFault code s).ud = s.ud := rfl
@[simp] theorem State.raiseFault_con (code : BitVec 4) (s : State) : (State.raiseFault code s).con = s.con := rfl
@[simp] theorem State.raiseFault_xptr (code : BitVec 4) (s : State) : (State.raiseFault code s).xptr = s.xptr := rfl
@[simp] theorem State.raiseFault_xcnt (code : BitVec 4) (s : State) : (State.raiseFault code s).xcnt = s.xcnt := rfl
@[simp] theorem State.raiseFault_xmask (code : BitVec 4) (s : State) : (State.raiseFault code s).xmask = s.xmask := rfl
@[simp] theorem State.raiseFault_xclr (code : BitVec 4) (s : State) : (State.raiseFault code s).xclr = s.xclr := rfl
@[simp] theorem State.raiseFault_xd (code : BitVec 4) (s : State) : (State.raiseFault code s).xd = s.xd := rfl
@[simp] theorem State.raiseFault_dord (code : BitVec 4) (s : State) : (State.raiseFault code s).dord = s.dord := rfl
@[simp] theorem State.raiseFault_dc (code : BitVec 4) (s : State) : (State.raiseFault code s).dc = s.dc := rfl
@[simp] theorem State.raiseFault_fb (code : BitVec 4) (s : State) : (State.raiseFault code s).fb = s.fb := rfl
@[simp] theorem State.raiseFault_log (code : BitVec 4) (s : State) : (State.raiseFault code s).log = s.log := rfl
@[simp] theorem State.raiseFault_started (code : BitVec 4) (s : State) : (State.raiseFault code s).started = s.started := rfl
@[simp] theorem State.raiseFault_err (code : BitVec 4) (s : State) : (State.raiseFault code s).err = if s.err = 0 then code else s.err := rfl
@[simp] theorem State.raiseFault_ret (code : BitVec 4) (s : State) : (State.raiseFault code s).ret = s.ret := rfl
@[simp] theorem State.raiseFault_ctl (code : BitVec 4) (s : State) : (State.raiseFault code s).ctl = s.ctl.endStep := rfl
@[simp] theorem State.raiseFault_hostActs (code : BitVec 4) (s : State) : (State.raiseFault code s).hostActs = s.hostActs := rfl
@[simp] theorem State.raiseFault_mode (code : BitVec 4) (s : State) : (State.raiseFault code s).mode = s.mode := rfl
@[simp] theorem State.raiseFault_sync (code : BitVec 4) (s : State) : (State.raiseFault code s).sync = s.sync := rfl

/-! ### `State.setGie` -/

@[simp] theorem State.setGie_cfg (e : Bool) (s : State) : (State.setGie e s).cfg = s.cfg := rfl
@[simp] theorem State.setGie_par (e : Bool) (s : State) : (State.setGie e s).par = s.par := rfl
@[simp] theorem State.setGie_urom (e : Bool) (s : State) : (State.setGie e s).urom = s.urom := rfl
@[simp] theorem State.setGie_sch (e : Bool) (s : State) : (State.setGie e s).sch = { s.sch with gie := e } := rfl
@[simp] theorem State.setGie_plane (e : Bool) (s : State) : (State.setGie e s).plane = s.plane := rfl
@[simp] theorem State.setGie_xphase (e : Bool) (s : State) : (State.setGie e s).xphase = s.xphase := rfl
@[simp] theorem State.setGie_upc (e : Bool) (s : State) : (State.setGie e s).upc = s.upc := rfl
@[simp] theorem State.setGie_clrin (e : Bool) (s : State) : (State.setGie e s).clrin = s.clrin := rfl
@[simp] theorem State.setGie_ucnt (e : Bool) (s : State) : (State.setGie e s).ucnt = s.ucnt := rfl
@[simp] theorem State.setGie_un (e : Bool) (s : State) : (State.setGie e s).un = s.un := rfl
@[simp] theorem State.setGie_ud (e : Bool) (s : State) : (State.setGie e s).ud = s.ud := rfl
@[simp] theorem State.setGie_con (e : Bool) (s : State) : (State.setGie e s).con = s.con := rfl
@[simp] theorem State.setGie_xptr (e : Bool) (s : State) : (State.setGie e s).xptr = s.xptr := rfl
@[simp] theorem State.setGie_xcnt (e : Bool) (s : State) : (State.setGie e s).xcnt = s.xcnt := rfl
@[simp] theorem State.setGie_xmask (e : Bool) (s : State) : (State.setGie e s).xmask = s.xmask := rfl
@[simp] theorem State.setGie_xclr (e : Bool) (s : State) : (State.setGie e s).xclr = s.xclr := rfl
@[simp] theorem State.setGie_xd (e : Bool) (s : State) : (State.setGie e s).xd = s.xd := rfl
@[simp] theorem State.setGie_dord (e : Bool) (s : State) : (State.setGie e s).dord = s.dord := rfl
@[simp] theorem State.setGie_dc (e : Bool) (s : State) : (State.setGie e s).dc = s.dc := rfl
@[simp] theorem State.setGie_fb (e : Bool) (s : State) : (State.setGie e s).fb = s.fb := rfl
@[simp] theorem State.setGie_log (e : Bool) (s : State) : (State.setGie e s).log = s.log := rfl
@[simp] theorem State.setGie_started (e : Bool) (s : State) : (State.setGie e s).started = s.started := rfl
@[simp] theorem State.setGie_err (e : Bool) (s : State) : (State.setGie e s).err = s.err := rfl
@[simp] theorem State.setGie_ret (e : Bool) (s : State) : (State.setGie e s).ret = s.ret := rfl
@[simp] theorem State.setGie_ctl (e : Bool) (s : State) : (State.setGie e s).ctl = s.ctl := rfl
@[simp] theorem State.setGie_hostActs (e : Bool) (s : State) : (State.setGie e s).hostActs = s.hostActs := rfl
@[simp] theorem State.setGie_mode (e : Bool) (s : State) : (State.setGie e s).mode = s.mode := rfl
@[simp] theorem State.setGie_sync (e : Bool) (s : State) : (State.setGie e s).sync = s.sync := rfl

/-! ### `State.boundary` -/

@[simp] theorem State.boundary_cfg (s : State) : (s.boundary).cfg = s.cfg := rfl
@[simp] theorem State.boundary_par (s : State) : (s.boundary).par = s.par := rfl
@[simp] theorem State.boundary_urom (s : State) : (s.boundary).urom = s.urom := rfl
theorem State.boundary_sch (s : State) : (s.boundary).sch = s.sch.turn s.sync s.par := rfl
@[simp] theorem State.boundary_plane (s : State) : (s.boundary).plane = s.plane := rfl
@[simp] theorem State.boundary_xphase (s : State) : (s.boundary).xphase = s.xphase := rfl
@[simp] theorem State.boundary_upc (s : State) : (s.boundary).upc = s.upc := rfl
@[simp] theorem State.boundary_clrin (s : State) : (s.boundary).clrin = s.clrin := rfl
@[simp] theorem State.boundary_ucnt (s : State) : (s.boundary).ucnt = s.ucnt := rfl
@[simp] theorem State.boundary_un (s : State) : (s.boundary).un = s.un := rfl
@[simp] theorem State.boundary_ud (s : State) : (s.boundary).ud = s.ud := rfl
@[simp] theorem State.boundary_con (s : State) : (s.boundary).con = s.con := rfl
@[simp] theorem State.boundary_xptr (s : State) : (s.boundary).xptr = s.xptr := rfl
@[simp] theorem State.boundary_xcnt (s : State) : (s.boundary).xcnt = s.xcnt := rfl
@[simp] theorem State.boundary_xmask (s : State) : (s.boundary).xmask = s.xmask := rfl
@[simp] theorem State.boundary_xclr (s : State) : (s.boundary).xclr = s.xclr := rfl
@[simp] theorem State.boundary_xd (s : State) : (s.boundary).xd = s.xd := rfl
@[simp] theorem State.boundary_dord (s : State) : (s.boundary).dord = s.dord := rfl
@[simp] theorem State.boundary_dc (s : State) : (s.boundary).dc = s.dc := rfl
@[simp] theorem State.boundary_fb (s : State) : (s.boundary).fb = s.fb := rfl
@[simp] theorem State.boundary_log (s : State) : (s.boundary).log = s.log := rfl
@[simp] theorem State.boundary_started (s : State) : (s.boundary).started = s.started := rfl
@[simp] theorem State.boundary_err (s : State) : (s.boundary).err = s.err := rfl
@[simp] theorem State.boundary_ret (s : State) : (s.boundary).ret = s.ret := rfl
@[simp] theorem State.boundary_ctl (s : State) : (s.boundary).ctl = s.ctl := rfl
@[simp] theorem State.boundary_hostActs (s : State) : (s.boundary).hostActs = s.hostActs := rfl
@[simp] theorem State.boundary_mode (s : State) : (s.boundary).mode = s.mode := rfl
@[simp] theorem State.boundary_sync (s : State) : (s.boundary).sync = s.sync := rfl

/-! ### `BUS` -/

@[simp] theorem State.bus_emitCmd (c : BusCmd) (s : State) : (State.emitCmd c s).bus = s.bus ++ [.cmd c] := by
  simp [State.bus]
@[simp] theorem State.bus_emitData (v : Byte) (s : State) : (State.emitData v s).bus = s.bus ++ [.data v s.dord] := by
  simp [State.bus]
@[simp] theorem State.bus_setRet (v : Byte) (s : State) : (State.setRet v s).bus = s.bus := rfl
@[simp] theorem State.bus_setSch (k : Sched) (s : State) : (State.setSch k s).bus = s.bus := rfl
@[simp] theorem State.bus_setCtl (c : Ctl) (s : State) : (State.setCtl c s).bus = s.bus := rfl
@[simp] theorem State.bus_fbWrite (a : Nat) (v : Byte) (s : State) : (State.fbWrite a v s).bus = s.bus := rfl
@[simp] theorem State.bus_raiseFault (code : BitVec 4) (s : State) : (State.raiseFault code s).bus = s.bus := rfl
@[simp] theorem State.bus_setGie (e : Bool) (s : State) : (State.setGie e s).bus = s.bus := rfl
@[simp] theorem State.bus_boundary (s : State) : (s.boundary).bus = s.bus := rfl

end Sys2Proof.Machine
end

