-- ==== Sys2Proof/Laws/Cycle.lean ====
section
/-! SUPPORT. What one cycle of the machine can do, said once per position of the host. -/

namespace Sys2Proof.Machine

variable {run : Instr → State → Host.Outcome State Fault Refusal} {s : State}

theorem step_eq (s : State) : step s = hostAction exec s.boundary := rfl

theorem hostAction_halted (h : s.sch.slp = true) : hostAction run s = .next s := by
  simp only [hostAction, h, if_true]
theorem hostAction_idle (h : s.sch.slp = false) (hc : s.ctl = .idle) : hostAction run s = hostPort run s := by
  simp only [hostAction, h, Bool.false_eq_true, if_false, hc]
theorem hostAction_asleep {clr : Bool} (h : s.sch.slp = false) (hc : s.ctl = .asleep clr) :
    hostAction run s = .next (waitWake clr s) := by
  simp only [hostAction, h, Bool.false_eq_true, if_false, hc]
theorem hostAction_uops {c : Caller} (h : s.sch.slp = false) (hc : s.ctl = .uops c) :
    hostAction run s = fetchUop run s := by
  simp only [hostAction, h, Bool.false_eq_true, if_false, hc]
theorem hostAction_stepDone {c : Caller} (h : s.sch.slp = false) (hc : s.ctl = .stepDone c) :
    hostAction run s = .next (stepReturn c s) := by
  simp only [hostAction, h, Bool.false_eq_true, if_false, hc]

/-! ### The port and the fetch -/

/-- An idle host waits, changes its own mask, or presents a word that is refused whole, executed, or refused by decode. -/
theorem hostPort_cases (s : State) :
    (s.hostActs = [] ∧ hostPort run s = .next s) ∨
    (∃ e rest, s.hostActs = .setGie e :: rest ∧ hostPort run s = .next (State.setGie e { s with hostActs := rest })) ∨
    (∃ w rest, s.hostActs = .word w :: rest ∧ s.err = 6 ∧ hostPort run s = .next { s with hostActs := rest }) ∨
    (∃ w rest i, s.hostActs = .word w :: rest ∧ s.err ≠ 6 ∧ decode .host w = .ok i ∧
      hostPort run s = run i { s with hostActs := rest }) ∨
    (∃ w rest code, s.hostActs = .word w :: rest ∧ s.err ≠ 6 ∧ (∀ i, decode .host w ≠ .ok i) ∧
      (code = 1 ∨ code = 2) ∧ (decode .host w).faultCode .host = code ∧
      hostPort run s = .next (State.raiseFault code { s with hostActs := rest })) := by
  unfold hostPort
  split
  · rename_i h
    exact .inl ⟨h, rfl⟩
  · rename_i w rest h
    by_cases he : s.err = 6
    · refine .inr (.inr (.inl ⟨w, rest, h, he, ?_⟩))
      simp [presentWord, State.disabled, he]
    · have hd : State.disabled { s with hostActs := rest } = false := by simpa [State.disabled] using he
      cases hw : decode .host w with
      | ok i => exact .inr (.inr (.inr (.inl ⟨w, rest, i, h, he, hw, by simp [presentWord, hd, hw]⟩)))
      | illegalOpcode =>
        exact .inr (.inr (.inr (.inr ⟨w, rest, 1, h, he, by simp [hw], .inl rfl, by simp [hw, Decoded.faultCode],
          by simp [presentWord, hd, hw, Decoded.faultCode]⟩)))
      | wrongPort =>
        exact .inr (.inr (.inr (.inr ⟨w, rest, 1, h, he, by simp [hw], .inl rfl, by simp [hw, Decoded.faultCode],
          by simp [presentWord, hd, hw, Decoded.faultCode]⟩)))
      | reservedField =>
        exact .inr (.inr (.inr (.inr ⟨w, rest, 2, h, he, by simp [hw], .inr rfl, by simp [hw, Decoded.faultCode],
          by simp [presentWord, hd, hw, Decoded.faultCode]⟩)))
  · rename_i e rest h
    exact .inr (.inl ⟨e, rest, h, rfl⟩)

/-- A fetch finds no word, a micro-op, or a word that raises `Fault(5)`. -/
theorem fetchUop_cases (s : State) :
    (s.urom[(uromAddr s.xphase s.upc).toNat]? = none ∧ fetchUop run s = .fault .uromAddressAbsent) ∨
    (∃ w i, s.urom[(uromAddr s.xphase s.upc).toNat]? = some w ∧ decode .urom w = .ok i ∧
      fetchUop run s = run i { s with upc := s.upc + 1 }) ∨
    (∃ w, s.urom[(uromAddr s.xphase s.upc).toNat]? = some w ∧ (∀ i, decode .urom w ≠ .ok i) ∧
      fetchUop run s = .next (State.raiseFault 5 { s with upc := s.upc + 1 })) := by
  unfold fetchUop
  split
  · rename_i h
    exact .inl ⟨h, rfl⟩
  · rename_i w h
    cases hw : decode .urom w with
    | ok i => exact .inr (.inl ⟨w, i, h, hw, rfl⟩)
    | illegalOpcode => exact .inr (.inr ⟨w, h, by simp [hw], rfl⟩)
    | wrongPort => exact .inr (.inr ⟨w, h, by simp [hw], rfl⟩)
    | reservedField => exact .inr (.inr ⟨w, h, by simp [hw], rfl⟩)

/-- The operation a decoded word is has the class of the port it was presented at (R103). -/
theorem decode_ok_port {port : Port} {w : Word24} {i : Instr} (h : decode port w = .ok i) :
    ∃ row, rowOf w = some row ∧ row.port = port ∧ w &&& row.mbz = 0 ∧ i = row.operands w := by
  unfold decode at h
  split at h
  · cases h
  · rename_i row hr
    split at h
    · cases h
    · split at h
      · cases h
      · rename_i h1 h2
        exact ⟨row, hr, by simpa using h1, by simpa using h2, by cases h; rfl⟩

/-! ### The sequences of HostSync -/

/-- `STEP` up to its first fetch, entered masked (R190): what it writes, and that only the timer's own two registers move
meanwhile. -/
theorem stepBegin_masked (c : Caller) (clr : Bool) (h : s.sch.gie = false) :
    ∃ tcnt tif turns, stepBegin c clr s = { s with
      ctl := .uops c, upc := 0, clrin := clr, xphase := if isThreePhase s.sync then s.sch.phase else 1
      sch := { s.sch with nd := false, gie := true, tcnt := tcnt, tif := tif, turns := turns } } := by
  obtain ⟨tcnt, tif, turns, hk⟩ :=
    Sched.turn_untaken (sync := s.sync) (p := s.par) (k := { s.sch with nd := false }) (.inl h)
  refine ⟨tcnt, tif, turns, ?_⟩
  have hb : (stepLatch clr s).boundary = State.setSch (Sched.turn s.sync s.par { s.sch with nd := false })
    (stepLatch clr s) := rfl
  unfold stepBegin
  rw [hb, hk]
  rfl

/-- A boundary with interrupts masked (R254). -/
theorem boundary_masked (h : s.sch.gie = false) :
    ∃ tcnt tif turns, s.boundary = { s with sch := { s.sch with tcnt := tcnt, tif := tif, turns := turns } } := by
  obtain ⟨tcnt, tif, turns, hk⟩ := Sched.turn_untaken (sync := s.sync) (p := s.par) (k := s.sch) (.inl h)
  exact ⟨tcnt, tif, turns, by unfold State.boundary; rw [hk]; rfl⟩

/-- A boundary with the timer stopped and nothing pending (R280). -/
theorem boundary_stopped (hr : s.sch.trun = false) (hf : s.sch.tif = false) :
    s.boundary = { s with sch := { s.sch with turns := s.sch.turns.drop 1 } } := by
  unfold State.boundary
  rw [Sched.turn_stopped hr hf]
  rfl

/-- `T2` (R221): the commands of `START_CMDS`, in order, with `CON` as it stands, and the port in data mode after them. -/
theorem startEmit_eq (s : State) : startEmit s = { s with
    log := ((startCmds s.par).map (fun c => BusEvent.cmd (startCmd s.con c))).reverse ++ s.log
    dc := s.dc || !(startCmds s.par).isEmpty } := by
  have emits : ∀ (cmds : List StartCmd) (t : State), t.con = s.con →
      cmds.foldl (fun s c => s.emitCmd (startCmd s.con c)) t = { t with
        log := (cmds.map (fun c => BusEvent.cmd (startCmd s.con c))).reverse ++ t.log
        dc := t.dc || !cmds.isEmpty } := by
    intro cmds
    induction cmds with
    | nil => intro t _; simp
    | cons c cmds ih =>
      intro t ht
      rw [List.foldl_cons, ih _ (by simpa [State.emitCmd] using ht)]
      simp [State.emitCmd, ht]
  exact emits _ s rfl

end Sys2Proof.Machine
end

