-- ==== Sys2Proof/Laws/Decode.lean ====
section
/-! SUPPORT. The fields of the words the encoder builds (rule R101), and masking such a word field by field. -/

namespace Sys2Proof

theorem hab_toNat (op a b : Byte) : (hab op a b).toNat = 65536 * op.toNat + 256 * a.toNat + b.toNat := by
  have h : (hab op a b).toNat = ((op.toNat <<< 8 ||| a.toNat) <<< 8 ||| b.toNat) := rfl
  rw [h, ← Nat.shiftLeft_add_eq_or_of_lt b.isLt, ← Nat.shiftLeft_add_eq_or_of_lt a.isLt]
  simp only [Nat.shiftLeft_eq]
  omega

theorem hm_toNat (op6 : BitVec 6) (addr : BitVec 10) (data : Byte) :
    (hm op6 addr data).toNat = 262144 * op6.toNat + 256 * addr.toNat + data.toNat := by
  have h : (hm op6 addr data).toNat = ((op6.toNat <<< 10 ||| addr.toNat) <<< 8 ||| data.toNat) := rfl
  rw [h, ← Nat.shiftLeft_add_eq_or_of_lt data.isLt, ← Nat.shiftLeft_add_eq_or_of_lt addr.isLt]
  simp only [Nat.shiftLeft_eq]
  omega

/-! ### Fields as numbers -/

theorem opField_toNat (w : Word24) : (opField w).toNat = w.toNat / 65536 := by
  have := w.isLt
  simp [opField, Nat.shiftRight_eq_div_pow]
  omega
theorem aField_toNat (w : Word24) : (aField w).toNat = w.toNat / 256 % 256 := by
  simp [aField, Nat.shiftRight_eq_div_pow]
theorem bField_toNat (w : Word24) : (bField w).toNat = w.toNat % 256 := by
  simp [bField]
theorem op6Field_toNat (w : Word24) : (op6Field w).toNat = w.toNat / 262144 := by
  have := w.isLt
  simp [op6Field, Nat.shiftRight_eq_div_pow]
  omega
theorem addrField_toNat (w : Word24) : (addrField w).toNat = w.toNat / 256 % 1024 := by
  simp [addrField, Nat.shiftRight_eq_div_pow]

/-! ### Fields of encoded words -/

@[simp] theorem opField_hab (op a b : Byte) : opField (hab op a b) = op := by
  apply BitVec.eq_of_toNat_eq
  rw [opField_toNat, hab_toNat]
  have := a.isLt; have := b.isLt; omega
@[simp] theorem aField_hab (op a b : Byte) : aField (hab op a b) = a := by
  apply BitVec.eq_of_toNat_eq
  rw [aField_toNat, hab_toNat]
  have := a.isLt; have := b.isLt; omega
@[simp] theorem bField_hab (op a b : Byte) : bField (hab op a b) = b := by
  apply BitVec.eq_of_toNat_eq
  rw [bField_toNat, hab_toNat]
  have := b.isLt; omega
@[simp] theorem op6Field_hm (op6 : BitVec 6) (addr : BitVec 10) (data : Byte) : op6Field (hm op6 addr data) = op6 := by
  apply BitVec.eq_of_toNat_eq
  rw [op6Field_toNat, hm_toNat]
  have := addr.isLt; have := data.isLt; omega
@[simp] theorem addrField_hm (op6 : BitVec 6) (addr : BitVec 10) (data : Byte) : addrField (hm op6 addr data) = addr := by
  apply BitVec.eq_of_toNat_eq
  rw [addrField_toNat, hm_toNat]
  have := addr.isLt; have := data.isLt; omega
@[simp] theorem bField_hm (op6 : BitVec 6) (addr : BitVec 10) (data : Byte) : bField (hm op6 addr data) = data := by
  apply BitVec.eq_of_toNat_eq
  rw [bField_toNat, hm_toNat]
  have := data.isLt; omega

/-- A word is the word of its own fields. -/
theorem hab_fields (w : Word24) : hab (opField w) (aField w) (bField w) = w := by
  apply BitVec.eq_of_toNat_eq
  rw [hab_toNat, opField_toNat, aField_toNat, bField_toNat]
  have := w.isLt; omega
theorem hm_fields (w : Word24) : hm (op6Field w) (addrField w) (bField w) = w := by
  apply BitVec.eq_of_toNat_eq
  rw [hm_toNat, op6Field_toNat, addrField_toNat, bField_toNat]
  have := w.isLt; omega

/-! ### The format bit `w[23]` -/

theorem formatBit_toNat (w : Word24) : w.getLsbD 23 = decide (8388608 ≤ w.toNat) := by
  have hw := w.isLt
  rw [BitVec.getLsbD, Nat.testBit_eq_decide_div_mod_eq]
  congr 1
  simp only [eq_iff_iff]
  omega
theorem formatBit_hab (op a b : Byte) : (hab op a b).getLsbD 23 = decide (128 ≤ op.toNat) := by
  rw [formatBit_toNat, hab_toNat]
  have := a.isLt; have := b.isLt
  congr 1; simp only [eq_iff_iff]; omega
theorem formatBit_hm (op6 : BitVec 6) (addr : BitVec 10) (data : Byte) :
    (hm op6 addr data).getLsbD 23 = decide (32 ≤ op6.toNat) := by
  rw [formatBit_toNat, hm_toNat]
  have := addr.isLt; have := data.isLt
  congr 1; simp only [eq_iff_iff]; omega

/-! ### The row of an encoded word -/

theorem rowOf_hab (op a b : Byte) (h : op.toNat < 128) : rowOf (hab op a b) = rowOfOpcode op := by
  rw [rowOf, formatBit_hab, decide_eq_false (by omega), if_neg (by simp), opField_hab]
theorem rowOf_hm (op6 : BitVec 6) (addr : BitVec 10) (data : Byte) (h : 32 ≤ op6.toNat) :
    rowOf (hm op6 addr data) = rowOfOp6 op6 := by
  rw [rowOf, formatBit_hm, decide_eq_true h, if_pos rfl, op6Field_hm]

/-! ### Masking field by field -/

theorem hab_and (op a b op' a' b' : Byte) :
    hab op a b &&& hab op' a' b' = hab (op &&& op') (a &&& a') (b &&& b') := by
  show (op ++ a ++ b : BitVec (8 + 8 + 8)) &&& (op' ++ a' ++ b') = (op &&& op') ++ (a &&& a') ++ (b &&& b')
  rw [BitVec.and_append, BitVec.and_append]
theorem hm_and (op6 op6' : BitVec 6) (addr addr' : BitVec 10) (data data' : Byte) :
    hm op6 addr data &&& hm op6' addr' data' = hm (op6 &&& op6') (addr &&& addr') (data &&& data') := by
  show (op6 ++ addr ++ data : BitVec (6 + 10 + 8)) &&& (op6' ++ addr' ++ data') =
    (op6 &&& op6') ++ (addr &&& addr') ++ (data &&& data')
  rw [BitVec.and_append, BitVec.and_append]

/-- A word of format `HAB` has no bit of the mask `{0, m, n}` when its operand bytes have none. -/
theorem hab_clear {op a b m n : Byte} (ha : a &&& m = 0) (hb : b &&& n = 0) : hab op a b &&& hab 0 m n = 0 := by
  rw [hab_and, ha, hb, show op &&& 0 = 0 from BitVec.and_zero]
  rfl

end Sys2Proof
end

