-- ==== Sys2Proof/Laws/Memory.lean ====
section
/-! SUPPORT. The laws of the frame buffer: read after write, and that a write keeps the canonical form. -/

namespace Sys2Proof.Machine

@[simp] theorem Memory.read_nil (a : Nat) : Memory.read [] a = 0 := rfl

theorem Memory.read_consCell_same (a : Nat) (v : Byte) (rest : Memory) (h : Memory.read rest a = 0) :
    (Memory.consCell a v rest).read a = v := by
  unfold Memory.consCell
  split
  · simp_all [unlistedByte]
  · simp [Memory.read]

theorem Memory.read_consCell_other {a b : Nat} (h : a ≠ b) (v : Byte) (rest : Memory) :
    (Memory.consCell a v rest).read b = rest.read b := by
  unfold Memory.consCell
  split
  · rfl
  · simp [Memory.read, h]

/-- Below the lowest listed address everything reads as an unlisted byte. -/
theorem Memory.read_below {lo : Nat} {m : Memory} (h : Memory.wfFrom lo m = true) {a : Nat} (ha : a < lo) :
    m.read a = 0 := by
  induction m generalizing lo with
  | nil => rfl
  | cons c rest ih =>
    obtain ⟨k, v⟩ := c
    simp only [Memory.wfFrom, Bool.and_eq_true, decide_eq_true_eq] at h
    obtain ⟨⟨⟨hk, -⟩, -⟩, hr⟩ := h
    simp only [Memory.read, if_neg (show k ≠ a by omega)]
    exact ih hr (by omega)

theorem Memory.wfFrom_mono {lo lo' : Nat} {m : Memory} (hle : lo' ≤ lo) (h : Memory.wfFrom lo m = true) :
    Memory.wfFrom lo' m = true := by
  cases m with
  | nil => rfl
  | cons c rest =>
    obtain ⟨k, v⟩ := c
    simp only [Memory.wfFrom, Bool.and_eq_true, decide_eq_true_eq] at h ⊢
    exact ⟨⟨⟨by omega, h.1.1.2⟩, h.1.2⟩, h.2⟩

theorem Memory.wfFrom_consCell {lo a : Nat} {v : Byte} {rest : Memory} (hlo : lo ≤ a) (ha : a < fbBytes)
    (h : Memory.wfFrom (a + 1) rest = true) : Memory.wfFrom lo (Memory.consCell a v rest) = true := by
  unfold Memory.consCell
  split
  · exact Memory.wfFrom_mono (by omega) h
  · rename_i hv
    simp [Memory.wfFrom, hlo, ha, h, hv]

/-- A write inside the frame buffer keeps the canonical form. -/
theorem Memory.wfFrom_write {lo : Nat} {m : Memory} (h : Memory.wfFrom lo m = true) {a : Nat} (hlo : lo ≤ a)
    (ha : a < fbBytes) (v : Byte) : Memory.wfFrom lo (m.write a v) = true := by
  induction m generalizing lo with
  | nil => exact Memory.wfFrom_consCell hlo ha rfl
  | cons c rest ih =>
    obtain ⟨k, w⟩ := c
    simp only [Memory.wfFrom, Bool.and_eq_true, decide_eq_true_eq] at h
    obtain ⟨⟨⟨hk, hkb⟩, hw⟩, hr⟩ := h
    simp only [Memory.write]
    split
    · exact Memory.wfFrom_consCell hlo ha (by simp [Memory.wfFrom, hkb, hw, hr]; omega)
    · split
      · subst_vars
        exact Memory.wfFrom_consCell hlo ha hr
      · simp only [Memory.wfFrom, Bool.and_eq_true, decide_eq_true_eq]
        exact ⟨⟨⟨hk, hkb⟩, hw⟩, ih hr (by omega)⟩

theorem Memory.wf_write {m : Memory} (h : m.wf = true) {a : Nat} (ha : a < fbBytes) (v : Byte) :
    (m.write a v).wf = true := Memory.wfFrom_write h (Nat.zero_le a) ha v

theorem Memory.wf_nil : Memory.wf [] = true := rfl

/-- Read after write at another address, whatever the list's form. -/
theorem Memory.read_write_other {a b : Nat} (h : a ≠ b) (m : Memory) (v : Byte) : (m.write a v).read b = m.read b := by
  induction m with
  | nil => exact Memory.read_consCell_other h v []
  | cons c rest ih =>
    obtain ⟨k, w⟩ := c
    simp only [Memory.write]
    split
    · exact Memory.read_consCell_other h v _
    · split
      · subst_vars
        rw [Memory.read_consCell_other h]
        simp [Memory.read, h]
      · simp [Memory.read, ih]

theorem Memory.read_write_same_from {lo : Nat} {m : Memory} (h : Memory.wfFrom lo m = true) (a : Nat) (v : Byte) :
    (m.write a v).read a = v := by
  induction m generalizing lo with
  | nil => exact Memory.read_consCell_same a v [] rfl
  | cons c rest ih =>
    obtain ⟨k, w⟩ := c
    simp only [Memory.wfFrom, Bool.and_eq_true, decide_eq_true_eq] at h
    obtain ⟨⟨⟨hk, hkb⟩, hw⟩, hr⟩ := h
    simp only [Memory.write]
    split
    · apply Memory.read_consCell_same
      simp only [Memory.read, if_neg (show k ≠ a by omega)]
      exact Memory.read_below hr (by omega)
    · split
      · subst_vars
        exact Memory.read_consCell_same _ v rest (Memory.read_below hr (by omega))
      · simp only [Memory.read, if_neg (show k ≠ a by omega)]
        exact ih hr

/-- Read after write at the same address, for a frame buffer in canonical form. -/
theorem Memory.read_write_same {m : Memory} (h : m.wf = true) (a : Nat) (v : Byte) : (m.write a v).read a = v :=
  Memory.read_write_same_from h a v

end Sys2Proof.Machine
end

