-- ==== Sys2Proof/Laws/Transfer.lean ====
section
/-! SUPPORT. What a run of burst bytes does (R151, R154), said once, for both address orders. -/

namespace Sys2Proof.Machine

/-- The address of byte `i` counted from the pointer `ptr` (R151 `X2`). -/
def runAddr (order : XferOrder) (ptr i : Nat) : Nat :=
  match order with
  | .desc => ptr - 1 - i
  | .asc => ptr + i

/-- The pointer lies so that `n` more bytes stay inside the frame buffer. -/
def runFits (order : XferOrder) (ptr n : Nat) : Prop :=
  match order with
  | .desc => n ≤ ptr ∧ ptr ≤ 1024
  | .asc => ptr + n ≤ 1024

/-- One byte as one record update. -/
theorem xferByte_eq (s : State) :
    xferByte s =
      { s with
        xd := s.fb.read (xferAddr s).toNat
        log := .data (s.fb.read (xferAddr s).toNat &&& s.xmask) s.dord :: s.log
        fb := if s.xclr then s.fb.write (xferAddr s).toNat 0 else s.fb
        xptr := xferNextPtr s.par.xferOrder (xferAddr s)
        xcnt := s.xcnt - 1 } := by
  unfold xferByte
  cases s.xclr <;> simp [State.emitData, State.fbWrite, State.fbRead]

/-- The address of the next byte, as a number. -/
theorem xferAddr_toNat {s : State} {n : Nat} (h : runFits s.par.xferOrder s.xptr.toNat (n + 1)) :
    (xferAddr s).toNat = runAddr s.par.xferOrder s.xptr.toNat 0 := by
  unfold xferAddr runAddr
  unfold runFits at h
  cases ho : s.par.xferOrder <;> simp only [ho] at h ⊢
  · rw [BitVec.toNat_sub]
    have := s.xptr.isLt
    simp
    omega
  · rfl

/-- The pointer after one byte, as a number. -/
theorem xferByte_ptr {s : State} {n : Nat} (h : runFits s.par.xferOrder s.xptr.toNat (n + 1)) :
    (xferByte s).xptr.toNat = match s.par.xferOrder with
      | .desc => s.xptr.toNat - 1
      | .asc => s.xptr.toNat + 1 := by
  rw [xferByte_eq]
  show (xferNextPtr s.par.xferOrder (xferAddr s)).toNat = _
  have ha := xferAddr_toNat h
  unfold runAddr at ha
  unfold runFits at h
  cases ho : s.par.xferOrder <;> simp only [ho, xferNextPtr] at h ha ⊢
  · simpa using ha
  · rw [BitVec.toNat_add, ha]
    simp
    omega

/-- What `n` burst bytes leave unchanged, and what they do to the scheduler: only the turns are taken. -/
structure RunFrame (n : Nat) (s t : State) : Prop where
  cfg : t.cfg = s.cfg
  par : t.par = s.par
  urom : t.urom = s.urom
  plane : t.plane = s.plane
  xphase : t.xphase = s.xphase
  upc : t.upc = s.upc
  clrin : t.clrin = s.clrin
  ucnt : t.ucnt = s.ucnt
  un : t.un = s.un
  ud : t.ud = s.ud
  con : t.con = s.con
  xmask : t.xmask = s.xmask
  xclr : t.xclr = s.xclr
  dord : t.dord = s.dord
  dc : t.dc = s.dc
  started : t.started = s.started
  err : t.err = s.err
  ret : t.ret = s.ret
  ctl : t.ctl = s.ctl
  hostActs : t.hostActs = s.hostActs
  sch : t.sch = Safety.turnsTaken s.sync s.par n s.sch

theorem xferBytes_frame (n : Nat) (s : State) : RunFrame n s (xferBytes n s) := by
  induction n generalizing s with
  | zero => exact ⟨rfl, rfl, rfl, rfl, rfl, rfl, rfl, rfl, rfl, rfl, rfl, rfl, rfl, rfl, rfl, rfl, rfl, rfl, rfl, rfl, rfl⟩
  | succ n ih =>
    have h := ih (xferByte s.boundary)
    rw [xferByte_eq] at h
    simp only [xferBytes]
    rw [xferByte_eq]
    exact ⟨h.cfg, h.par, h.urom, h.plane, h.xphase, h.upc, h.clrin, h.ucnt, h.un, h.ud, h.con, h.xmask, h.xclr, h.dord,
      h.dc, h.started, h.err, h.ret, h.ctl, h.hostActs, h.sch⟩

/-- The data of a run of burst bytes: the events, the frame buffer, the pointer and the count. -/
theorem xferBytes_data (n : Nat) (s : State) (h : runFits s.par.xferOrder s.xptr.toNat n) :
    (xferBytes n s).log =
        ((List.range n).map (fun i => BusEvent.data (s.fb.read (runAddr s.par.xferOrder s.xptr.toNat i) &&& s.xmask)
          s.dord)).reverse ++ s.log ∧
      (xferBytes n s).fb =
        (if s.xclr then
          ((List.range n).map (runAddr s.par.xferOrder s.xptr.toNat)).foldl (fun m a => m.write a 0) s.fb
        else s.fb) ∧
      (xferBytes n s).xptr.toNat = (match s.par.xferOrder with
        | .desc => s.xptr.toNat - n
        | .asc => s.xptr.toNat + n) ∧
      (xferBytes n s).xcnt = s.xcnt - BitVec.ofNat 11 n ∧
      (n ≠ 0 → (xferBytes n s).xd = s.fb.read (runAddr s.par.xferOrder s.xptr.toNat (n - 1))) := by
  induction n generalizing s with
  | zero => cases ho : s.par.xferOrder <;> simp [xferBytes]
  | succ n ih =>
    have hb : runFits s.boundary.par.xferOrder s.boundary.xptr.toNat (n + 1) := h
    have hptr := xferByte_ptr hb
    have haddr := xferAddr_toNat hb
    have hpar : (xferByte s.boundary).par = s.par := by rw [xferByte_eq]; rfl
    have hfit : runFits (xferByte s.boundary).par.xferOrder (xferByte s.boundary).xptr.toNat n := by
      rw [hptr, hpar]
      unfold runFits at h ⊢
      cases ho : s.par.xferOrder <;> simp only [ho, State.boundary_par, State.boundary_xptr] at h ⊢ <;> omega
    have hshift : ∀ i, runAddr s.par.xferOrder (xferByte s.boundary).xptr.toNat i =
        runAddr s.par.xferOrder s.xptr.toNat (i + 1) := by
      intro i
      rw [hptr]
      unfold runAddr
      unfold runFits at h
      cases ho : s.par.xferOrder <;> simp only [ho, State.boundary_par, State.boundary_xptr] at h ⊢ <;> omega
    have hlog : (xferByte s.boundary).log =
        .data (s.fb.read (runAddr s.par.xferOrder s.xptr.toNat 0) &&& s.xmask) s.dord :: s.log := by
      rw [xferByte_eq]; simp only [haddr]; rfl
    have hfb : (xferByte s.boundary).fb =
        if s.xclr then s.fb.write (runAddr s.par.xferOrder s.xptr.toNat 0) 0 else s.fb := by
      rw [xferByte_eq]; simp only [haddr]; rfl
    have hxd : (xferByte s.boundary).xd = s.fb.read (runAddr s.par.xferOrder s.xptr.toNat 0) := by
      rw [xferByte_eq]; simp only [haddr]; rfl
    have hclr : (xferByte s.boundary).xclr = s.xclr := by rw [xferByte_eq]; rfl
    have hmask : (xferByte s.boundary).xmask = s.xmask := by rw [xferByte_eq]; rfl
    have hdord : (xferByte s.boundary).dord = s.dord := by rw [xferByte_eq]; rfl
    have hcnt : (xferByte s.boundary).xcnt = s.xcnt - 1 := by rw [xferByte_eq]; rfl
    -- the bytes still to come are read unchanged: they lie at other addresses than the one just cleared
    have hread : ∀ i, i < n → (xferByte s.boundary).fb.read (runAddr s.par.xferOrder s.xptr.toNat (i + 1)) =
        s.fb.read (runAddr s.par.xferOrder s.xptr.toNat (i + 1)) := by
      intro i hi
      rw [hfb]
      split
      · apply Memory.read_write_other
        unfold runAddr
        unfold runFits at h
        cases ho : s.par.xferOrder <;> simp only [ho] at h ⊢ <;> omega
      · rfl
    obtain ⟨h1, h2, h3, h4, h5⟩ := ih (xferByte s.boundary) hfit
    simp only [xferBytes]
    refine ⟨?_, ?_, ?_, ?_, ?_⟩
    · rw [h1, hlog, hpar, hmask, hdord, List.range_succ_eq_map, List.map_cons, List.reverse_cons, List.append_assoc,
        List.map_map, List.singleton_append]
      congr 2
      apply List.map_congr_left
      intro i hi
      simp only [Function.comp, hshift]
      rw [hread i (List.mem_range.mp hi)]
    · rw [h2, hclr, hpar, List.range_succ_eq_map, List.map_cons, List.foldl_cons, List.map_map, hfb]
      cases s.xclr <;> simp only [if_true, Bool.false_eq_true, if_false]
      congr 1
      exact List.map_congr_left (fun i _ => hshift i)
    · rw [h3, hptr, hpar]
      unfold runFits at h
      cases ho : s.par.xferOrder <;> simp only [ho, State.boundary_par, State.boundary_xptr] at h ⊢ <;> omega
    · rw [h4, hcnt]
      apply BitVec.eq_of_toNat_eq
      simp only [BitVec.toNat_sub, BitVec.toNat_ofNat, show (1 : BitVec 11).toNat = 1 from rfl]
      have := s.xcnt.isLt
      omega
    · intro _
      by_cases hn : n = 0
      · subst hn
        simpa [xferBytes] using hxd
      · rw [h5 hn, hpar, hshift, Nat.sub_add_cancel (by omega)]
        have := hread (n - 1) (by omega)
        rw [Nat.sub_add_cancel (by omega)] at this
        simpa using this

/-! ### Clearing a list of addresses -/

theorem clear_read (l : List Nat) (m : Memory) (hm : m.wf = true) (hl : ∀ a ∈ l, a < fbBytes) (b : Nat) :
    (l.foldl (fun m a => m.write a 0) m).read b = if b ∈ l then 0 else m.read b := by
  induction l generalizing m with
  | nil => simp
  | cons a l ih =>
    have ha : a < fbBytes := hl a (by simp)
    rw [List.foldl_cons, ih _ (Memory.wf_write hm ha 0) (fun c hc => hl c (by simp [hc]))]
    by_cases hb : b ∈ l
    · simp [hb]
    · by_cases hab : a = b
      · subst hab
        simp [hb, Memory.read_write_same hm]
      · simp [hb, Memory.read_write_other hab, Ne.symm hab]

theorem clear_wf (l : List Nat) (m : Memory) (hm : m.wf = true) (hl : ∀ a ∈ l, a < fbBytes) :
    (l.foldl (fun m a => m.write a 0) m).wf = true := by
  induction l generalizing m with
  | nil => exact hm
  | cons a l ih => exact ih _ (Memory.wf_write hm (hl a (by simp)) 0) (fun c hc => hl c (by simp [hc]))

end Sys2Proof.Machine
end

