-- ==== Sys2Proof/Laws/Exec.lean ====
section
/-! SUPPORT. What the longer operations can do to the state, said once each: which fields they may write. -/

namespace Sys2Proof.Machine

/-- A boundary writes the scheduler's registers only (R176). -/
theorem boundary_eq (s : State) : ∃ k, s.boundary = { s with sch := k } := ⟨_, rfl⟩

/-- The start of a step writes the latches, the host's position and the scheduler's registers (R190). -/
theorem stepBegin_eq (c : Caller) (clr : Bool) (s : State) :
    ∃ k, stepBegin c clr s =
      { s with sch := k, xphase := latchedPhase s, clrin := clr, upc := 0, ctl := .uops c } := ⟨_, rfl⟩

/-- `WAIT` up to its halt or its first fetch (R222). -/
theorem waitEnter_eq (clr : Bool) (s : State) :
    ∃ k x c u ctl, waitEnter clr s = { s with sch := k, xphase := x, clrin := c, upc := u, ctl := ctl } := by
  unfold waitEnter
  simp only
  split
  · obtain ⟨k, hk⟩ := stepBegin_eq (.wait clr) clr (State.setGie false s).boundary.boundary
    exact ⟨k, _, _, _, _, hk⟩
  · exact ⟨_, s.xphase, s.clrin, s.upc, _, rfl⟩

/-- `POLL` up to its exit or its first fetch (R223). -/
theorem pollEnter_eq (clr : Bool) (s : State) :
    ∃ k x c u ctl r, pollEnter clr s =
      { s with sch := k, xphase := x, clrin := c, upc := u, ctl := ctl, ret := r } := by
  unfold pollEnter
  simp only
  split
  · obtain ⟨k, hk⟩ := stepBegin_eq .poll clr (State.setGie false s).boundary.boundary
    exact ⟨k, _, _, _, _, s.ret, hk⟩
  · exact ⟨_, s.xphase, s.clrin, s.upc, s.ctl, _, rfl⟩

/-- The first `START` (R221): which fields it writes. -/
theorem execStart_eq {s : State} (h : s.started = false) :
    ∃ k log dc, execStart s =
      .next { s with sch := k, plane := 0, ucnt := 0, log := log ++ s.log, dc := dc, started := true } := by
  simp only [execStart, h, Bool.false_eq_true, if_false]
  rw [startEmit_eq]
  exact ⟨_, _, _, rfl⟩

/-- A burst (R151, R155): refused whole, or only the engine's registers, the buffer, the log and `DC` are written. -/
theorem xfer_cases (page : BitVec 3) (pages : BitVec 4) (mask : Byte) (clr : Bool) (s : State) :
    (burstOk page pages = false ∧ xfer page pages mask clr s = s.raiseFault 5) ∨
    (burstOk page pages = true ∧ ∃ xptr xcnt xmask xclr xd fb log sch, xfer page pages mask clr s =
      { s with
        xptr := xptr, xcnt := xcnt, xmask := xmask, xclr := xclr, xd := xd, dc := true, fb := fb, log := log
        sch := sch }) := by
  unfold xfer
  by_cases h : burstOk page pages = true
  · refine .inr ⟨h, ?_⟩
    rw [if_pos h]
    simp only
    generalize hn : (xferOpen (xferLoad page pages mask clr s).boundary) = l
    have hf := xferBytes_frame l.xcnt.toNat l
    generalize xferBytes l.xcnt.toNat l = r at hf ⊢
    refine ⟨r.xptr, r.xcnt, r.xmask, r.xclr, r.xd, r.fb, r.log, r.boundary.sch, ?_⟩
    have hr : xferClose r.boundary = { r with dord := !r.dord, sch := r.boundary.sch } := rfl
    rw [hr]
    generalize r.boundary.sch = k
    subst hn
    obtain ⟨f1, f2, f3, f4, f5, f6, f7, f8, f9, f10, f11, f12, f13, f14, f15, f16, f17, f18, f19, f20, f21⟩ := hf
    cases r
    simp only at *
    subst_vars
    simp [xferOpen, xferLoad, State.boundary, State.setSch]
  · rw [Bool.not_eq_true] at h
    exact .inl ⟨h, by rw [if_neg (by simp [h])]⟩

/-! ### Runs -/

/-- One step of a run, for every machine of the host's interface. -/
theorem core_run_succ {M : Host.Core} {s t : M.State} (h : M.step s = .next t) (n : Nat) : M.run (n + 1) s = M.run n t := by
  rw [Host.Core.run, h]

/-- One step of a run of this machine. -/
theorem run_succ {s t : State} (h : step s = .next t) (n : Nat) :
    Host.Core.run Sys2Proof.core (n + 1) s = Host.Core.run Sys2Proof.core n t :=
  core_run_succ (M := Sys2Proof.core) h n

end Sys2Proof.Machine
end

