-- ==== Sys2Proof/Laws/PerInstr.lean ====
section
/-! SUPPORT. Facts about every operation as syntax, one lemma per constructor. -/

namespace Sys2Proof.Laws.EncodesInItsRow

/-- The word of an operation selects a row of rule R104 that has the operation's class, with no reserved bit set (R102, R103). -/
def Statement (i : Instr) : Prop :=
  ∃ row, rowOf (encode i) = some row ∧ row.port = i.port ∧ encode i &&& row.mbz = 0

theorem mapc (p c : BitVec 2) : Statement (.mapc p c) :=
  ⟨rowMapc, rowOf_hab _ _ _ (by decide), rfl, hab_clear (m := 0xFC) (n := 0xFC) (by revert p; decide) (by revert c; decide)⟩
theorem mapr (p c : BitVec 2) : Statement (.mapr p c) :=
  ⟨rowMapr, rowOf_hab _ _ _ (by decide), rfl, hab_clear (m := 0xFC) (n := 0xFC) (by revert p; decide) (by revert c; decide)⟩
theorem pxw (x : BitVec 7) (y : BitVec 6) (c : BitVec 2) : Statement (.pxw x y c) :=
  ⟨rowPxw, rowOf_hab _ _ _ (by decide), rfl, hab_clear (m := 0x80) (n := 0) (by revert x; decide) (BitVec.and_zero)⟩
theorem start : Statement .start := ⟨rowStart, rowOf_hab _ _ _ (by decide), rfl, by decide⟩
theorem wait (clr : Bool) : Statement (.wait clr) :=
  ⟨rowWait, rowOf_hab _ _ _ (by decide), rfl, hab_clear (m := 0xFF) (n := 0xFE) (by decide) (by revert clr; decide)⟩
theorem poll (clr : Bool) : Statement (.poll clr) :=
  ⟨rowPoll, rowOf_hab _ _ _ (by decide), rfl, hab_clear (m := 0xFF) (n := 0xFE) (by decide) (by revert clr; decide)⟩
theorem needupd : Statement .needupd := ⟨rowNeedupd, rowOf_hab _ _ _ (by decide), rfl, by decide⟩
theorem getplane : Statement .getplane := ⟨rowGetplane, rowOf_hab _ _ _ (by decide), rfl, by decide⟩
theorem setcon (v : Byte) : Statement (.setcon v) :=
  ⟨rowSetcon, rowOf_hab _ _ _ (by decide), rfl, hab_clear (m := 0xFF) (n := 0) (by decide) (BitVec.and_zero)⟩
theorem setupd (n d : Byte) : Statement (.setupd n d) :=
  ⟨rowSetupd, rowOf_hab _ _ _ (by decide), rfl, BitVec.and_zero⟩
theorem sethz (hz : BitVec 16) : Statement (.sethz hz) :=
  ⟨rowSethz, rowOf_hab _ _ _ (by decide), rfl, BitVec.and_zero⟩
theorem tiew (e : Bool) : Statement (.tiew e) :=
  ⟨rowTiew, rowOf_hab _ _ _ (by decide), rfl, hab_clear (m := 0xFF) (n := 0xFE) (by decide) (by revert e; decide)⟩
theorem fbwr (addr : BitVec 10) (data : Byte) : Statement (.fbwr addr data) :=
  ⟨rowFbwr, rowOf_hm _ _ _ (by decide), rfl, BitVec.and_zero⟩
theorem fbrd (addr : BitVec 10) : Statement (.fbrd addr) :=
  ⟨rowFbrd, rowOf_hm _ _ _ (by decide), rfl, by
    show hm 0b100001 addr 0 &&& hm 0 0 0xFF = 0
    rw [hm_and, show addr &&& 0 = 0 from BitVec.and_zero]
    rfl⟩
theorem uEnd : Statement .uEnd := ⟨rowUEnd, rowOf_hab _ _ _ (by decide), rfl, by decide⟩
theorem uCon : Statement .uCon := ⟨rowUCon, rowOf_hab _ _ _ (by decide), rfl, by decide⟩
theorem uRow (r : BitVec 6) : Statement (.uRow r) :=
  ⟨rowURow, rowOf_hab _ _ _ (by decide), rfl, hab_clear (m := 0xFF) (n := 0xC0) (by decide) (by revert r; decide)⟩
theorem uPtr (col : BitVec 7) (page : BitVec 3) : Statement (.uPtr col page) :=
  ⟨rowUPtr, rowOf_hab _ _ _ (by decide), rfl, hab_clear (m := 0xF8) (n := 0x80) (by revert page; decide) (by revert col; decide)⟩
theorem uXfer (page : BitVec 3) (pages : BitVec 4) (mask : Byte) (ce : Bool) : Statement (.uXfer page pages mask ce) :=
  ⟨rowUXfer, rowOf_hab _ _ _ (by decide), rfl, BitVec.and_zero⟩
theorem uSlow (e : Bool) : Statement (.uSlow e) :=
  ⟨rowUSlow, rowOf_hab _ _ _ (by decide), rfl, hab_clear (m := 0xFF) (n := 0xFE) (by decide) (by revert e; decide)⟩
theorem uAdv : Statement .uAdv := ⟨rowUAdv, rowOf_hab _ _ _ (by decide), rfl, by decide⟩

end Sys2Proof.Laws.EncodesInItsRow
end

