-- ==== Sys2Proof/Laws/Uops.lean ====
section
/-! SUPPORT. What a run of micro-ops does (R190, R199 to R205): each word of the built store is a micro-op, each micro-op takes
a known number of turns, and every step in progress ends. -/

namespace Sys2Proof.Machine

open Sys2Proof.Safety

/-! ### Turns taken one after another -/

theorem turnsTaken_succ (sync : SyncMode) (p : Params) (n : Nat) (k : Sched) :
    turnsTaken sync p (n + 1) k = (turnsTaken sync p n k).turn sync p := by
  induction n generalizing k with
  | zero => rfl
  | succ n ih => exact ih _

theorem turnsTaken_add (sync : SyncMode) (p : Params) (m n : Nat) (k : Sched) :
    turnsTaken sync p (m + n) k = turnsTaken sync p n (turnsTaken sync p m k) := by
  induction m generalizing k with
  | zero => rw [Nat.zero_add]; rfl
  | succ m ih => rw [Nat.add_right_comm]; exact ih _

/-- Packaged induction: what a turn keeps, any number of turns keeps. -/
theorem turnsTaken_keeps {P : Sched → Prop} {sync : SyncMode} {p : Params} (hturn : ∀ k, P k → P (k.turn sync p)) (n : Nat)
    {k : Sched} (h : P k) : P (turnsTaken sync p n k) := by
  induction n generalizing k with
  | zero => exact h
  | succ n ih => exact ih (hturn k h)

theorem turnsTaken_slp {sync : SyncMode} {p : Params} {n : Nat} {k : Sched} (h : k.slp = false) :
    (turnsTaken sync p n k).slp = false :=
  turnsTaken_keeps (P := fun k => k.slp = false) (fun _ h => Sched.turn_slp h) n h

theorem turnsTaken_gie {sync : SyncMode} {p : Params} {n : Nat} {k : Sched} : (turnsTaken sync p n k).gie = k.gie :=
  turnsTaken_keeps (P := fun j => j.gie = k.gie) (fun j h => (Sched.turn_gie sync p j).trans h) n rfl

/-! ### The micro-ops decode to themselves (R102, R103) -/

/-- The fields of an encoded micro-op are its operands. -/
theorem uopFields :
    (∀ r : BitVec 6, ((0 : BitVec 2) ++ r : Byte).extractLsb' 0 6 = r) ∧
    (∀ col : BitVec 7, ((0 : BitVec 1) ++ col : Byte).extractLsb' 0 7 = col) ∧
    (∀ page : BitVec 3, ((0 : BitVec 5) ++ page : Byte).extractLsb' 0 3 = page) ∧
    (∀ e : Bool, (bitByte e).getLsbD 0 = e) ∧
    (∀ (ce : Bool) (pages : BitVec 4) (page : BitVec 3),
      (BitVec.ofBool ce ++ pages ++ page : Byte).extractLsb' 0 3 = page ∧
      (BitVec.ofBool ce ++ pages ++ page : Byte).extractLsb' 3 4 = pages ∧
      (BitVec.ofBool ce ++ pages ++ page : Byte).getLsbD 7 = ce) := by decide

/-- A word that selects a row at its own port, with no reserved bit set, decodes to the row's operands. -/
theorem decode_of_row {port : Port} {w : Word24} {row : OpRow} {i : Instr} (hrow : rowOf w = some row)
    (hport : row.port = port) (hmbz : w &&& row.mbz = 0) (hops : row.operands w = i) : decode port w = .ok i := by
  simp [decode, hrow, hport, hmbz, hops]

/-- A micro-op's word decodes to it at `UROM`. -/
theorem decode_uop {i : Instr} (h : i.wellFormedAt .urom = true) : decode .urom (encode i) = .ok i := by
  obtain ⟨hr, hc, hp, hb, hx⟩ := uopFields
  cases i
  case uEnd => decide
  case uCon => decide
  case uAdv => decide
  case uRow r =>
    obtain ⟨row, h1, h2, h3⟩ := Laws.EncodesInItsRow.uRow r
    refine decode_of_row h1 h2 h3 ?_
    rw [← Option.some.inj ((rowOf_hab 0x42 0 _ (by decide)).symm.trans h1)]
    show Instr.uRow ((bField (hab _ _ _)).extractLsb' 0 6) = _
    rw [bField_hab, hr]
  case uPtr col page =>
    obtain ⟨row, h1, h2, h3⟩ := Laws.EncodesInItsRow.uPtr col page
    refine decode_of_row h1 h2 h3 ?_
    rw [← Option.some.inj ((rowOf_hab 0x43 _ _ (by decide)).symm.trans h1)]
    show Instr.uPtr ((bField (hab _ _ _)).extractLsb' 0 7) ((aField (hab _ _ _)).extractLsb' 0 3) = _
    rw [aField_hab, bField_hab, hc, hp]
  case uXfer page pages mask ce =>
    obtain ⟨row, h1, h2, h3⟩ := Laws.EncodesInItsRow.uXfer page pages mask ce
    refine decode_of_row h1 h2 h3 ?_
    rw [← Option.some.inj ((rowOf_hab 0x44 _ _ (by decide)).symm.trans h1)]
    show Instr.uXfer ((aField (hab _ _ _)).extractLsb' 0 3) ((aField (hab _ _ _)).extractLsb' 3 4) (bField (hab _ _ _))
      ((aField (hab _ _ _)).getLsbD 7) = _
    rw [aField_hab, bField_hab, (hx ce pages page).1, (hx ce pages page).2.1, (hx ce pages page).2.2]
  case uSlow e =>
    obtain ⟨row, h1, h2, h3⟩ := Laws.EncodesInItsRow.uSlow e
    refine decode_of_row h1 h2 h3 ?_
    rw [← Option.some.inj ((rowOf_hab 0x45 0 _ (by decide)).symm.trans h1)]
    show Instr.uSlow ((bField (hab _ _ _)).getLsbD 0) = _
    rw [bField_hab, hb]
  all_goals exact absurd h (by simp [Instr.wellFormedAt, Instr.port])

/-! ### The words of the built store -/

/-- Micro-op `u` of latched phase `q` (R199, R205). -/
def storedUop (p : Params) (sync : SyncMode) (q : BitVec 2) (u : BitVec 4) : Instr :=
  (program p sync q.toNat).getD u.toNat .uEnd

theorem exists_lt_16 (u : BitVec 4) : ∃ n, n < 16 ∧ u = BitVec.ofNat 4 n := ⟨u.toNat, u.isLt, by simp⟩

theorem microStore_word (p : Params) (sync : SyncMode) {q : BitVec 2} (u : BitVec 4) (hq : q ≠ 0) :
    (microStore p sync)[(uromAddr q u).toNat]? = some (encode (storedUop p sync q u)) := by
  obtain ⟨n, hn, rfl⟩ := exists_lt_16 u
  have hcases : q = 1 ∨ q = 2 ∨ q = 3 := by revert hq; revert q; decide
  rcases hcases with rfl | rfl | rfl <;> cases sync <;> interval_cases n <;> rfl

theorem storedUop_port (p : Params) (sync : SyncMode) (q : BitVec 2) (u : BitVec 4) :
    (storedUop p sync q u).wellFormedAt .urom = true := by
  obtain ⟨n, hn, rfl⟩ := exists_lt_16 u
  have hcases : q = 0 ∨ q = 1 ∨ q = 2 ∨ q = 3 := by revert q; decide
  rcases hcases with rfl | rfl | rfl | rfl <;> cases sync <;> interval_cases n <;> rfl

theorem storedUop_last (p : Params) (sync : SyncMode) (q : BitVec 2) : storedUop p sync q 15 = .uEnd := by
  have hcases : q = 0 ∨ q = 1 ∨ q = 2 ∨ q = 3 := by revert q; decide
  rcases hcases with rfl | rfl | rfl | rfl <;> cases sync <;> rfl

/-- The turns a micro-op takes beside the one before it (R151, R156). -/
def uopTurns : Instr → Nat
  | .uXfer page pages _ _ => if burstOk page pages then 128 * pages.toNat + 2 else 0
  | _ => 0

/-- Phases 1 and 2 of `THREE_PHASE` send one page at most, with their first micro-op (R200, R201). -/
theorem storedUop_turns (p : Params) {q : BitVec 2} (u : BitVec 4) (hq : q = 1 ∨ q = 2) :
    uopTurns (storedUop p .threePhase q u) ≤ if u = 0 then 130 else 0 := by
  have page : ∀ (g : BitVec 3) m ce, uopTurns (.uXfer g 1 m ce) ≤ 130 := by
    intro g m ce
    unfold uopTurns
    simp only
    split <;> simp
  obtain ⟨n, hn, rfl⟩ := exists_lt_16 u
  rcases hq with rfl | rfl <;> interval_cases n <;> first | exact Nat.zero_le _ | exact page _ _ _

/-! ### One micro-op -/

/-- The configuration and the latched phase stay. -/
structure SameStep (s t : State) : Prop where
  cfg : t.cfg = s.cfg
  par : t.par = s.par
  urom : t.urom = s.urom
  xphase : t.xphase = s.xphase

theorem SameStep.trans {s t u : State} (h : SameStep s t) (g : SameStep t u) : SameStep s u :=
  ⟨g.cfg.trans h.cfg, g.par.trans h.par, g.urom.trans h.urom, g.xphase.trans h.xphase⟩

theorem SameStep.sync {s t : State} (h : SameStep s t) : t.sync = s.sync := by
  unfold State.sync; rw [h.cfg]

/-- What a burst does to the scheduler: a turn before each of its actions (R151, R156). -/
theorem xfer_sch (page : BitVec 3) (pages : BitVec 4) (mask : Byte) (clr : Bool) (s : State) :
    (xfer page pages mask clr s).sch =
      turnsTaken s.sync s.par (if burstOk page pages then 128 * pages.toNat + 2 else 0) s.sch := by
  unfold xfer
  by_cases h : burstOk page pages = true
  · simp only [if_pos h]
    have hn : (xferOpen (xferLoad page pages mask clr s).boundary).xcnt.toNat = 128 * pages.toNat := by
      show (burstLen pages).toNat = _
      simp [burstLen]
      omega
    rw [hn]
    have hf := xferBytes_frame (128 * pages.toNat) (xferOpen (xferLoad page pages mask clr s).boundary)
    generalize xferBytes (128 * pages.toNat) (xferOpen (xferLoad page pages mask clr s).boundary) = r at hf
    show Sched.turn r.sync r.par r.sch = _
    rw [show r.sync = s.sync by unfold State.sync; rw [hf.cfg]; rfl, hf.par, hf.sch,
      show turnsTaken s.sync s.par (128 * pages.toNat + 2) s.sch =
        turnsTaken s.sync s.par (128 * pages.toNat + 1) (s.sch.turn s.sync s.par) from rfl, turnsTaken_succ]
    rfl
  · rw [if_neg h, if_neg h]
    rfl

/-- A micro-op completes, takes its turns, and ends the step or leaves it in progress. -/
theorem exec_uop {i : Instr} {s : State} {c : Caller} (hw : i.wellFormedAt .urom = true) (h : s.ctl = .uops c) :
    ∃ t, exec i s = .next t ∧ SameStep s t ∧ t.upc = s.upc ∧ t.sch = turnsTaken s.sync s.par (uopTurns i) s.sch ∧
      (t.ctl = .stepDone c ∨ (i ≠ .uEnd ∧ t.ctl = .uops c)) := by
  cases i
  case uEnd => exact ⟨_, rfl, ⟨rfl, rfl, rfl, rfl⟩, rfl, rfl, .inl (by simp [State.setCtl, h, Ctl.endStep])⟩
  case uCon =>
    by_cases hc : contrastTrick s.par s.mode = true
    · exact ⟨s.emitCmd (.contrast (planeContrast s.par s.plane)), by simp only [exec, execUCon, if_pos hc],
        ⟨rfl, rfl, rfl, rfl⟩, rfl, rfl, .inr ⟨by simp, h⟩⟩
    · exact ⟨s, by simp only [exec, execUCon, if_neg hc], ⟨rfl, rfl, rfl, rfl⟩, rfl, rfl, .inr ⟨by simp, h⟩⟩
  case uRow => exact ⟨_, rfl, ⟨rfl, rfl, rfl, rfl⟩, rfl, rfl, .inr ⟨by simp, h⟩⟩
  case uPtr => exact ⟨_, rfl, ⟨rfl, rfl, rfl, rfl⟩, rfl, rfl, .inr ⟨by simp, h⟩⟩
  case uSlow => exact ⟨_, rfl, ⟨rfl, rfl, rfl, rfl⟩, rfl, rfl, .inr ⟨by simp, h⟩⟩
  case uAdv => exact ⟨_, rfl, ⟨rfl, rfl, rfl, rfl⟩, rfl, rfl, .inr ⟨by simp, h⟩⟩
  case uXfer page pages mask ce =>
    refine ⟨_, rfl, ?_⟩
    have hs := xfer_sch page pages mask (ce && s.clrin) s
    obtain ⟨-, he⟩ | ⟨-, _, _, _, _, _, _, _, _, he⟩ := xfer_cases page pages mask (ce && s.clrin) s
    · refine ⟨?_, ?_, hs, .inl ?_⟩ <;> rw [he]
      · exact ⟨rfl, rfl, rfl, rfl⟩
      · rfl
      · simp [State.raiseFault, h, Ctl.endStep]
    · refine ⟨?_, ?_, hs, .inr ⟨by simp, ?_⟩⟩ <;> rw [he]
      · exact ⟨rfl, rfl, rfl, rfl⟩
      · exact h
  all_goals exact absurd hw (by simp [Instr.wellFormedAt, Instr.port])

/-- One round of the loop `S2` over the built store (R190). -/
theorem step_uop {s : State} {c : Caller} (h : s.ctl = .uops c) (hs : s.sch.slp = false)
    (hu : s.urom = microStore s.par s.sync) (hx : s.xphase ≠ 0) :
    ∃ t, step s = .next t ∧ SameStep s t ∧ t.upc = s.upc + 1 ∧
      t.sch = turnsTaken s.sync s.par (uopTurns (storedUop s.par s.sync s.xphase s.upc) + 1) s.sch ∧
      (t.ctl = .stepDone c ∨ (s.upc ≠ 15 ∧ t.ctl = .uops c)) := by
  have hb : s.boundary.sch.slp = false := Sched.turn_slp hs
  have hi := storedUop_port s.par s.sync s.xphase s.upc
  have hw : s.boundary.urom[(uromAddr s.boundary.xphase s.boundary.upc).toNat]? =
      some (encode (storedUop s.par s.sync s.xphase s.upc)) := by
    show s.urom[(uromAddr s.xphase s.upc).toNat]? = _
    rw [hu]
    exact microStore_word _ _ _ hx
  rw [step_eq, hostAction_uops hb (c := c) h]
  unfold fetchUop
  rw [hw]
  simp only [decode_uop hi]
  obtain ⟨t, h1, h2, h3, h4, h5⟩ := exec_uop hi (s := { s.boundary with upc := s.boundary.upc + 1 }) (c := c) h
  refine ⟨t, h1, ⟨h2.cfg, h2.par, h2.urom, h2.xphase⟩, h3, h4, h5.imp id (fun h => ⟨fun hl => h.1 ?_, h.2⟩)⟩
  rw [hl, storedUop_last]

/-- Every step over the built store ends, whatever fires and interrupts fall into it, and those of phases 1 and 2 of
`THREE_PHASE` end within 146 turns. -/
theorem step_ends {s : State} {c : Caller} (h : s.ctl = .uops c) (hs : s.sch.slp = false)
    (hu : s.urom = microStore s.par s.sync) (hx : s.xphase ≠ 0) :
    ∃ n t j, Host.Core.run Sys2Proof.core n s = .next t ∧ SameStep s t ∧ t.ctl = .stepDone c ∧
      t.sch = turnsTaken s.sync s.par j s.sch ∧
      (s.sync = .threePhase → (s.xphase = 1 ∨ s.xphase = 2) → j ≤ 146) := by
  have rounds : ∀ (d : Nat) (s : State), 16 - s.upc.toNat = d → s.ctl = .uops c → s.sch.slp = false →
      s.urom = microStore s.par s.sync → s.xphase ≠ 0 →
      ∃ n t j, Host.Core.run Sys2Proof.core n s = .next t ∧ SameStep s t ∧ t.ctl = .stepDone c ∧
        t.sch = turnsTaken s.sync s.par j s.sch ∧
        (s.sync = .threePhase → (s.xphase = 1 ∨ s.xphase = 2) →
          j ≤ 16 - s.upc.toNat + if s.upc = 0 then 130 else 0) := by
    intro d
    induction d with
    | zero => intro s hd; have := s.upc.isLt; omega
    | succ d ih =>
      intro s hd h hs hu hx
      obtain ⟨t, h1, h2, h3, h4, h5⟩ := step_uop h hs hu hx
      have hturns : s.sync = .threePhase → (s.xphase = 1 ∨ s.xphase = 2) →
          uopTurns (storedUop s.par s.sync s.xphase s.upc) ≤ if s.upc = 0 then 130 else 0 := by
        intro hsync hq; rw [hsync]; exact storedUop_turns _ _ hq
      rcases h5 with h5 | ⟨h5, h6⟩
      · refine ⟨1, t, _, (run_succ h1 0).trans rfl, h2, h5, h4, fun hsync hq => ?_⟩
        have := hturns hsync hq
        have := s.upc.isLt
        omega
      · have hupc : t.upc.toNat = s.upc.toNat + 1 := by
          have := s.upc.isLt
          have : s.upc.toNat ≠ 15 := fun e => h5 (BitVec.eq_of_toNat_eq e)
          rw [h3, BitVec.toNat_add]
          simp
          omega
        have hne : ¬ t.upc = 0 := by intro e; rw [e] at hupc; simp at hupc
        obtain ⟨n, t', j, g1, g2, g3, g4, g5⟩ := ih t (by omega) h6 (by rw [h4]; exact turnsTaken_slp hs)
          (by rw [h2.urom, h2.par, h2.sync]; exact hu) (by rw [h2.xphase]; exact hx)
        refine ⟨n + 1, t', uopTurns (storedUop s.par s.sync s.xphase s.upc) + 1 + j, (run_succ h1 n).trans g1, h2.trans g2,
          g3, ?_, fun hsync hq => ?_⟩
        · rw [g4, h4, h2.par, h2.sync, ← turnsTaken_add]
        · have k1 := hturns hsync hq
          have k2 := g5 (by rw [h2.sync]; exact hsync) (by rw [h2.xphase]; exact hq)
          rw [if_neg hne] at k2
          omega
  obtain ⟨n, t, j, h1, h2, h3, h4, h5⟩ := rounds _ s rfl h hs hu hx
  refine ⟨n, t, j, h1, h2, h3, h4, fun hsync hq => ?_⟩
  have := h5 hsync hq
  split at this <;> omega

end Sys2Proof.Machine
end

