-- ==== Sys2Proof/Laws/Fair.lean ====
section
/-! SUPPORT. Fairness (R256, R292): with the timer running and its interrupt enabled, every `WAIT` completes, from every legal
state and for every schedule. After the last entry of `turns` each interrupt is followed by the host's share of turns, in
which the step it makes due is over (R284): phases are then latched one after another, and phase 3 ends the `WAIT`. -/

namespace Sys2Proof.Laws.Fair

open Sys2Proof.Machine Sys2Proof.Safety

/-! ### The scheduler after the last entry of the schedule -/

/-- The timer runs with its interrupt enabled, its registers in range and the phase legal. -/
structure Armed (p : Params) (k : Sched) : Prop where
  trun : k.trun = true
  tie : k.tie = true
  range : k.tcr < 2 ^ p.tw ∧ k.tcnt < 2 ^ p.tw ∧ k.ocr < 2 ^ p.tw
  phase : k.phase ≠ 0

/-- What is left of the schedule is a host's share, or nothing. -/
def Tailed (k : Sched) : Prop := ∃ m, k.turns = List.replicate m []

/-- `Tailed`, and a step that is due has at least `b` turns of the share left. -/
def Fresh (b : Nat) (k : Sched) : Prop := ∃ m, k.turns = List.replicate m [] ∧ (k.nd = true → b ≤ m)

/-- No step is due, the phase is `q`, and at least `b` turns of a share are left. -/
def Quiet (b : Nat) (q : BitVec 2) (k : Sched) : Prop :=
  k.nd = false ∧ k.phase = q ∧ ∃ m, k.turns = List.replicate m [] ∧ b ≤ m

/-- `Tailed` after at most `n` more turns. -/
def Within (n : Nat) (k : Sched) : Prop := Tailed k ∨ k.turns.length ≤ n

variable {sync : SyncMode} {p : Params} {k : Sched}

theorem Armed.turn (h : Armed p k) : Armed p (k.turn sync p) :=
  ⟨by simp [h.trun], by simp [h.tie], Sched.turn_range h.range, Sched.turn_phase h.phase⟩

theorem Armed.turns {n : Nat} (h : Armed p k) : Armed p (turnsTaken sync p n k) :=
  turnsTaken_keeps (fun _ h => h.turn) n h

theorem tick_other (p : Params) (k : Sched) : (k.tick p).phase = k.phase ∧ (k.tick p).slp = k.slp ∧
    (k.tick p).turns = k.turns ∧ (k.tick p).nd = k.nd := by
  unfold Sched.tick; split <;> [split; skip] <;> exact ⟨rfl, rfl, rfl, rfl⟩

theorem turn_share_succ {m : Nat} (h : k.turns = List.replicate (m + 1) []) :
    k.turn sync p = { k with turns := List.replicate m [] } := Sched.turn_share h

theorem Tailed.turn (h : Tailed k) : Tailed (k.turn sync p) := by
  obtain ⟨m, h⟩ := h
  cases m with
  | zero =>
    rw [Sched.turn_fair h]
    split
    · exact ⟨hostShare, rfl⟩
    · exact ⟨0, (tick_other p k).2.2.1.trans h⟩
  | succ m => rw [turn_share_succ h]; exact ⟨m, rfl⟩

theorem Fresh.turn {b : Nat} (hb : b ≤ hostShare) (h : Fresh (b + 1) k) : Fresh b (k.turn sync p) := by
  obtain ⟨m, h1, h2⟩ := h
  cases m with
  | zero =>
    rw [Sched.turn_fair h1]
    split
    · exact ⟨hostShare, rfl, fun _ => hb⟩
    · exact ⟨0, (tick_other p k).2.2.1.trans h1, fun hn => absurd (h2 ((tick_other p k).2.2.2 ▸ hn)) (by omega)⟩
  | succ m => rw [turn_share_succ h1]; exact ⟨m, rfl, fun hn => by have := h2 hn; omega⟩

theorem Fresh.turns {n b : Nat} (hb : b + n ≤ hostShare) (h : Fresh (b + n) k) : Fresh b (turnsTaken sync p n k) := by
  induction n generalizing b k with
  | zero => exact h
  | succ n ih => exact ih (by omega) (Fresh.turn (by omega) (by rwa [Nat.add_assoc]))

theorem Quiet.mono {b c : Nat} {q : BitVec 2} (h : Quiet c q k) (hb : b ≤ c) : Quiet b q k := by
  obtain ⟨h1, h2, m, h3, h4⟩ := h
  exact ⟨h1, h2, m, h3, by omega⟩

theorem Quiet.turn {b : Nat} {q : BitVec 2} (h : Quiet (b + 1) q k) : Quiet b q (k.turn sync p) := by
  obtain ⟨h1, h2, m, h3, h4⟩ := h
  obtain ⟨m, rfl⟩ : ∃ n, m = n + 1 := ⟨m - 1, by omega⟩
  rw [turn_share_succ h3]
  exact ⟨h1, h2, m, rfl, by omega⟩

theorem Quiet.turns {n b : Nat} {q : BitVec 2} (h : Quiet (b + n) q k) : Quiet b q (turnsTaken sync p n k) := by
  induction n generalizing b k with
  | zero => exact h
  | succ n ih => exact ih (Quiet.turn (by rwa [Nat.add_assoc]))

theorem Within.mono {n m : Nat} (h : Within n k) (hm : n ≤ m) : Within m k := h.imp id (fun h => by omega)

theorem Within.tailed (h : Within 0 k) : Tailed k := h.elim id (fun h => ⟨0, by simpa using h⟩)

theorem Within.turn {n : Nat} (h : Within n k) : Within (n - 1) (k.turn sync p) := by
  rcases h with h | h
  · exact .inl h.turn
  · cases ht : k.turns with
    | nil => exact .inl (Tailed.turn ⟨0, ht⟩)
    | cons steps rest =>
      right
      rw [Sched.turn_turns ht]
      simp only [ht, List.length_cons] at h
      omega

theorem Within.turns {i n : Nat} (h : Within n k) : Within (n - i) (turnsTaken sync p i k) := by
  induction i generalizing n k with
  | zero => exact h
  | succ i ih =>
    have := ih (n := n - 1) (h.turn (sync := sync) (p := p))
    rwa [Nat.sub_sub, Nat.add_comm] at this

/-- A masked turn leaves the flag, the phase and the halt alone (R254). -/
theorem turn_masked (h : k.gie = false) : (k.turn sync p).nd = k.nd ∧ (k.turn sync p).phase = k.phase ∧
    (k.turn sync p).slp = k.slp ∧ (k.turn sync p).gie = false := by
  obtain ⟨tcnt, tif, turns, hk⟩ := Sched.turn_untaken (sync := sync) (p := p) (k := k) (.inl h)
  rw [hk]
  exact ⟨rfl, rfl, rfl, h⟩

/-! ### The ticks up to the next fire -/

/-- How many ticks the timer needs to fire. -/
def ticksLeft (p : Params) (k : Sched) : Nat := if k.tcnt < k.ocr then k.ocr - k.tcnt else 2 ^ p.tw - k.tcnt + k.ocr

/-- A tick that does not fire brings the fire nearer. -/
theorem ticksLeft_tick {d : Nat} (h : Armed p k) (hne : timerWord p (k.tcnt + 1) ≠ k.ocr) (hd : ticksLeft p k ≤ d + 1) :
    ticksLeft p { k with tcnt := timerWord p (k.tcnt + 1) } ≤ d := by
  have := h.range
  have hw : timerWord p (k.tcnt + 1) = if k.tcnt + 1 = 2 ^ p.tw then 0 else k.tcnt + 1 := by
    unfold timerWord
    split
    · rename_i h; rw [h]; exact Nat.mod_self _
    · exact Nat.mod_eq_of_lt (by omega)
  by_cases hz : k.tcnt + 1 = 2 ^ p.tw
  · rw [if_pos hz] at hw
    rw [hw] at hne
    unfold ticksLeft at *
    rw [hw]
    simp only
    rw [if_neg (by omega)] at hd
    rw [if_pos (by omega)]
    omega
  · rw [if_neg hz] at hw
    rw [hw] at hne
    unfold ticksLeft at *
    rw [hw]
    simp only
    split at hd
    · rw [if_pos (by omega)]; omega
    · rw [if_neg (by omega)]; omega

/-! ### The machine inside a `WAIT` -/

/-- The built store, an armed timer, interrupts unmasked. -/
structure Served (s : State) : Prop where
  store : s.urom = microStore s.par s.sync
  armed : Armed s.par s.sch
  gie : s.sch.gie = true

theorem Served.of {s t : State} (h : Served s) (hc : t.cfg = s.cfg) (hp : t.par = s.par) (hu : t.urom = s.urom)
    (ha : Armed t.par t.sch) (hg : t.sch.gie = true) : Served t :=
  ⟨by rw [hu, hp, show t.sync = s.sync by unfold State.sync; rw [hc]]; exact h.store, ha, hg⟩

theorem Served.turn {s : State} (h : Served s) : Served s.boundary :=
  ⟨h.store, h.armed.turn, by rw [State.boundary_sch, Sched.turn_gie]; exact h.gie⟩

/-- `WAIT` from its beginning (R222): it halts when no step is due, else it begins the step of the phase; a fresh step begins
with its share. -/
theorem waitEnter_cases (clr : Bool) {s : State} (ha : Armed s.par s.sch) :
    ∃ t, waitEnter clr s = t ∧ t.cfg = s.cfg ∧ t.par = s.par ∧ t.urom = s.urom ∧ Armed t.par t.sch ∧
      t.sch.gie = true ∧ t.sch.nd = false ∧ (∀ n, Within n s.sch → Within (n - 1) t.sch) ∧
      ((t.ctl = .asleep clr ∧ t.sch.slp = true ∧ s.sch.nd = false ∧ t.sch.phase = s.sch.phase ∧ t.xphase = s.xphase) ∨
       (t.ctl = .uops (.wait clr) ∧ s.sch.nd = true ∧ t.sch.slp = s.sch.slp ∧
          t.xphase = (if isThreePhase s.sync then s.sch.phase else 1) ∧
          ∀ b, b ≤ 2000 → Fresh (b + 3) s.sch → Quiet b s.sch.phase t.sch)) := by
  refine ⟨_, rfl, ?_⟩
  unfold waitEnter
  -- the first masked turn
  obtain ⟨m1, m2, m3, m4⟩ := turn_masked (sync := s.sync) (p := s.par) (k := { s.sch with gie := false }) rfl
  have a1 : Armed s.par { s.sch with gie := false } := ⟨ha.trun, ha.tie, ha.range, ha.phase⟩
  have a2 := a1.turn (sync := s.sync)
  have w2 : ∀ n, Within n s.sch → Within (n - 1) (Sched.turn s.sync s.par { s.sch with gie := false }) :=
    fun n h => Within.turn (k := { s.sch with gie := false }) h
  have f2 : ∀ b, b ≤ 2000 → Fresh (b + 3) s.sch →
      Fresh (b + 2) (Sched.turn s.sync s.par { s.sch with gie := false }) :=
    fun b hb h => Fresh.turn (k := { s.sch with gie := false }) (by unfold hostShare; omega) h
  have hb1 : (s.setGie false).boundary = { s with sch := Sched.turn s.sync s.par { s.sch with gie := false } } := rfl
  rw [hb1]
  generalize Sched.turn s.sync s.par { s.sch with gie := false } = k1 at *
  -- the second
  obtain ⟨n1, n2, n3, n4⟩ := turn_masked (sync := s.sync) (p := s.par) (k := k1) m4
  have a3 := a2.turn (sync := s.sync)
  have w3 : ∀ n, Within n k1 → Within n (Sched.turn s.sync s.par k1) := fun n h => (Within.turn h).mono (by omega)
  have q3 : ∀ b, k1.nd = true → Fresh (b + 2) k1 →
      Quiet (b + 1) k1.phase { Sched.turn s.sync s.par k1 with nd := false } := by
    rintro b hn ⟨m, h3, h4⟩
    have := h4 hn
    obtain ⟨m, rfl⟩ : ∃ n, m = n + 1 := ⟨m - 1, by omega⟩
    rw [turn_share_succ h3]
    exact ⟨rfl, rfl, m, rfl, by omega⟩
  have hb2 : ({ s with sch := k1 } : State).boundary = { s with sch := Sched.turn s.sync s.par k1 } := rfl
  simp only [hb2]
  generalize Sched.turn s.sync s.par k1 = k2 at *
  by_cases hnd : k1.nd = true
  · simp only [hnd, if_true]
    obtain ⟨o1, o2, o3, -⟩ := turn_masked (sync := s.sync) (p := s.par) (k := { k2 with nd := false }) n4
    have a4 : Armed s.par { k2 with nd := false } := ⟨a3.trun, a3.tie, a3.range, a3.phase⟩
    have a5 := a4.turn (sync := s.sync)
    refine ⟨rfl, rfl, rfl, ⟨a5.trun, a5.tie, a5.range, a5.phase⟩, rfl, o1,
      fun n h => (Within.turn (k := { k2 with nd := false }) (w3 _ (w2 _ h))).mono (by omega),
      .inr ⟨rfl, m1 ▸ hnd, o3.trans (n3.trans m3), ?_, fun b hb hf => ?_⟩⟩
    · show (if isThreePhase s.sync then k2.phase else 1) = _
      rw [n2.trans m2]
    · have := (q3 b hnd (f2 b hb hf)).turn (sync := s.sync) (p := s.par)
      rw [m2] at this
      exact this
  · rw [Bool.not_eq_true] at hnd
    simp only [hnd, Bool.false_eq_true, if_false]
    obtain ⟨o1, o2, -, -⟩ := turn_masked (sync := s.sync) (p := s.par) (k := { k2 with se := true }) n4
    have a4 : Armed s.par { k2 with se := true } := ⟨a3.trun, a3.tie, a3.range, a3.phase⟩
    have a5 := a4.turn (sync := s.sync)
    exact ⟨rfl, rfl, rfl, ⟨a5.trun, a5.tie, a5.range, a5.phase⟩, rfl, o1.trans (n1.trans hnd),
      fun n h => (Within.turn (k := { k2 with se := true }) (w3 _ (w2 _ h))).mono (by omega),
      .inl ⟨rfl, rfl, m1 ▸ hnd, o2.trans (n2.trans m2), rfl⟩⟩

/-- A halted host stays halted for a turn that does not wake it. -/
theorem step_halted {s : State} (h : s.boundary.sch.slp = true) : step s = .next s.boundary := by
  rw [step_eq, hostAction_halted h]

/-- A woken host begins the step of the phase the ISR entered (R222). -/
theorem step_woken {clr : Bool} {s : State} (hs : Served s) (hc : s.ctl = .asleep clr)
    (hw : s.boundary.sch.slp = false) :
    ∃ t, step s = .next t ∧ Served t ∧ t.ctl = .uops (.wait clr) ∧ t.sch.slp = false ∧ t.cfg = s.cfg ∧
      t.xphase = (if isThreePhase s.sync then s.boundary.sch.phase else 1) ∧
      (∀ n, Within n s.sch → Within (n - 1) t.sch) ∧
      (∀ m, s.boundary.sch.turns = List.replicate (m + 2) [] → Quiet m s.boundary.sch.phase t.sch) := by
  have a1 := hs.armed.turn (sync := s.sync)
  have w1 : ∀ n, Within n s.sch → Within (n - 1) (s.sch.turn s.sync s.par) := fun n h => h.turn
  rw [step_eq, hostAction_asleep hw hc]
  have hb1 : s.boundary = { s with sch := s.sch.turn s.sync s.par } := rfl
  rw [hb1] at hw ⊢
  generalize s.sch.turn s.sync s.par = k1 at *
  obtain ⟨m1, m2, m3, m4⟩ := turn_masked (sync := s.sync) (p := s.par) (k := { k1 with se := false, gie := false }) rfl
  have a2 : Armed s.par { k1 with se := false, gie := false } := ⟨a1.trun, a1.tie, a1.range, a1.phase⟩
  have a3 := a2.turn (sync := s.sync)
  have w2 : ∀ n, Within n k1 → Within n (Sched.turn s.sync s.par { k1 with se := false, gie := false }) :=
    fun n h => (Within.turn (k := { k1 with se := false, gie := false }) h).mono (by omega)
  have t2 : ∀ m, k1.turns = List.replicate (m + 2) [] →
      (Sched.turn s.sync s.par { k1 with se := false, gie := false }).turns = List.replicate (m + 1) [] :=
    fun m h => Sched.turn_turns (k := { k1 with se := false, gie := false }) (steps := []) h
  refine ⟨_, rfl, ?_⟩
  unfold waitWake
  have hb2 : (State.setSch { k1 with se := false, gie := false } { s with sch := k1 }).boundary =
    { s with sch := Sched.turn s.sync s.par { k1 with se := false, gie := false } } := rfl
  simp only [hb2]
  generalize Sched.turn s.sync s.par { k1 with se := false, gie := false } = k2 at *
  obtain ⟨n1, n2, n3, n4⟩ := turn_masked (sync := s.sync) (p := s.par) (k := { k2 with nd := false }) m4
  have a4 : Armed s.par { k2 with nd := false } := ⟨a3.trun, a3.tie, a3.range, a3.phase⟩
  have a5 := a4.turn (sync := s.sync)
  refine ⟨⟨hs.store, ⟨a5.trun, a5.tie, a5.range, a5.phase⟩, rfl⟩, rfl, n3.trans (m3.trans hw), rfl, ?_,
    fun n h => (Within.turn (k := { k2 with nd := false }) (w2 _ (w1 _ h))).mono (by omega), fun m h => ?_⟩
  · show (if isThreePhase s.sync then k2.phase else 1) = (if isThreePhase s.sync then k1.phase else 1)
    rw [m2]
  · exact ⟨n1, n2.trans m2, m, Sched.turn_turns (k := { k2 with nd := false }) (steps := []) (t2 m h), le_refl m⟩

/-! ### Runs -/

/-- Some number of steps leads from `s` to `t`. -/
def Reach (s t : State) : Prop := ∃ n, Host.Core.run Sys2Proof.core n s = .next t

/-- Some number of steps ends the command. -/
def Completes (s : State) : Prop := ∃ t, Reach s t ∧ t.ctl = .idle

theorem run_add {s t : State} {n : Nat} (h : Host.Core.run Sys2Proof.core n s = .next t) (m : Nat) :
    Host.Core.run Sys2Proof.core (n + m) s = Host.Core.run Sys2Proof.core m t := by
  induction n generalizing s with
  | zero => cases h; rw [Nat.zero_add]
  | succ n ih =>
    rw [Nat.add_right_comm]
    have he : Sys2Proof.core.step s = step s := rfl
    cases hs : step s with
    | next u => rw [run_succ hs] at h ⊢; exact ih h
    | fault r => simp only [Host.Core.run, he, hs] at h; cases h
    | refused r => simp only [Host.Core.run, he, hs] at h; cases h

theorem Reach.trans {s t u : State} (h : Reach s t) (g : Reach t u) : Reach s u := by
  obtain ⟨n, h⟩ := h
  obtain ⟨m, g⟩ := g
  exact ⟨n + m, (run_add h m).trans g⟩

theorem Reach.one {s t : State} (h : step s = .next t) : Reach s t := ⟨1, run_succ h 0⟩

theorem Completes.of {s t : State} (h : Reach s t) (g : Completes t) : Completes s := by
  obtain ⟨u, a, b⟩ := g
  exact ⟨u, h.trans a, b⟩

/-! ### A step of phase `q` -/

/-- Inside a step of latched phase `q`. -/
structure Stepping (clr : Bool) (q : BitVec 2) (s : State) : Prop where
  served : Served s
  ctl : s.ctl = .uops (.wait clr)
  slp : s.sch.slp = false
  xphase : s.xphase = q

/-- Halted in phase `q` with no further entry in the schedule. -/
structure Asleep (clr : Bool) (q : BitVec 2) (s : State) : Prop where
  served : Served s
  ctl : s.ctl = .asleep clr
  slp : s.sch.slp = true
  tail : Tailed s.sch
  phase : s.sch.phase = q

/-- After a terminal step `WAIT` is done (R222, R224). -/
theorem done_terminal {clr : Bool} {s : State} (hc : s.ctl = .stepDone (.wait clr)) (hs : s.sch.slp = false)
    (ht : terminalPhase s.sync s.xphase = true) : Completes s := by
  refine ⟨_, .one (t := s.boundary.setCtl .idle) ?_, rfl⟩
  rw [step_eq, hostAction_stepDone (s := s.boundary) (Sched.turn_slp hs) (c := .wait clr) hc]
  show Host.Outcome.next (waitDone clr s.boundary) = _
  unfold waitDone
  rw [if_pos (show terminalPhase s.boundary.sync s.boundary.xphase = true from ht)]

/-- After another step it starts again (R222). -/
theorem done_again {clr : Bool} {s : State} (hc : s.ctl = .stepDone (.wait clr)) (hs : s.sch.slp = false)
    (ht : terminalPhase s.sync s.xphase = false) : step s = .next (waitEnter clr s.boundary.boundary) := by
  rw [step_eq, hostAction_stepDone (s := s.boundary) (Sched.turn_slp hs) (c := .wait clr) hc]
  show Host.Outcome.next (waitDone clr s.boundary) = _
  unfold waitDone
  rw [show terminalPhase s.boundary.sync s.boundary.xphase = false from ht, if_neg (by simp)]

/-- The step ends; a short one within 146 turns. -/
theorem Stepping.ends {clr : Bool} {q : BitVec 2} {s : State} (u : Stepping clr q s) (hq : q ≠ 0) :
    ∃ t j, Reach s t ∧ Served t ∧ t.sync = s.sync ∧ t.ctl = .stepDone (.wait clr) ∧
      t.sch = turnsTaken s.sync s.par j s.sch ∧ t.sch.slp = false ∧ t.xphase = q ∧
      (s.sync = .threePhase → (q = 1 ∨ q = 2) → j ≤ 146) := by
  obtain ⟨n, t, j, h1, h2, h3, h4, h5⟩ := step_ends u.ctl u.slp u.served.store (by rw [u.xphase]; exact hq)
  rw [u.xphase] at h5
  exact ⟨t, j, ⟨n, h1⟩, u.served.of h2.cfg h2.par h2.urom (by rw [h2.par, h4]; exact u.served.armed.turns)
    (by rw [h4, turnsTaken_gie]; exact u.served.gie), h2.sync, h3, h4, by rw [h4]; exact turnsTaken_slp u.slp,
    h2.xphase.trans u.xphase, h5⟩

theorem Stepping.terminal {clr : Bool} {q : BitVec 2} {s : State} (u : Stepping clr q s) (hq : q ≠ 0)
    (ht : terminalPhase s.sync q = true) : Completes s := by
  obtain ⟨t, j, h1, -, h3, h4, -, h6, h7, -⟩ := u.ends hq
  exact .of h1 (done_terminal h4 h6 (by rw [h3, h7]; exact ht))

theorem short_phase {sync : SyncMode} {q : BitVec 2} (hq : q ≠ 0) (ht : terminalPhase sync q = false) :
    sync = .threePhase ∧ (q = 1 ∨ q = 2) ∧ isThreePhase sync = true ∧ q ≠ 3 := by
  revert ht hq
  revert q
  cases sync <;> decide

/-- A short step that begins with its share returns to sleep in the same phase. -/
theorem Stepping.quiet {clr : Bool} {q : BitVec 2} {s : State} (u : Stepping clr q s) (hq : q ≠ 0)
    (ht : terminalPhase s.sync q = false) (hk : Quiet 200 q s.sch) : ∃ t, Reach s t ∧ Asleep clr q t := by
  obtain ⟨g1, g2, -, -⟩ := short_phase hq ht
  obtain ⟨t, j, h1, h2, h3, h4, h5, h6, h7, h8⟩ := u.ends hq
  have hj := h8 g1 g2
  have k1 : Quiet 2 q t.sch := by rw [h5]; exact Quiet.turns (hk.mono (by omega))
  have k2 : Quiet 0 q t.boundary.boundary.sch := Quiet.turn (Quiet.turn k1)
  have hst := done_again h4 h6 (by rw [h3, h7]; exact ht)
  obtain ⟨r, e0, e1, e2, e3, e4, e5, -, e7, e8⟩ := waitEnter_cases clr h2.turn.turn.armed
  rw [e0] at hst
  refine ⟨r, h1.trans (.one hst), ?_⟩
  obtain ⟨c1, c2, m, c3, -⟩ := k2
  rcases e8 with ⟨f1, f2, -, f4, -⟩ | ⟨-, f3, -⟩
  · exact ⟨h2.turn.turn.of e1 e2 e3 e4 e5, f1, f2, Within.tailed (e7 0 (.inl ⟨m, c3⟩)), f4.trans c2⟩
  · rw [c1] at f3; cases f3

/-! ### A halted `WAIT` after the last entry of the schedule -/

/-- The fire is taken and wakes the host, which begins the step of the next phase with a whole share. -/
structure Woken (clr : Bool) (q : BitVec 2) (s t : State) : Prop where
  sync : t.sync = s.sync
  stepping : Stepping clr (if isThreePhase s.sync then nextPhase q else 1) t
  quiet : isThreePhase s.sync = true → Quiet 2000 (nextPhase q) t.sch

theorem Asleep.taken {clr : Bool} {q : BitVec 2} {s : State} (a : Asleep clr q s) (ht : s.sch.turns = [])
    (hk : (s.sch.tick s.par).takeable = true) : ∃ t, step s = .next t ∧ Woken clr q s t := by
  have hb : s.boundary.sch =
      { (s.sch.tick s.par).takeInterrupt s.sync s.par with turns := List.replicate hostShare [] } := by
    rw [State.boundary_sch, Sched.turn_fair ht, if_pos hk]
  have hphase : isThreePhase s.sync = true → s.boundary.sch.phase = nextPhase q := by
    intro h3
    rw [hb]
    unfold Sched.takeInterrupt Sched.isrBody
    rw [if_pos h3]
    show nextPhase (s.sch.tick s.par).phase = _
    rw [(tick_other _ _).1, a.phase]
  have hslp : s.boundary.sch.slp = false := by
    rw [hb]
    unfold Sched.takeInterrupt Sched.isrBody
    split <;> rfl
  obtain ⟨t, h1, h2, h3, h4, h5, h6, -, h8⟩ := step_woken a.served a.ctl hslp
  refine ⟨t, h1, ⟨by unfold State.sync; rw [h5], ⟨h2, h3, h4, ?_⟩, fun h => ?_⟩⟩
  · rw [h6]
    split
    · rename_i h; exact hphase h
    · rfl
  · have := h8 2046 (by rw [hb]; rfl)
    rw [hphase h] at this
    exact this.mono (by omega)

theorem Asleep.ticks {clr : Bool} {q : BitVec 2} (d : Nat) {s : State} (a : Asleep clr q s) (ht : s.sch.turns = [])
    (hd : ticksLeft s.par s.sch ≤ d) : ∃ t, Reach s t ∧ Woken clr q s t := by
  induction d generalizing s with
  | zero =>
    have := a.served.armed.range
    unfold ticksLeft at hd
    split at hd <;> omega
  | succ d ih =>
    by_cases hk : (s.sch.tick s.par).takeable = true
    · obtain ⟨t, h, w⟩ := a.taken ht hk
      exact ⟨t, .one h, w⟩
    · have ha := a.served.armed
      have hne : timerWord s.par (s.sch.tcnt + 1) ≠ s.sch.ocr := by
        intro he
        apply hk
        simp [Sched.tick, ha.trun, he, Sched.takeable, Sched.fire, ha.tie, a.served.gie]
      have htk : s.sch.tick s.par = { s.sch with tcnt := timerWord s.par (s.sch.tcnt + 1) } := by
        simp [Sched.tick, ha.trun, hne]
      have hb : s.boundary = { s with sch := { s.sch with tcnt := timerWord s.par (s.sch.tcnt + 1) } } := by
        unfold State.boundary
        rw [Sched.turn_fair ht, if_neg hk, htk]
        rfl
      have hs := a.served.turn
      rw [hb] at hs
      obtain ⟨t, r, w⟩ := ih ⟨hs, a.ctl, a.slp, ⟨0, ht⟩, a.phase⟩ ht (ticksLeft_tick ha hne hd)
      exact ⟨t, (Reach.one ((step_halted (by rw [hb]; exact a.slp)).trans (by rw [hb]))).trans r,
        ⟨w.sync, w.stepping, w.quiet⟩⟩

theorem Asleep.wakes {clr : Bool} {q : BitVec 2} (m : Nat) {s : State} (a : Asleep clr q s)
    (ht : s.sch.turns = List.replicate m []) : ∃ t, Reach s t ∧ Woken clr q s t := by
  induction m generalizing s with
  | zero => exact a.ticks _ ht (le_refl _)
  | succ m ih =>
    have hb : s.boundary = { s with sch := { s.sch with turns := List.replicate m [] } } := by
      unfold State.boundary
      rw [turn_share_succ ht]
      rfl
    have hs := a.served.turn
    rw [hb] at hs
    obtain ⟨t, r, w⟩ := ih (s := { s with sch := { s.sch with turns := List.replicate m [] } })
      ⟨hs, a.ctl, a.slp, ⟨m, rfl⟩, a.phase⟩ rfl
    exact ⟨t, (Reach.one ((step_halted (by rw [hb]; exact a.slp)).trans (by rw [hb]))).trans r,
      ⟨w.sync, w.stepping, w.quiet⟩⟩

/-- One round of the wait: it completes, or sleeps again one phase on. -/
theorem Asleep.round {clr : Bool} {q : BitVec 2} {s : State} (a : Asleep clr q s) (hq : q ≠ 0) :
    Completes s ∨ (q ≠ 2 ∧ ∃ t, Reach s t ∧ Asleep clr (nextPhase q) t) := by
  obtain ⟨m, hm⟩ := a.tail
  obtain ⟨t, r, w⟩ := a.wakes m hm
  have u := w.stepping
  by_cases h3 : isThreePhase s.sync = true
  · rw [if_pos h3] at u
    cases ht : terminalPhase t.sync (nextPhase q) with
    | true => exact .inl (.of r (u.terminal (nextPhase_ne_zero hq) ht))
    | false =>
      obtain ⟨t', r', a'⟩ := u.quiet (nextPhase_ne_zero hq) ht ((w.quiet h3).mono (by omega))
      exact .inr ⟨by rintro rfl; exact (short_phase (nextPhase_ne_zero hq) ht).2.2.2 rfl, t', r.trans r', a'⟩
  · rw [if_neg h3] at u
    exact .inl (.of r (u.terminal (by decide) (by rw [w.sync]; simp [terminalPhase, h3])))

theorem Asleep.completes {clr : Bool} {q : BitVec 2} {s : State} (a : Asleep clr q s) : Completes s := by
  have hq : q ≠ 0 := by rw [← a.phase]; exact a.served.armed.phase
  have from2 : ∀ s, Asleep clr 2 s → Completes s := fun s a => (a.round (by decide)).elim id (fun h => absurd rfl h.1)
  have from1 : ∀ s, Asleep clr 1 s → Completes s :=
    fun s a => (a.round (by decide)).elim id (fun ⟨_, t, r, a'⟩ => .of r (from2 t a'))
  have from3 : ∀ s, Asleep clr 3 s → Completes s :=
    fun s a => (a.round (by decide)).elim id (fun ⟨_, t, r, a'⟩ => .of r (from1 t a'))
  have hcases : q = 1 ∨ q = 2 ∨ q = 3 := by clear a; revert hq; revert q; decide
  rcases hcases with rfl | rfl | rfl
  · exact from1 s a
  · exact from2 s a
  · exact from3 s a

/-! ### Any position inside a `WAIT` -/

/-- Inside a `WAIT`, at any of its positions. -/
structure Waiting (clr : Bool) (s : State) : Prop where
  served : Served s
  xphase : s.xphase ≠ 0
  position : (s.ctl = .asleep clr ∧ s.sch.slp = true) ∨
    (s.sch.slp = false ∧ (s.ctl = .uops (.wait clr) ∨ s.ctl = .stepDone (.wait clr)))

/-- After a step that was not terminal the host sleeps, or begins a step with no other one due. -/
theorem waiting_again {clr : Bool} {s : State} (hs : Served s) (hx : s.xphase ≠ 0) (hslp : s.sch.slp = false)
    (hc : s.ctl = .stepDone (.wait clr)) (ht : terminalPhase s.sync s.xphase = false) :
    ∃ t, step s = .next t ∧ Waiting clr t ∧ t.ctl ≠ .stepDone (.wait clr) ∧ t.sch.nd = false ∧
      (∀ n, Within n s.sch → Within (n - 1) t.sch) := by
  have hst := done_again hc hslp ht
  obtain ⟨t, e0, e1, e2, e3, e4, e5, e6, e7, e8⟩ := waitEnter_cases clr hs.turn.turn.armed
  rw [e0] at hst
  have hw : ∀ n, Within n s.sch → Within (n - 1) t.sch :=
    fun n h => (e7 _ (Within.turn (Within.turn (k := s.sch) h))).mono (by omega)
  have ht := hs.turn.turn.of e1 e2 e3 e4 e5
  rcases e8 with ⟨f1, f2, -, -, f5⟩ | ⟨f1, -, f3, f4, -⟩
  · exact ⟨t, hst, ⟨ht, by rw [f5]; exact hx, .inl ⟨f1, f2⟩⟩, by rw [f1]; simp, e6, hw⟩
  · refine ⟨t, hst, ⟨ht, ?_, .inr ⟨f3.trans (Sched.turn_slp (Sched.turn_slp hslp)), .inl f1⟩⟩, by rw [f1]; simp, e6, hw⟩
    rw [f4]
    split
    · exact hs.turn.turn.armed.phase
    · decide

/-- After the last entry of the schedule a step with no other one due leads to the end of the `WAIT`. -/
theorem Stepping.completes {clr : Bool} {q : BitVec 2} {s : State} (u : Stepping clr q s) (hq : q ≠ 0)
    (hnd : s.sch.nd = false) (hT : Tailed s.sch) : Completes s := by
  cases ht : terminalPhase s.sync q with
  | true => exact u.terminal hq ht
  | false =>
    obtain ⟨g1, g2, g3, -⟩ := short_phase hq ht
    obtain ⟨t, j, h1, h2, h3, h4, h5, h6, h7, h8⟩ := u.ends hq
    have hj := h8 g1 g2
    have k1 : Fresh 1900 t.sch := by
      rw [h5]
      obtain ⟨m, hm⟩ := hT
      exact Fresh.turns (by unfold hostShare; omega) ⟨m, hm, fun h => by rw [hnd] at h; cases h⟩
    have k2 : Fresh 1898 t.boundary.boundary.sch := Fresh.turn (by decide) (Fresh.turn (k := t.sch) (by decide) k1)
    obtain ⟨m, c1, c2⟩ := k2
    have hst := done_again h4 h6 (by rw [h3, h7]; exact ht)
    obtain ⟨r, e0, e1, e2, e3, e4, e5, -, e7, e8⟩ := waitEnter_cases clr h2.turn.turn.armed
    rw [e0] at hst
    have hr := h1.trans (.one hst)
    have hs := h2.turn.turn.of e1 e2 e3 e4 e5
    rcases e8 with ⟨f1, f2, -⟩ | ⟨f1, -, f3, f4, f5⟩
    · exact .of hr (Asleep.completes ⟨hs, f1, f2, Within.tailed (e7 0 (.inl ⟨m, c1⟩)), rfl⟩)
    · rw [State.boundary_sync, State.boundary_sync, h3, if_pos g3] at f4
      have ur : Stepping clr t.boundary.boundary.sch.phase r :=
        ⟨hs, f1, f3.trans (Sched.turn_slp (Sched.turn_slp h6)), f4⟩
      have hq' := h2.turn.turn.armed.phase
      cases htr : terminalPhase r.sync t.boundary.boundary.sch.phase with
      | true => exact .of hr (ur.terminal hq' htr)
      | false =>
        obtain ⟨x, rx, ax⟩ := ur.quiet hq' htr (f5 200 (by omega) ⟨m, c1, fun h => by have := c2 h; omega⟩)
        exact .of (hr.trans rx) ax.completes

theorem Waiting.completes_tailed {clr : Bool} {s : State} (w : Waiting clr s) (hT : Tailed s.sch) : Completes s := by
  have undue : ∀ s, Waiting clr s → Tailed s.sch → s.sch.nd = false → s.ctl ≠ .stepDone (.wait clr) → Completes s := by
    intro s w hT hnd hc
    rcases w.position with ⟨h1, h2⟩ | ⟨h1, h2 | h2⟩
    · exact Asleep.completes ⟨w.served, h1, h2, hT, rfl⟩
    · exact Stepping.completes ⟨w.served, h2, h1, rfl⟩ w.xphase hnd hT
    · exact absurd h2 hc
  have stepDone : ∀ s, Waiting clr s → Tailed s.sch → s.sch.slp = false → s.ctl = .stepDone (.wait clr) → Completes s := by
    intro s w hT hs hc
    cases ht : terminalPhase s.sync s.xphase with
    | true => exact done_terminal hc hs ht
    | false =>
      obtain ⟨t, h1, h2, h3, h4, h5⟩ := waiting_again w.served w.xphase hs hc ht
      exact .of (.one h1) (undue t h2 (h5 0 (.inl hT)).tailed h4 h3)
  rcases w.position with ⟨h1, h2⟩ | ⟨h1, h2 | h2⟩
  · exact Asleep.completes ⟨w.served, h1, h2, hT, rfl⟩
  · have u : Stepping clr s.xphase s := ⟨w.served, h2, h1, rfl⟩
    obtain ⟨t, j, g1, g2, g3, g4, g5, g6, g7, -⟩ := u.ends w.xphase
    refine .of g1 (stepDone t ⟨g2, by rw [g7]; exact w.xphase, .inr ⟨g6, .inr g4⟩⟩ ?_ g6 g4)
    rw [g5]
    exact turnsTaken_keeps (fun _ h => h.turn) j hT
  · exact stepDone s w hT h1 h2

/-- One step of a `WAIT` uses up a turn of the schedule, if it does not complete. -/
theorem Waiting.step {clr : Bool} {s : State} (w : Waiting clr s) :
    Completes s ∨ ∃ t, Sys2Proof.Machine.step s = .next t ∧ Waiting clr t ∧ ∀ n, Within n s.sch → Within (n - 1) t.sch := by
  rcases w.position with ⟨h1, h2⟩ | ⟨h1, h2 | h2⟩
  · right
    cases hb : s.boundary.sch.slp with
    | true => exact ⟨s.boundary, step_halted hb, ⟨w.served.turn, w.xphase, .inl ⟨h1, hb⟩⟩, fun n h => Within.turn h⟩
    | false =>
      obtain ⟨t, e1, e2, e3, e4, -, e6, e7, -⟩ := step_woken w.served h1 hb
      refine ⟨t, e1, ⟨e2, ?_, .inr ⟨e4, .inl e3⟩⟩, e7⟩
      rw [e6]
      split
      · exact w.served.turn.armed.phase
      · decide
  · right
    obtain ⟨t, e1, e2, -, e4, e5⟩ := step_uop h2 h1 w.served.store w.xphase
    refine ⟨t, e1, ⟨w.served.of e2.cfg e2.par e2.urom (by rw [e2.par, e4]; exact w.served.armed.turns)
      (by rw [e4, turnsTaken_gie]; exact w.served.gie), by rw [e2.xphase]; exact w.xphase,
      .inr ⟨by rw [e4]; exact turnsTaken_slp h1, e5.elim .inr (fun h => .inl h.2)⟩⟩, fun n h => ?_⟩
    rw [e4]
    exact (Within.turns h).mono (by omega)
  · cases ht : terminalPhase s.sync s.xphase with
    | true => exact .inl (done_terminal h2 h1 ht)
    | false =>
      obtain ⟨t, a, b, -, -, e⟩ := waiting_again w.served w.xphase h1 h2 ht
      exact .inr ⟨t, a, b, e⟩

theorem Waiting.completes {clr : Bool} (n : Nat) {s : State} (w : Waiting clr s) (h : Within n s.sch) : Completes s := by
  induction n generalizing s with
  | zero => exact w.completes_tailed h.tailed
  | succ n ih =>
    rcases w.step with hc | ⟨t, h1, h2, h3⟩
    · exact hc
    · exact .of (.one h1) (ih h2 (h3 _ h))

/-- R292: a `WAIT` that is not hung (R285: the timer runs and its interrupt is enabled) completes, from every legal state over
the built store, for every configuration and every schedule. -/
theorem wait_completes {s : State} {clr : Bool} (hl : Legal s) (hu : s.urom = microStore s.par s.sync)
    (hrun : s.sch.trun = true) (hie : s.sch.tie = true)
    (hc : s.ctl = .asleep clr ∨ s.ctl = .uops (.wait clr) ∨ s.ctl = .stepDone (.wait clr)) :
    ∃ n t, Host.Core.run Sys2Proof.core n s = .next t ∧ t.ctl = .idle := by
  obtain ⟨h1, -, h3⟩ := hl.host
  have hidle : s.ctl ≠ .idle := by rintro e; rw [e] at hc; simp at hc
  have awake : (∀ c, s.ctl ≠ .asleep c) → s.sch.slp = false := by
    intro h
    cases hs : s.sch.slp
    · rfl
    · obtain ⟨c, e⟩ := h1.mp hs; exact absurd e (h c)
  have w : Waiting clr s := by
    refine ⟨⟨hu, ⟨hrun, hie, hl.timer, hl.sequencer.1⟩, h3 hidle⟩, hl.sequencer.2.1, ?_⟩
    rcases hc with hc | hc | hc
    · exact .inl ⟨hc, h1.mpr ⟨clr, hc⟩⟩
    · exact .inr ⟨awake (by rw [hc]; simp), .inl hc⟩
    · exact .inr ⟨awake (by rw [hc]; simp), .inr hc⟩
  obtain ⟨t, ⟨n, hn⟩, ht⟩ := w.completes _ (.inr (le_refl s.sch.turns.length))
  exact ⟨n, t, hn, ht⟩

end Sys2Proof.Laws.Fair
end

