-- ==== Sys2Proof/Laws/WellFormed.lean ====
section
/-! SUPPORT. What the static checks of a configuration give (R293). -/

namespace Sys2Proof

theorem Params.reloadOk_iff (p : Params) (sync : SyncMode) (ticks : Nat) :
    p.reloadOk sync ticks = true ↔
      1 ≤ ticks ∧ ticks < 2 ^ p.tw ∧ (sync = .threePhase → 2 * p.delayShort < ticks) := by
  cases sync <;> simp [Params.reloadOk, and_assoc]

/-- A checked configuration has an admitted reload value for `REFRESH_HZ`, whether its table has the rate or not. -/
theorem Params.wellFormed_refresh {p : Params} {mode : GrayMode} {sync : SyncMode} (h : p.wellFormed mode sync = true) :
    1 ≤ Machine.reload p p.refreshHz ∧ Machine.reload p p.refreshHz < 2 ^ p.tw ∧
      (sync = .threePhase → 2 * p.delayShort < Machine.reload p p.refreshHz) := by
  simp only [Params.wellFormed, Bool.and_eq_true] at h
  exact (Params.reloadOk_iff p sync _).mp h.1.1.2

end Sys2Proof
end

