-- ==== Sys2Proof/Machine/Assembler.lean ====
section
/-! DEFINITION. The spec's textual form (rule R108) and the pseudo-operations (rule R109). The machine reads neither. -/

namespace Sys2Proof.Machine

/-- A number in decimal. -/
def asmNum {n : Nat} (v : BitVec n) : String := toString v.toNat
/-- A one-bit operand. -/
def asmBit (e : Bool) : String := if e then "1" else "0"
/-- A mnemonic and its operands, separated by commas. -/
def asmLine (mnemonic : String) (operands : List String) : String :=
  match operands with
  | [] => mnemonic
  | _ => mnemonic ++ " " ++ String.intercalate ", " operands

/-- One operation in the syntax of rule R108. -/
def assembly : Instr → String
  | .mapc p c => asmLine "MAPC" [asmNum p, asmNum c]
  | .mapr p c => asmLine "MAPR" [asmNum p, asmNum c]
  | .pxw x y c => asmLine "PXW" [asmNum x, asmNum y, asmNum c]
  | .start => asmLine "START" []
  | .wait clr => asmLine "WAIT" [asmBit clr]
  | .poll clr => asmLine "POLL" [asmBit clr]
  | .needupd => asmLine "NEEDUPD" []
  | .getplane => asmLine "GETPLANE" []
  | .setcon v => asmLine "SETCON" [asmNum v]
  | .setupd n d => asmLine "SETUPD" [asmNum n, asmNum d]
  | .sethz hz => asmLine "SETHZ" [asmNum hz]
  | .tiew e => asmLine "TIEW" [asmBit e]
  | .fbwr addr data => asmLine "FBWR" [asmNum addr, asmNum data]
  | .fbrd addr => asmLine "FBRD" [asmNum addr]
  | .uEnd => asmLine "U_END" []
  | .uCon => asmLine "U_CON" []
  | .uRow r => asmLine "U_ROW" [asmNum r]
  | .uPtr col page => asmLine "U_PTR" [asmNum col, asmNum page]
  | .uXfer page pages mask ce => asmLine "U_XFER" [asmNum page, asmNum pages, asmNum mask, asmBit ce]
  | .uSlow e => asmLine "U_SLOW" [asmBit e]
  | .uAdv => asmLine "U_ADV" []

/-- The pseudo-operations of rule R109. -/
inductive Pseudo where
  | pause
  | resume
  | setupdn (n : Byte)
  | clrfb
  | nextframe
  deriving DecidableEq, Repr

/-- Their expansions (rule R109). -/
def expandPseudo : Pseudo → List Instr
  | .pause => [.tiew false]
  | .resume => [.tiew true]
  | .setupdn n => [.setupd n 1]
  | .clrfb => (List.range 1024).map (fun a => .fbwr (BitVec.ofNat 10 a) 0)
  | .nextframe => [.poll false]

end Sys2Proof.Machine
end

