-- ==== Sys2Proof/Tests/Slice0.lean ====
section
/-! SUPPORT. Tests on the spec's own vectors (95_test_vectors.md) and the witnesses of the obligations' hypotheses. -/

namespace Sys2Proof.Tests

open Sys2Proof.Machine Sys2Proof.Safety

/-! ### The example configuration (95_test_vectors.md section 0) -/

/-- `CFG_EX`. Its `SLOW_*`, `ENC_*` and `T_BYTE` values are arbitrary: no vector shows them. -/
def cfgEx : Params where
  refreshHz := 156
  un0 := 1
  ud0 := 1
  prechargeCycles := 3
  dischargeCycles := 1
  defaultContrast := 0xFF
  xferOrder := .desc
  parkPage := .page7
  maskP2 := 0x7F
  maskP3A := 0xFF
  maskP3C := 0xFF
  maskMain := 0xFF
  maskPark2P := 0x7F
  maskParkSD := 0xFF
  rowPark3P := 56
  rowParkSD := 63
  parkPtrCol := 0
  parkPtrPage := 0
  contrastTrick := none
  planeContrast := [0x20, 0xFF]
  slowEnterCmds := [0xD5]
  slowExitCmds := [0xD5]
  encReorient := [0xA1, 0xC8]
  encPrecharge := [((1, 3), [0xD9, 0x31])]
  encContrast := [(0x80, [0x81, 0x80])]
  encRowstart := []
  encPtr := []
  startCmds := none
  tw := 16
  reloadTable := [(156, 1602), (135, 1851)]
  delayShort := 100
  invalidCombos := []
  tByte := 18

/-- The block of `CFG_EX` right after reset, by the codes of `MODE` and `SYNC`. -/
def block (mode sync : BitVec 2) : State := State.resetWith ((0 : BitVec 2) ++ sync ++ mode) cfgEx

/-- `LEVEL3`, `PARK_ROW`. -/
def level3 : State := block 2 1
/-- `CONTRAST4`, `PARK_ROW`. -/
def contrast4 : State := block 0 1
/-- `TRIPLANE4`, `THREE_PHASE`. -/
def triplane4 : State := block 1 0
/-- `LEVEL3`, `SLOW_DRIVE`. -/
def slowDrive : State := block 2 2

/-- A field of the next state, if there is one. -/
def after {α : Type} (f : State → α) : Host.Outcome State Fault Refusal → Option α
  | .next t => some (f t)
  | _ => none

/-- The host presents one word. -/
def presenting (w : Word24) (s : State) : State := { s with hostActs := [.word w] }

/-- One step on a presented word, and a field of what it leaves. -/
def hostStep {α : Type} (w : Word24) (s : State) (f : State → α) : Option α := after f (step (presenting w s))

/-- A step of a `POLL` in progress, at micro-op `upc` of latched phase `q`. -/
def inStep (q : BitVec 2) (upc : BitVec 4) (s : State) : State := { s with ctl := .uops .poll, xphase := q, upc := upc }

/-- The scheduler with the asynchronous steps that fall before the next host action. -/
def withTurn (steps : List AsyncStep) (s : State) : State := { s with sch := { s.sch with turns := [steps] } }

/-- The timer running and its interrupt enabled, as `START` leaves them. -/
def running (s : State) : State :=
  { s with started := true, sch := { s.sch with trun := true, tie := true, ocr := 100 } }

/-- A step is due. -/
def due (s : State) : State := { s with sch := { s.sch with nd := true } }

/-- A `WAIT` halted in its sleep. -/
def asleep (s : State) : State := { s with ctl := .asleep true, sch := { s.sch with slp := true, se := true } }

/-! ### The static checks, each with a term it refuses -/

theorem test_wellFormed_example : cfgEx.wellFormed .contrast4 .threePhase = true := by decide
theorem test_wellFormed_port : Instr.wellFormedAt .host .uAdv = false ∧ Instr.wellFormedAt .urom .start = false := by decide
theorem test_wellFormed_delay_zero : Params.wellFormed { cfgEx with delayShort := 0 } .contrast4 .parkRow = false := by decide
/-- R293 bounds `DELAY_SHORT` from above under `THREE_PHASE` only. -/
theorem test_wellFormed_delay_wide : Params.wellFormed { cfgEx with delayShort := 65536 } .contrast4 .threePhase = false ∧
    Params.wellFormed { cfgEx with delayShort := 65536 } .contrast4 .parkRow = true := by decide
theorem test_wellFormed_rate_zero : Params.wellFormed { cfgEx with refreshHz := 0 } .contrast4 .parkRow = false := by decide
theorem test_wellFormed_reload_zero : Params.wellFormed { cfgEx with reloadTable := [(156, 0)] } .contrast4 .parkRow = false := by decide
theorem test_wellFormed_reload_wide : Params.wellFormed { cfgEx with reloadTable := [(156, 65536)] } .contrast4 .parkRow = false := by decide
theorem test_wellFormed_reload_short : Params.wellFormed { cfgEx with reloadTable := [(156, 200)] } .contrast4 .threePhase = false := by decide
theorem test_wellFormed_contrast_table : Params.wellFormed cfgEx .triplane4 .parkRow = false := by decide

/-! ### Decoding: the words of V1 -/

theorem test_decode_mapper :
    decode .host 0x010102 = .ok (.mapc 1 2) ∧ decode .host 0x020303 = .ok (.mapr 3 3) ∧
    decode .host 0x03054C = .ok (.pxw 5 12 1) ∧ decode .host 0x037FF8 = .ok (.pxw 127 56 3) ∧
    decode .host 0x030080 = .ok (.pxw 0 0 2) := by decide
theorem test_decode_sync :
    decode .host 0x100000 = .ok .start ∧ decode .host 0x110001 = .ok (.wait true) ∧
    decode .host 0x120000 = .ok (.poll false) ∧ decode .host 0x130000 = .ok .needupd ∧
    decode .host 0x140000 = .ok .getplane := by decide
theorem test_decode_settings :
    decode .host 0x200080 = .ok (.setcon 0x80) ∧ decode .host 0x210302 = .ok (.setupd 3 2) ∧
    decode .host 0x22009C = .ok (.sethz 156) ∧ decode .host 0x230001 = .ok (.tiew true) := by decide
theorem test_decode_frame_buffer :
    decode .host 0x83FFA5 = .ok (.fbwr 1023 0xA5) ∧ decode .host 0x8380F0 = .ok (.fbwr 896 0xF0) ∧
    decode .host 0x848500 = .ok (.fbrd 133) ∧ decode .host 0x87FF00 = .ok (.fbrd 1023) := by decide
theorem test_decode_micro_ops :
    decode .urom 0x400000 = .ok .uEnd ∧ decode .urom 0x410000 = .ok .uCon ∧ decode .urom 0x420038 = .ok (.uRow 56) ∧
    decode .urom 0x43077F = .ok (.uPtr 127 7) ∧ decode .urom 0x44B8FF = .ok (.uXfer 0 7 0xFF true) ∧
    decode .urom 0x440F7F = .ok (.uXfer 7 1 0x7F false) ∧ decode .urom 0x450001 = .ok (.uSlow true) ∧
    decode .urom 0x460000 = .ok .uAdv := by decide
theorem test_decode_illegal_ranges :
    [0x00, 0x04, 0x0F, 0x15, 0x1F, 0x24, 0x3F, 0x47, 0x7F, 0x88, 0xFF].all
      (fun op => decode .host (hab (BitVec.ofNat 8 op) 0 0) == .illegalOpcode) = true := by decide
theorem test_decode_reserved :
    decode .host 0x010400 = .reservedField ∧ decode .host 0x038000 = .reservedField ∧
    decode .host 0x100001 = .reservedField ∧ decode .host 0x110002 = .reservedField ∧
    decode .host 0x848501 = .reservedField ∧ decode .urom 0x420040 = .reservedField := by decide
theorem test_decode_wrong_port :
    decode .host 0x460000 = .wrongPort ∧ decode .urom 0x100000 = .wrongPort ∧ decode .urom 0x000000 = .illegalOpcode := by decide
theorem test_encode_words :
    encode (.pxw 5 12 1) = 0x03054C ∧ encode (.sethz 135) = 0x220087 ∧ encode (.fbwr 896 0xF0) = 0x8380F0 ∧
    encode (.uXfer 7 1 0x7F true) = 0x448F7F := by decide
theorem test_decodeBytes : decodeBytes .host [0x21, 0x03, 0x02, 0x99] = .word (.ok (.setupd 3 2)) [0x99] ∧
    decodeBytes .host [0x21, 0x03] = .truncated := by decide
theorem test_decodeTableWord : decodeTableWord 24 0x44B8FF = some (.uXfer 0 7 0xFF true) ∧
    decodeTableWord 24 0x100000 = some .start ∧ decodeTableWord 24 0x000000 = none := by decide
/-- `GETPLANE` is the first instruction after reset. -/
theorem test_withFetchWord_host :
    after (fun t => (t.ret, t.hostActs)) (step (State.reset.withFetchWord 24 0x140000)) = some (0, []) := by decide
/-- `U_ADV` is the next micro-op fetched. -/
theorem test_withFetchWord_urom :
    after (fun t => (t.plane, t.upc)) (step (triplane4.withFetchWord 24 0x460000)) = some (1, 1) := by decide

/-! ### Faults at the host port and at `UROM` (V1, R250, R251) -/

theorem test_fault_illegal : hostStep 0x000000 level3 (fun t => t) = some { level3 with err := 1 } := by decide
theorem test_fault_reserved :
    hostStep 0x100001 level3 (fun t => (t.err, t.started, t.log)) = some (2, false, []) := by decide
/-- `0x000000` then `0x010201`: the first fault wins. -/
theorem test_fault_first_wins :
    hostStep 0x010201 { level3 with err := 1 } (fun t => (t.err, t.ret)) = some (1, 0) := by decide
theorem test_fault_bad_uop :
    after (fun t => (t.err, t.ctl)) (step (inStep 1 0 { level3 with urom := [0x420040] })) =
      some (5, .stepDone .poll) := by decide
/-- A reserved gray-mode strap: `ERR = 6` and every word is refused. -/
theorem test_fault_bad_config :
    (block 3 1).err = 6 ∧ hostStep 0x200080 (block 3 1) (fun t => (t.err, t.con, t.log)) = some (6, 0xFF, []) := by decide

/-! ### U1, the mapper (V2, V3) -/

theorem test_mapc_light_gray : hostStep 0x010002 contrast4 (·.ret) = some 0 := by decide
theorem test_mapc_plane_range : hostStep 0x010201 level3 (fun t => (t.err, t.ret)) = some (3, 0) := by decide
theorem test_mapr_past_last_plane : hostStep 0x020301 level3 (·.ret) = some 0 := by decide
theorem test_mapr_third_plane : hostStep 0x020203 triplane4 (·.ret) = some 1 := by decide
theorem test_lookup_table : lutBit 0x8CE 2 3 = true ∧ lutBit 0x8CE 2 2 = false ∧ lutBit 0x0CA 0 2 = false ∧
    lutBit 0x0CA 0 1 = true := by decide
/-- Bit 0 of 0x80 is set, the others kept. -/
theorem test_pxw_sets :
    hostStep 0x037FF8 { level3 with fb := [(1023, 0x80)] } (·.fb) = some [(1023, 0x81)] := by decide
/-- `LIGHT_GRAY` is unlit on plane 0 of `CONTRAST4`. -/
theorem test_pxw_clears :
    hostStep 0x030080 { contrast4 with fb := [(0, 0xFF)] } (·.fb) = some [(0, 0xFE)] := by decide

/-! ### U2, the transfer engine (V4) -/

theorem test_fbwr : hostStep 0x8380F0 level3 (·.fb) = some [(896, 0xF0)] := by decide
theorem test_fbrd : hostStep 0x878000 { level3 with fb := [(896, 0xF0)] } (·.ret) = some 0xF0 := by decide
set_option maxRecDepth 20000 in
/-- `XFER(7, 1, 0x7F, 0)` descending: first 0xA5 AND 0x7F, last 0xF0 AND 0x7F, with `DORD` 1 for each and 0 after. -/
theorem test_uXfer_desc :
    after (fun t => (t.log.length, t.log.getLast?, t.log.head?, t.dord))
      (exec (.uXfer 7 1 0x7F false) { level3 with fb := [(896, 0xF0), (1023, 0xA5)] }) =
      some (128, some (.data 0x25 true), some (.data 0x70 true), false) := by decide
theorem test_uXfer_range : after (fun t => (t.err, t.log)) (exec (.uXfer 2 7 0xFF false) level3) = some (5, []) := by decide

/-! ### U4, the scheduler (V5) -/

/-- Fire and ISR from phase 3, then from phase 1. -/
theorem test_isr_phase1 :
    (withTurn [.fire, .entry] (running triplane4)).boundary.sch =
      { (running triplane4).sch with phase := 1, ocr := 100, nd := true } := by decide
theorem test_isr_phase2 :
    let s := running { triplane4 with sch := { triplane4.sch with phase := 1 } }
    (withTurn [.fire, .entry] s).boundary.sch = { s.sch with phase := 2, ocr := 1402, nd := true } := by decide
theorem test_isr_park_row :
    (withTurn [.fire, .entry] (running level3)).boundary.sch =
      { (running level3).sch with phase := 3, ocr := 1602, nd := true } := by decide
/-- `TIEW 0; FIRE; FIRE`: `TIF` is set, nothing is taken. -/
theorem test_isr_disabled :
    let s := running triplane4
    let paused := { s with sch := { s.sch with tie := false } }
    (withTurn [.fire, .entry, .fire, .entry] paused).boundary.sch = { paused.sch with tif := true } := by decide
/-- The tick that reaches `OCR` fires; the one before does not. -/
theorem test_tick : (Sched.tick cfgEx { (running triplane4).sch with tcnt := 99 }).tif = true ∧
    (Sched.tick cfgEx { (running triplane4).sch with tcnt := 98 }).tcnt = 99 := by decide
theorem test_tiew : hostStep 0x230001 level3 (·.sch.tie) = some true := by decide
theorem test_sethz : hostStep 0x220087 level3 (fun t => (t.sch.tcr, t.sch.ocr)) = some (1851, 0) := by decide

/-- After the last entry of the schedule a turn ticks: tick 100 fires, the interrupt is taken, and the host has its share of
turns: no tick falls into the next one. -/
theorem test_fair_turn :
    let s := running { triplane4 with sch := { triplane4.sch with tcnt := 99 } }
    (s.boundary.sch.tcnt, s.boundary.sch.phase, s.boundary.sch.ocr, s.boundary.sch.nd) = (0, 1, 100, true) ∧
      s.boundary.boundary.sch.tcnt = 0 := by decide

/-! ### U3, the micro-ops and the store (V6) -/

theorem test_uEnd : after (·.ctl) (step (inStep 1 3 triplane4)) = some (.stepDone .poll) := by decide
theorem test_uCon : after (·.log) (step (inStep 1 0 { contrast4 with plane := 1 })) = some [.cmd (.contrast 0xFF)] := by decide
theorem test_uCon_off : after (·.log) (step (inStep 1 0 level3)) = some [] := by decide
theorem test_uRow : after (·.log) (step (inStep 1 1 triplane4)) = some [.cmd (.rowstart 56)] := by decide
theorem test_uPtr : after (·.log) (exec (.uPtr 127 7) level3) = some [.cmd (.ptr 127 7)] := by decide
theorem test_uSlow : after (·.log) (step (inStep 1 1 slowDrive)) = some [.cmd (.slow true)] := by decide
theorem test_uAdv_wraps :
    after (fun t => (t.plane, t.ucnt)) (exec .uAdv { triplane4 with plane := 2, ucnt := 5, ud := 2 }) = some (0, 7) := by decide
theorem test_uAdv_overflow :
    after (fun t => (t.plane, t.ucnt)) (exec .uAdv { level3 with plane := 1, ucnt := 250, ud := 10 }) = some (0, 4) := by decide
theorem test_store_three_phase :
    microStore cfgEx .threePhase =
      [0x410000, 0x420038, 0x430000, 0x400000] ++ List.replicate 12 0x400000 ++
      [0x440F7F, 0x430000, 0x400000] ++ List.replicate 13 0x400000 ++
      [0x430000, 0x440FFF, 0x420000, 0x44B8FF, 0x448FFF, 0x460000, 0x400000] ++ List.replicate 9 0x400000 := by decide
theorem test_store_park_row :
    microStore cfgEx .parkRow =
      [0x410000, 0x448F7F, 0x42003F, 0x44B8FF, 0x420000, 0x460000] ++ List.replicate 42 0x400000 := by decide
theorem test_store_slow_drive :
    microStore cfgEx .slowDrive =
      [0x410000, 0x450001, 0x448FFF, 0x42003F, 0x44B8FF, 0x420000, 0x450000, 0x460000] ++
        List.replicate 40 0x400000 := by decide

/-! ### Host synchronisation and pacing (V7) -/

theorem test_start :
    hostStep 0x100000 triplane4 (fun t => (t.bus, t.sch.ocr, t.sch.trun, t.sch.tie, t.started)) =
      some ([.cmd .reorient, .cmd (.precharge 1 3), .cmd (.contrast 0xFF), .cmd (.rowstart 0), .cmd (.ptr 0 0)],
        100, true, true, true) := by decide
theorem test_start_twice : hostStep 0x100000 (running triplane4) (fun t => (t.err, t.log)) = some (4, []) := by decide
/-- `WAIT 0` before `START`. -/
theorem test_wait_halts :
    hostStep 0x110000 level3 (fun t => (t.sch.slp, t.sch.se, t.sch.gie, t.ctl)) =
      some (true, true, true, .asleep false) := by decide
/-- A fire and its interrupt wake the host, which begins the step of the phase entered. -/
theorem test_wait_wakes :
    after (fun t => (t.ctl, t.xphase, t.sch.nd, t.sch.se, t.sch.slp))
      (step (withTurn [.fire, .entry] (asleep (running triplane4)))) =
      some (.uops (.wait true), 1, false, false, false) := by decide
/-- A pending interrupt is not taken inside `W0` to `W3`: the host halts and the entry wakes it after. -/
theorem test_wait_is_masked :
    after (fun t => (t.sch.tif, t.sch.slp, t.sch.nd)) (exec (.wait false) (withTurn [.fire, .entry] (running level3))) =
      some (true, true, false) := by decide
theorem test_poll_no_step : hostStep 0x120001 level3 (fun t => t) = some level3 := by decide
theorem test_poll_terminal :
    after (fun t => (t.ret, t.ctl)) (step { (running level3) with ctl := .stepDone .poll }) = some (0x03, .idle) := by decide
theorem test_needupd : hostStep 0x130000 { level3 with ucnt := 3, un := 2 } (fun t => (t.ret, t.ucnt)) = some (1, 1) := by decide
theorem test_needupd_short : hostStep 0x130000 { level3 with ucnt := 1, un := 2 } (fun t => (t.ret, t.ucnt)) = some (0, 1) := by decide
theorem test_getplane : hostStep 0x140000 { triplane4 with plane := 2 } (·.ret) = some 2 := by decide
theorem test_setcon : hostStep 0x200080 level3 (fun t => (t.con, t.log)) = some (0x80, [.cmd (.contrast 0x80)]) := by decide
theorem test_setupd :
    hostStep 0x210302 { level3 with ucnt := 7 } (fun t => (t.un, t.ud, t.ucnt)) = some (3, 2, 0) := by decide
theorem test_receiver : receivedByte 0x25 true = 0xA4 ∧ receivedByte 0x70 true = 0x0E ∧ receivedByte 0x01 false = 0x01 := by decide
theorem test_wire :
    wireLog cfgEx [.cmd (.contrast 0x80), .data 0x25 true, .cmd (.precharge 1 3)] =
      [⟨false, false, 0x81⟩, ⟨false, false, 0x80⟩, ⟨true, true, 0x25⟩, ⟨false, false, 0xD9⟩, ⟨false, false, 0x31⟩] := by decide
theorem test_wire_slow : wireLog cfgEx [.cmd .reorient, .cmd (.slow true)] =
    [⟨false, false, 0xA1⟩, ⟨false, false, 0xC8⟩, ⟨false, false, 0xD5⟩] := by decide
theorem test_assembly : assembly (.uXfer 7 1 0x7F false) = "U_XFER 7, 1, 127, 0" := by decide

/-! ### Witnesses: states and operands that meet every hypothesis of an obligation together

Each is named after its obligation; `_1`, `_2` number the clauses. -/

/-- A legal state in the middle of a run: started, plane 1, phase 2, a step in progress, bytes in the buffer. -/
def midRun : State :=
  { inStep 2 1 (running triplane4) with
    plane := 1
    sch := { (running triplane4).sch with phase := 2, tcnt := 40 }
    ucnt := 3
    fb := [(133, 0x10), (1023, 0xA5)]
    log := [.cmd (.rowstart 56)] }

/-- Started under `PARK_ROW`, with bytes in the buffer, a step due and fires falling into it; the host then presents `w`. -/
def polling (sync : BitVec 2) (w : Word24) : State :=
  { presenting w (due (running (block 2 sync))) with
    fb := [(133, 0x10), (1023, 0xA5)]
    sch := { (due (running (block 2 sync))).sch with turns := [[], [.fire, .entry], [.tick]] } }

theorem midRun_legal : Legal midRun where
  plane := .inr (by decide)
  sequencer := ⟨by decide, by decide, by decide⟩
  timer := ⟨by decide, by decide, by decide⟩
  unstarted := fun h => absurd h (by decide)
  host := ⟨by decide, by decide, fun _ => by decide⟩
  spi := ⟨by decide, by decide⟩
  fault := ⟨by decide, by decide⟩
  memory := by decide

theorem witness_EncodeOfDecode :
    decode .host 0x037FFF = .ok (.pxw 127 63 3) ∧ decode .urom 0x44B8FF = .ok (.uXfer 0 7 0xFF true) := by decide
theorem witness_RowsAreSelectedByMatchAndMask : rowPxw ∈ opcodeMap ∧ rowFbrd ∈ opcodeMap := by simp [opcodeMap]
theorem witness_IllegalOpcodesAreTheListedRanges :
    decode .host 0x0FFFFF = .illegalOpcode ∧ decode .host 0x100000 ≠ .illegalOpcode ∧
    decode .urom 0x470000 = .illegalOpcode ∧ decode .urom 0x468000 ≠ .illegalOpcode ∧
    decode .host 0x880000 = .illegalOpcode ∧ decode .host 0x87FF00 ≠ .illegalOpcode := by decide

theorem witness_StepRunsPresentedWord :
    let s := presenting 0x03054C (withTurn [.fire, .entry] (running level3))
    s.boundary.sch.slp = false ∧ s.ctl = .idle ∧ s.hostActs = .word 0x03054C :: [] ∧ s.err ≠ 6 ∧
      decode .host 0x03054C = .ok (.pxw 5 12 1) := by decide
theorem witness_StepRunsFetchedMicroOp :
    let s := withTurn [.fire, .entry] midRun
    s.boundary.sch.slp = false ∧ s.ctl = .uops .poll ∧
      s.urom[((s.xphase - 1) ++ s.upc : BitVec 6).toNat]? = some 0x430000 ∧
      decode .urom 0x430000 = .ok (.uPtr 0 0) := by decide
theorem witness_RefusedHostWordsOnlyWriteErr_1 :
    let s := presenting 0x400000 level3
    s.boundary.sch.slp = false ∧ s.ctl = .idle ∧ s.hostActs = .word 0x400000 :: [] ∧ s.err ≠ 6 ∧
      0x40 ≤ (opField 0x400000).toNat ∧ (opField 0x400000).toNat ≤ 0x46 ∧ decode .host 0x880000 = .illegalOpcode := by decide
theorem witness_RefusedHostWordsOnlyWriteErr_2 :
    rowPxw ∈ opcodeMap ∧ rowPxw.port = .host ∧ (0x038000 : Word24) &&& rowPxw.mask = rowPxw.pattern ∧
      (0x038000 : Word24) &&& rowPxw.mbz ≠ 0 := ⟨by simp [opcodeMap], by decide, by decide, by decide⟩
theorem witness_RefusedMicroWordsEndTheStep :
    let s := inStep 1 0 { level3 with urom := [0x100000] }
    s.boundary.sch.slp = false ∧ s.ctl = .uops .poll ∧
      s.urom[((s.xphase - 1) ++ s.upc : BitVec 6).toNat]? = some 0x100000 ∧ ∀ i, decode .urom 0x100000 ≠ .ok i := by
  refine ⟨by decide, by decide, by decide, fun i => ?_⟩
  rw [show decode .urom 0x100000 = .wrongPort from by decide]
  exact Decoded.noConfusion
theorem witness_DisabledBlockRefusesEveryWord :
    let s := presenting 0x200080 (block 3 1)
    s.ctl = .idle ∧ s.hostActs = .word 0x200080 :: [] ∧ s.err = 6 ∧ s.boundary.sch.slp = false := by decide
theorem witness_SleepingHostTakesNoAction : (withTurn [.tick, .fire] (asleep (running level3))).boundary.sch.slp = true := by decide

theorem witness_MapperIsItsLookupTable : lutWord .triplane4 = some 0x8CE ∧ (2 : BitVec 2).toNat < nplanes .triplane4 := by decide
theorem witness_MapcReturnsThePixel :
    (contrast4.mode = .contrast4 ∧ (1 : BitVec 2).toNat < 2) ∧ (level3.mode = .level3 ∧ (1 : BitVec 2).toNat < 2) ∧
    (triplane4.mode = .triplane4 ∧ (2 : BitVec 2).toNat < 3) ∧
    (level3.mode = .level3 ∧ 2 ≤ (2 : BitVec 2).toNat ∧ level3.ctl = .idle) ∧
    (triplane4.mode = .triplane4 ∧ (3 : BitVec 2).toNat = 3 ∧ triplane4.ctl = .idle) := by decide
theorem witness_MaprReturnsThePixel :
    contrast4.mode = .contrast4 ∧ level3.mode = .level3 ∧ triplane4.mode = .triplane4 := by decide
theorem witness_PxwWritesOnePixel : midRun.fb.wf = true ∧ Memory.wf [(0, 0xFF), (1023, 0x80)] = true := by decide

/-- The last page alone, and the whole buffer. -/
theorem witness_UXferSendsThePages :
    1 ≤ (1 : BitVec 4).toNat ∧ (7 : BitVec 3).toNat + (1 : BitVec 4).toNat ≤ 8 ∧
    (0 : BitVec 3).toNat + (8 : BitVec 4).toNat ≤ 8 ∧ midRun.fb.wf = true := by decide
theorem witness_UXferOutsideTheBufferIsRefused :
    8 < (2 : BitVec 3).toNat + (7 : BitVec 4).toNat ∧ (0 : BitVec 4) = 0 ∧ midRun.ctl = .uops .poll := by decide
theorem witness_FrameBufferBytesAreStoredAndReturned : midRun.fb.wf = true ∧ level3.fb.wf = true := by decide

theorem witness_TimerFiresAfterOcrTicks :
    let k : Sched := { (running level3).sch with ocr := 65535 }
    k.trun = true ∧ k.tcnt = 0 ∧ 1 ≤ k.ocr ∧ k.ocr < 2 ^ cfgEx.tw ∧ 1 ≤ { k with ocr := 1 }.ocr := by decide
/-- Phases 3, 1 and 2. -/
theorem witness_InterruptAdvancesThePhase :
    ([3, 1, 2] : List (BitVec 2)).all (fun q =>
      let k : Sched := { (running triplane4).sch with phase := q, tif := true, turns := [[.entry]] }
      k.tif && k.tie && k.gie && k.turns == [.entry] :: [] && decide (cfgEx.delayShort < 2 ^ cfgEx.tw) &&
        decide (2 * cfgEx.delayShort < k.tcr) && decide (k.tcr < 2 ^ cfgEx.tw) && k.phase == q) = true := by decide
theorem witness_InterruptOfTheTwoPhaseProtocols :
    let k : Sched := { (running level3).sch with tif := true, turns := [[.entry]] }
    level3.sync = .parkRow ∧ slowDrive.sync = .slowDrive ∧ k.tif = true ∧ k.tie = true ∧ k.gie = true ∧
      k.turns = [.entry] :: [] := by decide
theorem witness_MaskedInterruptIsHeld :
    ((running level3).setGie false).sch.gie = false ∧ level3.sch.tie = false ∧
      { (running level3).sch with tif := true }.tif = true := by decide
theorem witness_AsynchronousStepsStayInTheScheduler : (due level3).sch.nd = true ∧ level3.sch.slp = false := by decide
/-- A takeable interrupt with a schedule still to run; a running timer at the largest count and compare value; a `WAIT`
asleep after the schedule. -/
theorem witness_EnabledInterruptsComeAndAreTaken :
    ({ (running level3).sch with tif := true, turns := [[], [.tick]] } : Sched).takeable = true ∧
    (let k : Sched := { (running level3).sch with tcnt := 65535, ocr := 65535 }
     k.trun = true ∧ k.tif = false ∧ k.nd = false ∧ k.tcnt < 2 ^ cfgEx.tw ∧ k.ocr < 2 ^ cfgEx.tw) ∧
    (let s := asleep (running triplane4)
     s.ctl = .asleep true ∧ s.sch.slp = true ∧ s.sch.trun = true ∧ s.sch.tie = true ∧ s.sch.gie = true ∧
       s.sch.tcnt < 2 ^ s.par.tw ∧ s.sch.ocr < 2 ^ s.par.tw) := by decide
theorem witness_TimerCommandsWriteOneRegister :
    reload cfgEx (156 : BitVec 16).toNat < 2 ^ cfgEx.tw ∧ reload cfgEx (135 : BitVec 16).toNat = 1851 := by decide

theorem witness_UConWritesThePlaneContrast :
    (contrast4.par.contrastTrick = none ∧ contrast4.mode = .contrast4 ∧
      contrast4.par.planeContrast[contrast4.plane.toNat]? = some 0x20) ∧
    (level3.par.contrastTrick = none ∧ level3.mode ≠ .contrast4) ∧
    { cfgEx with contrastTrick := some true }.contrastTrick = some true ∧
    { cfgEx with contrastTrick := some false }.contrastTrick = some false := by decide
theorem witness_UAdvAdvancesThePlane :
    let s := { triplane4 with plane := 2 }
    s.mode ≠ .reserved ∧ s.plane.toNat < nplanes s.mode ∧ s.plane.toNat + 1 = nplanes s.mode ∧
      midRun.plane.toNat + 1 ≠ nplanes midRun.mode := by decide
theorem witness_UEndEndsTheStep : midRun.ctl = .uops .poll := by decide

/-- Under `THREE_PHASE`, where the delay has to fit, and under `PARK_ROW` with a delay that does not. -/
theorem witness_StartArmsTheEngine :
    (triplane4.started = false ∧ triplane4.sch.trun = false ∧ triplane4.sch.tif = false ∧
      (triplane4.sync = .threePhase → triplane4.par.delayShort < 2 ^ triplane4.par.tw) ∧ triplane4.sync = .threePhase ∧
      triplane4.par.startCmds = none) ∧
    (let s := { level3 with par := { cfgEx with delayShort := 65536 } }
     s.started = false ∧ s.sch.trun = false ∧ s.sch.tif = false ∧
       (s.sync = .threePhase → s.par.delayShort < 2 ^ s.par.tw)) := by decide
theorem witness_SecondStartIsRefused : (running level3).started = true ∧ (running level3).ctl = .idle := by decide
theorem witness_WaitHaltsWhenNoStepIsDue : (running level3).sch.nd = false := by decide
theorem witness_WaitAndPollBeginADueStep : (due (running triplane4)).sch.nd = true := by decide
theorem witness_WokenWaitBeginsTheStep :
    let s := withTurn [.fire, .entry] (asleep (running triplane4))
    s.ctl = .asleep true ∧ s.boundary.sch.slp = false := by decide
theorem witness_WaitReturnsAfterATerminalStep :
    (let s := { inStep 3 7 triplane4 with ctl := .stepDone (.wait true) }
     s.ctl = .stepDone (.wait true) ∧ s.boundary.sch.slp = false ∧ s.xphase = 3) ∧
    (let s := { inStep 2 3 triplane4 with ctl := .stepDone (.wait true) }
     s.ctl = .stepDone (.wait true) ∧ s.boundary.sch.slp = false ∧ s.sync = .threePhase ∧ s.xphase ≠ 3) := by decide
theorem witness_PollWithoutADueStepIsANoOp : level3.sch.nd = false := by decide
theorem witness_PollReportsTheStep :
    (let s := { level3 with ctl := .stepDone .poll }
     s.ctl = .stepDone .poll ∧ s.boundary.sch.slp = false ∧ s.sync ≠ .threePhase) ∧
    (let s := { inStep 1 4 triplane4 with ctl := .stepDone .poll }
     s.ctl = .stepDone .poll ∧ s.boundary.sch.slp = false ∧ s.sync = .threePhase ∧ s.xphase ≠ 3) := by decide
theorem witness_NeedupdSpendsCredits :
    (255 : Byte).toNat ≤ (255 : Byte).toNat ∧ (254 : Byte).toNat < (255 : Byte).toNat := by decide
theorem witness_GetplaneReturnsThePlane : (1 : BitVec 16) ≠ 0 ∧ decode .host 0x140001 = .reservedField := by decide

/-- `PhaseOneParksTheBand`, `PhaseTwoSendsTheParkPage`, `PhaseThreeCompletesTheRefresh`: phases 1, 2 and 3 under
`THREE_PHASE`, with bytes in the buffer. -/
theorem witness_PhaseSteps :
    ([1, 2, 3] : List (BitVec 2)).all (fun q =>
      let s := { inStep q 0 midRun with fb := midRun.fb }
      s.sync == .threePhase && s.urom == microStore s.par s.sync && s.ctl == .uops .poll && s.upc == 0 &&
        s.xphase == q && s.sch.slp == false && s.fb.wf) = true := by decide
theorem witness_ParkRowPollRunsToCompletion :
    let s := polling 1 0x120001
    s.sync = .parkRow ∧ s.urom = microStore s.par s.sync ∧ s.ctl = .idle ∧ s.sch.slp = false ∧ s.err ≠ 6 ∧
      s.fb.wf = true ∧ s.sch.nd = true ∧ s.hostActs = .word (encode (.poll true)) :: [] := by decide
theorem witness_SlowDriveWaitRunsToCompletion :
    let s := polling 2 0x110001
    s.sync = .slowDrive ∧ s.urom = microStore s.par s.sync ∧ s.ctl = .idle ∧ s.sch.slp = false ∧ s.err ≠ 6 ∧
      s.fb.wf = true ∧ s.sch.nd = true ∧ s.hostActs = .word (encode (.wait true)) :: [] := by decide

theorem witness_ResetValues : reload cfgEx cfgEx.refreshHz < 2 ^ cfgEx.tw ∧ badConfig cfgEx 0b000110 = false ∧
    badConfig cfgEx 0b000111 = true := by decide
theorem witness_LegalStatesAreKept : Legal midRun ∧ after (·.upc) (step midRun) = some 2 :=
  ⟨midRun_legal, by decide⟩
/-- `midRun` halted in a `WAIT`: the support theorem of R292 applies. -/
theorem witness_wait_completes : ∃ n t, Host.Core.run Sys2Proof.core n (asleep midRun) = .next t ∧ t.ctl = .idle :=
  Laws.Fair.wait_completes (clr := true)
    { plane := .inr (by decide)
      sequencer := ⟨by decide, by decide, by decide⟩
      timer := ⟨by decide, by decide, by decide⟩
      unstarted := fun h => absurd h (by decide)
      host := ⟨⟨fun _ => ⟨true, rfl⟩, fun _ => rfl⟩, ⟨fun _ => ⟨true, rfl⟩, fun _ => rfl⟩, fun _ => by decide⟩
      spi := ⟨by decide, by decide⟩
      fault := ⟨by decide, by decide⟩
      memory := by decide }
    (by decide) (by decide) (by decide) (.inl rfl)
theorem witness_LegalRunsNeverStop : Legal midRun := midRun_legal
/-- `BusIsAppendOnly`, `ConfigurationNeverChanges`, `ErrAndStartedAreSticky`, `BuiltStoreNeverRaisesBadUop`: a step that
answers next, with each further hypothesis. -/
theorem witness_every_step :
    after (fun t => (t.log.length, t.err)) (step { midRun with err := 3 }) = some (2, 3) ∧
    { midRun with err := 3 }.err ≠ 0 ∧ midRun.started = true ∧ midRun.err ≠ 5 ∧
    midRun.urom = microStore midRun.par midRun.sync := by decide
theorem witness_TwoPhaseProtocolsNeverMovePhase :
    let s := withTurn [.fire, .entry] (running level3)
    s.sync = .parkRow ∧ slowDrive.sync = .slowDrive ∧ s.sch.phase = 3 ∧ after (·.sch.nd) (step s) = some true := by decide
theorem witness_RetIsWrittenByValueCommandsOnly :
    after (·.con) (exec (.setcon 0x80) level3) = some 0x80 ∧ returnsValue (.setcon 0x80) = false := by decide
theorem witness_RegistersHaveTheirOwners : after (·.ucnt) (exec .uAdv { level3 with plane := 1 }) = some 1 := by decide
theorem witness_MicroOpsIgnoreTheInterrupt :
    Instr.wellFormedAt .urom (.uRow 63) = true ∧ after (·.log) (exec (.uRow 63) level3) = some [.cmd (.rowstart 63)] := by decide
theorem witness_WaitWithoutAnInterruptSleepsForEver :
    (let s := asleep level3
     s.ctl = .asleep true ∧ s.sch.slp = true ∧ s.sch.trun = false ∧ s.sch.tif = false) ∧
    (let s := asleep { running level3 with sch := { (running level3).sch with tie := false, tif := true } }
     s.ctl = .asleep true ∧ s.sch.slp = true ∧ s.sch.tie = false) := by decide

end Sys2Proof.Tests
end

section
/-! PROOF. What one host action can do (R10, R190, R220, R222, R223), and that no step writes the configuration (R6, R23, R85). -/

namespace Sys2Proof.Machine

/-! ### What one host action can do -/

/-- The host's action from `s`, the state after the turn, and the state it leaves: one constructor per case,
with its guards. -/
inductive HostMove (s : State) : State → Prop where
  /-- A sleeping host takes no action (R222, R261). -/
  | halted (hslp : s.sch.slp = true) : HostMove s s
  /-- Nothing is presented at the idle port (R280). -/
  | waits (hslp : s.sch.slp = false) (hctl : s.ctl = .idle) (hacts : s.hostActs = []) : HostMove s s
  /-- The host's own code writes its mask (R230). -/
  | masks {e : Bool} {rest : List HostAct} (hslp : s.sch.slp = false) (hctl : s.ctl = .idle)
      (hacts : s.hostActs = .setGie e :: rest) : HostMove s (State.setGie e { s with hostActs := rest })
  /-- A disabled block refuses the word whole (R251). -/
  | refused {w : Word24} {rest : List HostAct} (hslp : s.sch.slp = false) (hctl : s.ctl = .idle)
      (hacts : s.hostActs = .word w :: rest) (herr : s.err = 6) : HostMove s { s with hostActs := rest }
  /-- The word is a command and is executed (R103, R220). -/
  | command {w : Word24} {rest : List HostAct} {i : Instr} {t : State} (hslp : s.sch.slp = false) (hctl : s.ctl = .idle)
      (hacts : s.hostActs = .word w :: rest) (herr : s.err ≠ 6) (hdec : decode .host w = .ok i)
      (hexec : exec i { s with hostActs := rest } = .next t) : HostMove s t
  /-- The word is no command of the port (R103, R105). -/
  | badCommand {w : Word24} {rest : List HostAct} {code : BitVec 4} (hslp : s.sch.slp = false) (hctl : s.ctl = .idle)
      (hacts : s.hostActs = .word w :: rest) (herr : s.err ≠ 6) (hdec : ∀ i, decode .host w ≠ .ok i)
      (hcode : code = 1 ∨ code = 2) (hfault : (decode .host w).faultCode .host = code) :
      HostMove s (State.raiseFault code { s with hostActs := rest })
  /-- A woken `WAIT` begins its step (R222). -/
  | wakes {clr : Bool} (hslp : s.sch.slp = false) (hctl : s.ctl = .asleep clr) : HostMove s (waitWake clr s)
  /-- A micro-op is fetched and executed (R190). -/
  | microOp {c : Caller} {w : Word24} {i : Instr} {t : State} (hslp : s.sch.slp = false) (hctl : s.ctl = .uops c)
      (hfetch : s.urom[(uromAddr s.xphase s.upc).toNat]? = some w) (hdec : decode .urom w = .ok i)
      (hexec : exec i { s with upc := s.upc + 1 } = .next t) : HostMove s t
  /-- The fetched word is no micro-op (R103, R251). -/
  | badMicroOp {c : Caller} {w : Word24} (hslp : s.sch.slp = false) (hctl : s.ctl = .uops c)
      (hfetch : s.urom[(uromAddr s.xphase s.upc).toNat]? = some w) (hdec : ∀ i, decode .urom w ≠ .ok i) :
      HostMove s (State.raiseFault 5 { s with upc := s.upc + 1 })
  /-- The step has ended and its caller goes on (R222, R223). -/
  | returns {c : Caller} (hslp : s.sch.slp = false) (hctl : s.ctl = .stepDone c) : HostMove s (stepReturn c s)

/-- At an idle port. -/
theorem HostMove.of_hostPort {s t : State} (hslp : s.sch.slp = false) (hctl : s.ctl = .idle)
    (h : hostPort exec s = .next t) : HostMove s t := by
  obtain ⟨hacts, he⟩ | ⟨e, rest, hacts, he⟩ | ⟨w, rest, hacts, herr, he⟩ | ⟨w, rest, i, hacts, herr, hdec, he⟩ |
    ⟨w, rest, code, hacts, herr, hdec, hcode, hfault, he⟩ := hostPort_cases (run := exec) s <;> rw [he] at h
  · cases h; exact .waits hslp hctl hacts
  · cases h; exact .masks hslp hctl hacts
  · cases h; exact .refused hslp hctl hacts herr
  · exact .command hslp hctl hacts herr hdec h
  · cases h; exact .badCommand hslp hctl hacts herr hdec hcode hfault

/-- Inside a step: a fetch outside the store answers a fault, so it leaves no next state. -/
theorem HostMove.of_fetchUop {c : Caller} {s t : State} (hslp : s.sch.slp = false) (hctl : s.ctl = .uops c)
    (h : fetchUop exec s = .next t) : HostMove s t := by
  obtain ⟨-, he⟩ | ⟨w, i, hfetch, hdec, he⟩ | ⟨w, hfetch, hdec, he⟩ := fetchUop_cases (run := exec) s <;> rw [he] at h
  · cases h
  · exact .microOp hslp hctl hfetch hdec h
  · cases h; exact .badMicroOp hslp hctl hfetch hdec

theorem HostMove.of_hostAction {s t : State} (h : hostAction exec s = .next t) : HostMove s t := by
  cases hslp : s.sch.slp with
  | true => rw [hostAction_halted hslp] at h; cases h; exact .halted hslp
  | false =>
    cases hctl : s.ctl with
    | idle => rw [hostAction_idle hslp hctl] at h; exact .of_hostPort hslp hctl h
    | asleep clr => rw [hostAction_asleep hslp hctl] at h; cases h; exact .wakes hslp hctl
    | uops c => rw [hostAction_uops hslp hctl] at h; exact .of_fetchUop hslp hctl h
    | stepDone c => rw [hostAction_stepDone hslp hctl] at h; cases h; exact .returns hslp hctl

/-- A step that answers next is the turn, then one host action (R10). -/
theorem hostMove_of_step {s t : State} (h : step s = .next t) : HostMove s.boundary t :=
  .of_hostAction (by rwa [step_eq] at h)

/-! ### The configuration -/

/-- `CFG`, the implementation parameters and `UROM` are the same in both states. -/
structure SameConfig (s t : State) : Prop where
  cfg : t.cfg = s.cfg
  par : t.par = s.par
  urom : t.urom = s.urom

theorem SameConfig.trans {s t u : State} (h : SameConfig s t) (g : SameConfig t u) : SameConfig s u :=
  ⟨g.cfg.trans h.cfg, g.par.trans h.par, g.urom.trans h.urom⟩

theorem SameConfig.boundary (s : State) : SameConfig s s.boundary := ⟨rfl, rfl, rfl⟩

theorem SameConfig.raiseFault (code : BitVec 4) (s : State) : SameConfig s (s.raiseFault code) := ⟨rfl, rfl, rfl⟩

theorem SameConfig.setRet (v : Byte) (s : State) : SameConfig s (s.setRet v) := ⟨rfl, rfl, rfl⟩

theorem SameConfig.ite {c : Prop} [Decidable c] {s t u : State} (h : SameConfig s t) (g : SameConfig s u) :
    SameConfig s (if c then t else u) := by
  split
  · exact h
  · exact g

/-- An operation whose outcome is the next state `u`. -/
theorem SameConfig.of_next {s t u : State} (h : (.next u : Host.Outcome State Fault Refusal) = .next t)
    (hu : SameConfig s u) : SameConfig s t := by
  cases h; exact hu

theorem waitEnter_sameConfig (clr : Bool) (s : State) : SameConfig s (waitEnter clr s) := by
  obtain ⟨_, _, _, _, _, h⟩ := waitEnter_eq clr s
  rw [h]; exact ⟨rfl, rfl, rfl⟩

theorem pollEnter_sameConfig (clr : Bool) (s : State) : SameConfig s (pollEnter clr s) := by
  obtain ⟨_, _, _, _, _, _, h⟩ := pollEnter_eq clr s
  rw [h]; exact ⟨rfl, rfl, rfl⟩

theorem xfer_sameConfig (page : BitVec 3) (pages : BitVec 4) (mask : Byte) (clr : Bool) (s : State) :
    SameConfig s (xfer page pages mask clr s) := by
  obtain ⟨-, h⟩ | ⟨-, _, _, _, _, _, _, _, _, h⟩ := xfer_cases page pages mask clr s <;> rw [h]
  · exact .raiseFault 5 s
  · exact ⟨rfl, rfl, rfl⟩

theorem execStart_sameConfig {s t : State} (h : execStart s = .next t) : SameConfig s t := by
  cases hs : s.started with
  | true => exact .of_next (by rw [← h, execStart, if_pos hs]) (.raiseFault 4 s)
  | false =>
    obtain ⟨_, _, _, he⟩ := execStart_eq hs
    exact .of_next (he.symm.trans h) ⟨rfl, rfl, rfl⟩

theorem stepReturn_sameConfig (c : Caller) (s : State) : SameConfig s (stepReturn c s) := by
  cases c with
  | wait clr => exact .ite ⟨rfl, rfl, rfl⟩ ((SameConfig.boundary s).trans (waitEnter_sameConfig clr _))
  | poll => exact ⟨rfl, rfl, rfl⟩

/-- No operation writes the configuration. The operations that branch, or that run the other agents in between, are taken by
their own lemmas; each of the others is one update of named fields. -/
theorem exec_sameConfig {i : Instr} {s t : State} (h : exec i s = .next t) : SameConfig s t := by
  cases i with
  | mapc p c => exact .of_next h (.ite (.raiseFault 3 s) (.setRet _ s))
  | start => exact execStart_sameConfig h
  | wait clr => exact .of_next h (waitEnter_sameConfig clr s)
  | poll clr => exact .of_next h (pollEnter_sameConfig clr s)
  | needupd => exact .of_next h (.ite ⟨rfl, rfl, rfl⟩ (.setRet 0x00 s))
  | uCon => exact .of_next h (.ite ⟨rfl, rfl, rfl⟩ ⟨rfl, rfl, rfl⟩)
  | uXfer page pages mask ce => exact .of_next h (xfer_sameConfig page pages mask (ce && s.clrin) s)
  | mapr | pxw | getplane | setcon | setupd | sethz | tiew | fbwr | fbrd | uEnd | uRow | uPtr | uSlow | uAdv =>
    exact .of_next h ⟨rfl, rfl, rfl⟩

theorem HostMove.sameConfig {s t : State} (m : HostMove s t) : SameConfig s t := by
  cases m with
  | command _ _ _ _ _ hexec =>
    obtain ⟨hcfg, hpar, hurom⟩ := exec_sameConfig hexec
    exact ⟨hcfg, hpar, hurom⟩
  | microOp _ _ _ _ hexec =>
    obtain ⟨hcfg, hpar, hurom⟩ := exec_sameConfig hexec
    exact ⟨hcfg, hpar, hurom⟩
  | returns _ _ => exact stepReturn_sameConfig _ s
  | halted | waits | masks | refused | badCommand | wakes | badMicroOp => exact ⟨rfl, rfl, rfl⟩

theorem step_sameConfig {s t : State} (h : step s = .next t) : SameConfig s t :=
  (SameConfig.boundary s).trans (hostMove_of_step h).sameConfig

/-- Settles O52: a step is the turn, which writes the scheduler's registers only, then one host action, and no case of
`HostMove` writes the configuration. -/
theorem configurationNeverChanges : Obligations.ConfigurationNeverChanges := by
  intro s t h
  obtain ⟨hcfg, hpar, hurom⟩ := step_sameConfig h
  exact ⟨hcfg, hpar, hurom⟩

end Sys2Proof.Machine
end

section
/-! PROOF. The registers' own laws: masked turns (R40, R254), the plane (R198), due steps (R190); the labelled actions every
operation is made of (R10) and the invariants they keep: legal states (R24 to R26, R30, R33, R35, R261), the bus (R37, R80), the
sticky registers (R34, R35, R250), the phase of the two-phase protocols (R25, R175); the registers' owners (R21, R38); reset
(R280, R281). -/

namespace Sys2Proof.Machine

open Sys2Proof.Safety

/-! ### Masked turns (R40, R254) -/

/-- While the interrupt is masked, or disabled at the timer, nothing clears a pending `TIF`. -/
theorem Sched.turn_tif {sync : SyncMode} {p : Params} {k : Sched} (hmask : k.gie = false ∨ k.tie = false)
    (h : k.tif = true) : (k.turn sync p).tif = true := by
  refine (Sched.turn_keeps (P := fun j => (j.gie = false ∨ j.tie = false) ∧ j.tif = true)
    (fun _ _ h => h) (fun e j hj => ?_) k ⟨hmask, h⟩).2
  obtain ⟨hm, ht⟩ := hj
  obtain h' | ⟨-, h'⟩ | ⟨-, h'⟩ | ⟨-, hi, hg, -⟩ := Sched.async_cases sync p e j
  · rw [h']; exact ⟨hm, ht⟩
  · rw [h']; exact ⟨hm, ht⟩
  · rw [h']; exact ⟨hm, rfl⟩
  · exact absurd hm (by simp [hg, hi])

/-- Settles O24: the masked turn moves the timer's own two registers only, and a pending `TIF` stays. -/
theorem maskedInterruptIsHeld : Obligations.MaskedInterruptIsHeld := by
  intro sync p k hmask
  obtain ⟨tcnt, tif, turns, hturn⟩ := Sched.turn_untaken (sync := sync) (p := p) hmask
  refine ⟨tcnt, tif, turns, hturn, fun htif => ?_⟩
  have hkept := Sched.turn_tif (sync := sync) (p := p) hmask htif
  rwa [hturn] at hkept

/-! ### The plane (R24, R198) -/

theorem nplanes_pos {mode : GrayMode} (h : mode ≠ .reserved) : 0 < nplanes mode := by
  cases mode with
  | reserved => exact absurd rfl h
  | contrast4 | triplane4 | level3 => decide

/-- A plane in range advances modulo the plane count (R198). -/
theorem nextPlane_toNat {mode : GrayMode} {plane : BitVec 2} (h : mode ≠ .reserved) (hp : plane.toNat < nplanes mode) :
    (nextPlane mode plane).toNat = (plane.toNat + 1) % nplanes mode := by
  cases mode with
  | reserved => exact absurd rfl h
  | contrast4 | triplane4 | level3 => revert plane; decide

theorem nextPlane_eq_zero_iff {mode : GrayMode} {plane : BitVec 2} (h : mode ≠ .reserved)
    (hp : plane.toNat < nplanes mode) : nextPlane mode plane = 0 ↔ plane.toNat + 1 = nplanes mode := by
  cases mode with
  | reserved => exact absurd rfl h
  | contrast4 | triplane4 | level3 => revert plane; decide

/-- Settles O29: `nextPlane` is the successor modulo the plane count, and 0 exactly on the wrap. -/
theorem uAdvAdvancesThePlane : Obligations.UAdvAdvancesThePlane := by
  intro s hmode hplane
  refine ⟨_, rfl, rfl, nextPlane_toNat hmode hplane, ?_⟩
  simp only [nextPlane_eq_zero_iff hmode hplane]
  split
  · exact BitVec.toNat_add s.ucnt s.ud
  · rfl

/-! ### `WAIT` and `POLL` up to the halt, the exit or the first fetch (R190, R222, R223) -/

/-- Two turns after the mask write of `W0` or `P0` only the timer's own two registers have moved. -/
theorem masked_turns (s : State) : ∃ tcnt tif turns, (s.setGie false).boundary.boundary =
    { s with sch := { s.sch with gie := false, tcnt := tcnt, tif := tif, turns := turns } } := by
  obtain ⟨tcnt, tif, turns, h⟩ := boundary_masked (s := s.setGie false) rfl
  rw [h]
  exact boundary_masked (s := { s with sch := { s.sch with gie := false, tcnt, tif, turns } }) rfl

/-- A masked turn neither sets nor clears `ND` (R27, R254). -/
theorem masked_turn_nd (s : State) : (s.setGie false).boundary.sch.nd = s.sch.nd := by
  obtain ⟨_, _, _, h⟩ := boundary_masked (s := s.setGie false) rfl
  rw [h]; rfl

theorem waitEnter_due {clr : Bool} {s : State} (h : s.sch.nd = true) :
    waitEnter clr s = stepBegin (.wait clr) clr (s.setGie false).boundary.boundary :=
  if_pos ((masked_turn_nd s).trans h)

theorem pollEnter_due {clr : Bool} {s : State} (h : s.sch.nd = true) :
    pollEnter clr s = stepBegin .poll clr (s.setGie false).boundary.boundary :=
  if_pos ((masked_turn_nd s).trans h)

theorem waitEnter_notDue {clr : Bool} {s : State} (h : s.sch.nd = false) :
    waitEnter clr s = waitHalt clr (waitArm (s.setGie false).boundary.boundary).boundary :=
  if_neg (by simp [masked_turn_nd, h])

theorem pollEnter_notDue {clr : Bool} {s : State} (h : s.sch.nd = false) :
    pollEnter clr s = ((s.setGie false).boundary.setGie s.sch.gie).setRet 0x00 :=
  if_neg (by simp [masked_turn_nd, h])

/-- A step that is due begins from its caller's mask write (R190): what it writes. -/
theorem stepBegin_due (c : Caller) (clr : Bool) (s : State) :
    ∃ tcnt tif turns, stepBegin c clr (s.setGie false).boundary.boundary = { s with
      ctl := .uops c, upc := 0, clrin := clr, xphase := if isThreePhase s.sync then s.sch.phase else 1
      sch := { s.sch with nd := false, gie := true, tcnt := tcnt, tif := tif, turns := turns } } := by
  obtain ⟨tcnt, tif, turns, h⟩ := masked_turns s
  rw [h]
  exact stepBegin_masked c clr (s := { s with sch := { s.sch with gie := false, tcnt, tif, turns } }) rfl

theorem isThreePhase_iff {sync : SyncMode} : isThreePhase sync = true ↔ sync = .threePhase := by
  cases sync <;> decide

/-- Settles O34: with `ND = 1` both commands are the beginning of the due step. -/
theorem waitAndPollBeginADueStep : Obligations.WaitAndPollBeginADueStep := by
  intro clr s hnd
  simp only [exec, execWait, execPoll, waitEnter_due hnd, pollEnter_due hnd, ← isThreePhase_iff]
  obtain ⟨tcnt, tif, turns, hwait⟩ := stepBegin_due (.wait clr) clr s
  obtain ⟨tcnt', tif', turns', hpoll⟩ := stepBegin_due .poll clr s
  exact ⟨⟨tcnt, tif, turns, congrArg _ hwait⟩, ⟨tcnt', tif', turns', congrArg _ hpoll⟩⟩

/-! ### Labelled actions (R10) -/

/-- One action of the host, or one turn of the other agents: the pieces every operation's body is made of. A burst stands as
one piece, because `DORD` is 1 inside it. -/
inductive Action : State → State → Prop where
  /-- The timer's and the ISR's steps between two host actions. -/
  | turn (s : State) : Action s s.boundary
  /-- Writes of registers that hold any value, and of the host's own position. -/
  | registers (ucnt un ud con ret : Byte) (upc : BitVec 4) (clrin : Bool) (ctl : Ctl) (acts : List HostAct) (s : State) :
      Action s { s with
        ucnt := ucnt, un := un, ud := ud, con := con, ret := ret, upc := upc, clrin := clrin, ctl := ctl, hostActs := acts }
  /-- Writes of the enables and the CPU bits (R32, R177). -/
  | bits (tie gie se slp : Bool) (s : State) :
      Action s { s with sch := { s.sch with tie := tie, gie := gie, se := se, slp := slp } }
  /-- `SETHZ` (R178). -/
  | rate (ticks : Nat) (s : State) : Action s { s with sch := { s.sch with tcr := timerWord s.par ticks } }
  /-- `S0` (R190). -/
  | latch (clr : Bool) (s : State) : Action s (stepLatch clr s)
  /-- One command event (R80, R196). -/
  | emit (c : BusCmd) (s : State) : Action s (s.emitCmd c)
  /-- One byte of the frame buffer (R136, R158). -/
  | store {a : Nat} (ha : a < fbBytes) (v : Byte) (s : State) : Action s (s.fbWrite a v)
  /-- A fault of the running block; code 6 is reset's alone (R250, R251). -/
  | fault {code : BitVec 4} (hcode : code.toNat < 6) (s : State) : Action s (s.raiseFault code)
  /-- `U_ADV`'s plane (R198). -/
  | advance (s : State) : Action s { s with plane := nextPlane s.mode s.plane }
  /-- `T1` (R221). -/
  | startClear (s : State) : Action s (startClear s)
  /-- `T3` (R221). -/
  | startTimer (s : State) : Action s (startTimer s)
  /-- A burst inside the contract (R151, R155). -/
  | burst {page : BitVec 3} {pages : BitVec 4} (hok : burstOk page pages = true) (mask : Byte) (clr : Bool) (s : State) :
      Action s (xfer page pages mask clr s)

/-- Actions one after another. -/
abbrev Actions : State → State → Prop := Relation.ReflTransGen Action

theorem Action.setRet (v : Byte) (s : State) : Action s (s.setRet v) := .registers _ _ _ _ v _ _ _ _ s

theorem Action.setCtl (c : Ctl) (s : State) : Action s (s.setCtl c) := .registers _ _ _ _ _ _ _ c _ s

theorem Action.setGie (e : Bool) (s : State) : Action s (s.setGie e) := .bits _ e _ _ s

theorem Actions.ite {c : Prop} [Decidable c] {s t u : State} (h : Actions s t) (g : Actions s u) :
    Actions s (if c then t else u) := by
  split
  · exact h
  · exact g

/-- An operation whose outcome is the next state `u`. -/
theorem Actions.of_next {s t u : State} (h : (.next u : Host.Outcome State Fault Refusal) = .next t)
    (hu : Actions s u) : Actions s t := by
  cases h; exact hu

theorem stepBegin_actions (c : Caller) (clr : Bool) (s : State) : Actions s (stepBegin c clr s) :=
  .head (.latch clr s) (.head (.turn _) (.head (.setGie true _) (.single (.setCtl (.uops c) _))))

theorem waitHalt_actions (clr : Bool) (s : State) : Actions s (waitHalt clr s) :=
  .head (.bits s.sch.tie true s.sch.se true s) (.single (.setCtl (.asleep clr) _))

/-- `W0` to `W3` (R222). -/
theorem waitEnter_actions (clr : Bool) (s : State) : Actions s (waitEnter clr s) :=
  .head (.setGie false s) (.head (.turn _) (Actions.ite
    (.head (.turn _) (stepBegin_actions _ clr _))
    (.head (.turn _) (.head (.bits _ _ true _ _) (.head (.turn _) (waitHalt_actions clr _))))))

/-- `W4`, then the step (R222). -/
theorem waitWake_actions (clr : Bool) (s : State) : Actions s (waitWake clr s) :=
  .head (.bits s.sch.tie false false s.sch.slp s) (.head (.turn _) (stepBegin_actions _ clr _))

/-- `P0`, `P1` (R223). -/
theorem pollEnter_actions (clr : Bool) (s : State) : Actions s (pollEnter clr s) :=
  .head (.setGie false s) (.head (.turn _) (Actions.ite
    (.head (.turn _) (stepBegin_actions _ clr _))
    (.head (.setGie _ _) (.single (.setRet 0x00 _)))))

theorem startEmit_actions (s : State) : Actions s (startEmit s) := by
  unfold startEmit
  induction startCmds s.par generalizing s with
  | nil => exact .refl
  | cons c cmds ih => exact .head (.emit (startCmd s.con c) s) (ih _)

/-- `T1` to `T3` (R221). -/
theorem start_actions (s : State) : Actions s (startTimer (startEmit (startClear s.boundary).boundary).boundary) :=
  .head (.turn s) (.head (.startClear _) (.head (.turn _) (.trans (startEmit_actions _) (.head (.turn _)
    (.single (.startTimer _))))))

theorem xfer_actions (page : BitVec 3) (pages : BitVec 4) (mask : Byte) (clr : Bool) (s : State) :
    Actions s (xfer page pages mask clr s) := by
  cases hok : burstOk page pages with
  | true => exact .single (.burst hok mask clr s)
  | false =>
    have hfault : xfer page pages mask clr s = s.raiseFault 5 := if_neg (by simp [hok])
    rw [hfault]; exact .single (.fault (by decide) s)

/-- Every operation is a run of actions. -/
theorem exec_actions {i : Instr} {s t : State} (h : exec i s = .next t) : Actions s t := by
  cases i with
  | mapc p c => exact .of_next h (.ite (.single (.fault (by decide) s)) (.single (.setRet _ s)))
  | mapr | getplane | fbrd => exact .of_next h (.single (.setRet _ s))
  | pxw x y c => exact .of_next h (.single (.store (pixelAddr x y).isLt _ s))
  | fbwr addr data => exact .of_next h (.single (.store addr.isLt data s))
  | start => exact .of_next h (.ite (.single (.fault (by decide) s)) (start_actions s))
  | wait clr => exact .of_next h (waitEnter_actions clr s)
  | poll clr => exact .of_next h (pollEnter_actions clr s)
  | needupd => exact .of_next h (.ite (.single (.registers _ _ _ _ _ _ _ _ _ s)) (.single (.setRet 0x00 s)))
  | setcon v => exact .of_next h (.tail (.single (.registers _ _ _ v _ _ _ _ _ s)) (.emit _ _))
  | setupd n d => exact .of_next h (.single (.registers 0 n d _ _ _ _ _ _ s))
  | sethz hz => exact .of_next h (.single (.rate _ s))
  | tiew e => exact .of_next h (.single (.bits e _ _ _ s))
  | uEnd => exact .of_next h (.single (.setCtl _ s))
  | uCon => exact .of_next h (.ite (.single (.emit _ s)) .refl)
  | uRow | uPtr | uSlow => exact .of_next h (.single (.emit _ s))
  | uXfer page pages mask ce => exact .of_next h (xfer_actions page pages mask (ce && s.clrin) s)
  | uAdv => exact .of_next h (.tail (.single (.advance s)) (.registers _ _ _ _ _ _ _ _ _ _))

theorem stepReturn_actions (c : Caller) (s : State) : Actions s (stepReturn c s) := by
  cases c with
  | wait clr => exact Actions.ite (.single (.setCtl .idle s)) (.head (.turn s) (waitEnter_actions clr _))
  | poll => exact .head (.setRet _ s) (.single (.setCtl .idle _))

theorem HostMove.actions {s t : State} (m : HostMove s t) : Actions s t := by
  have presents (rest : List HostAct) : Action s { s with hostActs := rest } := .registers _ _ _ _ _ _ _ _ rest s
  have fetches : Action s { s with upc := s.upc + 1 } := .registers _ _ _ _ _ _ _ _ _ s
  cases m with
  | halted | waits => exact .refl
  | masks => exact .head (presents _) (.single (.setGie _ _))
  | refused => exact .single (presents _)
  | command _ _ _ _ _ hexec => exact .head (presents _) (exec_actions hexec)
  | badCommand _ _ _ _ _ hcode =>
    exact .head (presents _) (.single (.fault (by rcases hcode with rfl | rfl <;> decide) _))
  | wakes => exact waitWake_actions _ s
  | microOp _ _ _ _ hexec => exact .head fetches (exec_actions hexec)
  | badMicroOp => exact .head fetches (.single (.fault (by decide) _))
  | returns => exact stepReturn_actions _ s

/-- A step is a turn, then the actions of the host's move. -/
theorem step_actions {s t : State} (h : step s = .next t) : Actions s t := .head (.turn s) (hostMove_of_step h).actions

/-! ### Bursts inside the contract (R151, R155) -/

/-- `X0` loads a pointer from which the whole burst stays inside the frame buffer, for both address orders. -/
theorem xferLoad_runFits {page : BitVec 3} {pages : BitVec 4} (hok : burstOk page pages = true) (mask : Byte) (clr : Bool)
    (s : State) : runFits s.par.xferOrder (xferLoad page pages mask clr s).xptr.toNat (burstLen pages).toNat := by
  simp only [burstOk, Bool.and_eq_true, decide_eq_true_eq] at hok
  unfold runFits xferLoad
  cases s.par.xferOrder <;> simp only [burstLow, burstEnd, burstLen, BitVec.toNat_ofNat] <;> omega

theorem runAddr_lt {order : XferOrder} {ptr n i : Nat} (h : runFits order ptr n) (hi : i < n) :
    runAddr order ptr i < fbBytes := by
  unfold fbBytes
  cases order <;> simp only [runFits, runAddr] at h ⊢ <;> omega

/-- A run of burst bytes inside the frame buffer keeps its canonical form. -/
theorem xferBytes_wf {n : Nat} {s : State} (h : runFits s.par.xferOrder s.xptr.toNat n) (hwf : s.fb.wf = true) :
    (xferBytes n s).fb.wf = true := by
  obtain ⟨-, hfb, -⟩ := xferBytes_data n s h
  rw [hfb]
  split
  · refine clear_wf _ _ hwf fun a ha => ?_
    obtain ⟨i, hi, rfl⟩ := List.mem_map.mp ha
    exact runAddr_lt h (List.mem_range.mp hi)
  · exact hwf

theorem xfer_wf {page : BitVec 3} {pages : BitVec 4} (hok : burstOk page pages = true) (mask : Byte) (clr : Bool)
    {s : State} (hwf : s.fb.wf = true) : (xfer page pages mask clr s).fb.wf = true := by
  unfold xfer
  rw [if_pos hok]
  exact xferBytes_wf (s := xferOpen (xferLoad page pages mask clr s).boundary) (xferLoad_runFits hok mask clr s) hwf

theorem xferBytes_log (n : Nat) (s : State) : s.log <:+ (xferBytes n s).log := by
  induction n generalizing s with
  | zero => exact List.suffix_refl _
  | succ n ih =>
    have hbyte : s.log <:+ (xferByte s.boundary).log := by
      rw [xferByte_eq]; exact List.suffix_cons _ _
    exact hbyte.trans (ih _)

theorem xfer_log (page : BitVec 3) (pages : BitVec 4) (mask : Byte) (clr : Bool) (s : State) :
    s.log <:+ (xfer page pages mask clr s).log := by
  unfold xfer
  split
  · exact xferBytes_log _ (xferOpen (xferLoad page pages mask clr s).boundary)
  · exact List.suffix_refl _

/-! ### Legal states but for the host's position -/

/-- The scheduler's part of `Legal`: `PHASE`, the timer's ranges, and the rest before `START`. -/
structure SchedLegal (p : Params) (started : Bool) (k : Sched) : Prop where
  phase : k.phase ≠ 0
  timer : k.tcr < 2 ^ p.tw ∧ k.tcnt < 2 ^ p.tw ∧ k.ocr < 2 ^ p.tw
  unstarted : started = false → k.trun = false ∧ k.tif = false ∧ k.nd = false

theorem SchedLegal.turn {sync : SyncMode} {p : Params} {started : Bool} {k : Sched} (h : SchedLegal p started k) :
    SchedLegal p started (k.turn sync p) where
  phase := Sched.turn_phase h.phase
  timer := Sched.turn_range h.timer
  unstarted hs := by
    obtain ⟨htrun, htif, hnd⟩ := h.unstarted hs
    rw [Sched.turn_stopped htrun htif]
    exact ⟨htrun, htif, hnd⟩

/-- `S0` and `T1` clear `ND` and leave some phase (R190, R221). -/
theorem SchedLegal.clearNd {p : Params} {started : Bool} {k : Sched} (h : SchedLegal p started k) {phase : BitVec 2}
    (hphase : phase ≠ 0) : SchedLegal p started { k with phase := phase, nd := false } where
  phase := hphase
  timer := h.timer
  unstarted hs := by
    obtain ⟨htrun, htif, -⟩ := h.unstarted hs
    exact ⟨htrun, htif, rfl⟩

/-- `T3` starts the timer from 0 with a compare value in range (R221). -/
theorem SchedLegal.start {p : Params} {started : Bool} {k : Sched} (h : SchedLegal p started k) {compare : Nat}
    (hcompare : compare < 2 ^ p.tw) :
    SchedLegal p true { k with tcnt := 0, tif := false, ocr := compare, tie := true, trun := true } where
  phase := h.phase
  timer := ⟨h.timer.1, Nat.two_pow_pos p.tw, hcompare⟩
  unstarted hs := by cases hs

/-- `Legal` without `hostLegal`, which single actions break and a whole step restores. -/
structure Sound (s : State) : Prop where
  plane : planeLegal s
  xphase : s.xphase ≠ 0
  urom : s.urom.length = uromWords
  sched : SchedLegal s.par s.started s.sch
  spi : spiLegal s
  fault : faultLegal s
  memory : s.fb.wf = true

theorem legal_iff {s : State} : Legal s ↔ Sound s ∧ hostLegal s := by
  constructor
  · rintro ⟨plane, ⟨phase, xphase, urom⟩, timer, unstarted, host, spi, fault, memory⟩
    exact ⟨⟨plane, xphase, urom, ⟨phase, timer, unstarted⟩, spi, fault, memory⟩, host⟩
  · rintro ⟨⟨plane, xphase, urom, ⟨phase, timer, unstarted⟩, spi, fault, memory⟩, host⟩
    exact ⟨plane, ⟨phase, xphase, urom⟩, timer, unstarted, host, spi, fault, memory⟩

theorem planeLegal_zero {s : State} (h : s.plane = 0) : planeLegal s := by
  by_cases hmode : s.mode = .reserved
  · exact .inl hmode
  · exact .inr (by rw [h]; exact nplanes_pos hmode)

theorem planeLegal_next {s : State} (h : planeLegal s) :
    planeLegal { s with plane := nextPlane s.mode s.plane } := by
  by_cases hmode : s.mode = .reserved
  · exact .inl hmode
  · refine .inr ?_
    have hplane : s.plane.toNat < nplanes s.mode := h.resolve_left hmode
    show (nextPlane s.mode s.plane).toNat < nplanes s.mode
    rw [nextPlane_toNat hmode hplane]
    exact Nat.mod_lt _ (nplanes_pos hmode)

theorem faultLegal_raise {code : BitVec 4} (hcode : code.toNat < 6) {s : State} (h : faultLegal s) :
    faultLegal (s.raiseFault code) := by
  obtain ⟨hle, hbad⟩ := h
  by_cases herr : s.err = 0
  · have hnew : (s.raiseFault code).err = code := if_pos herr
    have hne : code ≠ 6 := by rintro rfl; exact absurd hcode (by decide)
    refine ⟨by rw [hnew]; omega, iff_of_false (by rwa [hnew]) fun hb => ?_⟩
    exact absurd (herr.symm.trans (hbad.mpr hb)) (by decide)
  · have hold : (s.raiseFault code).err = s.err := if_neg herr
    exact ⟨by rwa [hold], by rwa [hold]⟩

theorem latchedPhase_ne_zero {s : State} (h : s.sch.phase ≠ 0) : latchedPhase s ≠ 0 := by
  unfold latchedPhase
  split
  · exact h
  · decide

theorem firstCompare_lt {s : State} (h : s.sch.tcr < 2 ^ s.par.tw) : firstCompare s < 2 ^ s.par.tw := by
  unfold firstCompare
  split
  · exact delayOf_lt _ _ _
  · exact h

theorem Sound.xfer {page : BitVec 3} {pages : BitVec 4} (hok : burstOk page pages = true) (mask : Byte) (clr : Bool)
    {s : State} (h : Sound s) : Sound (xfer page pages mask clr s) := by
  have hwf := xfer_wf hok mask clr h.memory
  have hsch : SchedLegal s.par s.started (Machine.xfer page pages mask clr s).sch := by
    rw [xfer_sch]
    exact turnsTaken_keeps (fun _ hk => hk.turn) _ h.sched
  obtain ⟨hno, -⟩ | ⟨-, _, _, _, _, _, _, _, _, he⟩ := xfer_cases page pages mask clr s
  · simp [hok] at hno
  · rw [he] at hwf hsch ⊢
    exact ⟨h.plane, h.xphase, h.urom, hsch, ⟨h.spi.1, rfl⟩, h.fault, hwf⟩

theorem Action.sound {s t : State} (a : Action s t) (h : Sound s) : Sound t := by
  cases a with
  | turn => exact { h with sched := h.sched.turn }
  | registers => exact { h with }
  | bits => exact { h with sched := { h.sched with } }
  | rate ticks => exact { h with sched := { h.sched with timer := ⟨timerWord_lt s.par ticks, h.sched.timer.2⟩ } }
  | latch => exact { h with xphase := latchedPhase_ne_zero h.sched.phase, sched := h.sched.clearNd h.sched.phase }
  | emit => exact { h with spi := ⟨h.spi.1, rfl⟩ }
  | store ha v => exact { h with memory := Memory.wf_write h.memory ha v }
  | fault hcode => exact { h with fault := faultLegal_raise hcode h.fault }
  | advance => exact { h with plane := planeLegal_next h.plane }
  | startClear => exact { h with plane := planeLegal_zero rfl, sched := h.sched.clearNd (by decide) }
  | startTimer => exact { h with sched := h.sched.start (firstCompare_lt h.sched.timer.1) }
  | burst hok mask clr => exact h.xfer hok mask clr

theorem Actions.sound {s t : State} (h : Actions s t) (hs : Sound s) : Sound t := by
  induction h with
  | refl => exact hs
  | tail _ a ih => exact a.sound ih

/-! ### The host's position (R190, R222, R261) -/

/-- The host is not halted, and unmasked inside a command: what `hostLegal` says of a host that can act. -/
structure Awake (s : State) : Prop where
  slp : s.sch.slp = false
  se : s.sch.se = false
  ctl : ∀ clr, s.ctl ≠ .asleep clr
  gie : s.ctl ≠ .idle → s.sch.gie = true

theorem Awake.hostLegal {s : State} (h : Awake s) : hostLegal s := by
  have hout : ¬ ∃ clr, s.ctl = .asleep clr := fun ⟨clr, hc⟩ => h.ctl clr hc
  exact ⟨iff_of_false (by simp [h.slp]) hout, iff_of_false (by simp [h.se]) hout, h.gie⟩

/-- Before the host's action of a legal state's step: still halted, woken inside `WAIT`, or awake. -/
theorem boundary_host {s : State} (h : hostLegal s) :
    (s.boundary.sch.slp = true → hostLegal s.boundary) ∧
    (s.boundary.sch.slp = false → (∀ clr, s.ctl ≠ .asleep clr) → Awake s.boundary) := by
  obtain ⟨hslp, hse, hgie⟩ := h
  have hgie' : s.boundary.sch.gie = s.sch.gie := Sched.turn_gie _ _ _
  have hse' : s.boundary.sch.se = s.sch.se := Sched.turn_se _ _ _
  constructor
  · intro hb
    have hs : s.sch.slp = true := by
      by_contra hn
      have : s.boundary.sch.slp = false := Sched.turn_slp (by simpa using hn)
      simp [this] at hb
    exact ⟨iff_of_true hb (hslp.mp hs), by rw [hse']; exact hse, by rw [hgie']; exact hgie⟩
  · intro hb hctl
    refine ⟨hb, ?_, hctl, by rw [hgie']; exact hgie⟩
    rw [hse', Bool.eq_false_iff]
    exact fun hs => (hse.mp hs).elim hctl

theorem Awake.boundary {s : State} (h : Awake s) : Awake s.boundary :=
  (boundary_host h.hostLegal).2 (Sched.turn_slp h.slp) h.ctl

/-- `t` holds what `Awake` reads as `s` does, or has ended the step in progress. -/
structure HostKept (s t : State) : Prop where
  ctl : t.ctl = s.ctl ∨ t.ctl = s.ctl.endStep
  slp : t.sch.slp = s.sch.slp
  se : t.sch.se = s.sch.se
  gie : t.sch.gie = s.sch.gie

theorem HostKept.awake {s t : State} (k : HostKept s t) (h : Awake s) : Awake t := by
  refine ⟨k.slp.trans h.slp, k.se.trans h.se, fun clr hc => ?_, fun hc => k.gie.trans (h.gie fun hi => hc ?_)⟩
  · rcases k.ctl with hk | hk <;> rw [hk] at hc
    · exact h.ctl clr hc
    · cases hs : s.ctl with
      | asleep c => exact h.ctl c hs
      | idle | uops | stepDone => rw [hs] at hc; cases hc
  · rcases k.ctl with hk | hk <;> rw [hk, hi]
    rfl

theorem HostKept.raiseFault (code : BitVec 4) (s : State) : HostKept s (s.raiseFault code) := ⟨.inr rfl, rfl, rfl, rfl⟩

theorem Awake.xferBytes (n : Nat) {s : State} (h : Awake s) : Awake (xferBytes n s) := by
  induction n generalizing s with
  | zero => exact h
  | succ n ih =>
    have hbyte : HostKept s.boundary (xferByte s.boundary) := by
      rw [xferByte_eq]; exact ⟨.inl rfl, rfl, rfl, rfl⟩
    exact ih (hbyte.awake h.boundary)

theorem Awake.xfer (page : BitVec 3) (pages : BitVec 4) (mask : Byte) (clr : Bool) {s : State} (h : Awake s) :
    Awake (Machine.xfer page pages mask clr s) := by
  unfold Machine.xfer
  split
  · have hload : HostKept s (xferLoad page pages mask clr s) := ⟨.inl rfl, rfl, rfl, rfl⟩
    have hopen (t : State) : HostKept t (xferOpen t) := ⟨.inl rfl, rfl, rfl, rfl⟩
    have hclose (t : State) : HostKept t (xferClose t) := ⟨.inl rfl, rfl, rfl, rfl⟩
    exact (hclose _).awake (((hopen _).awake (hload.awake h).boundary).xferBytes _).boundary
  · exact (HostKept.raiseFault 5 s).awake h

theorem Awake.start {s : State} (h : Awake s) :
    Awake (startTimer (startEmit (startClear s.boundary).boundary).boundary) := by
  have hclear (t : State) : HostKept t (startClear t) := ⟨.inl rfl, rfl, rfl, rfl⟩
  have hemit (t : State) : HostKept t (startEmit t) := by rw [startEmit_eq]; exact ⟨.inl rfl, rfl, rfl, rfl⟩
  have htimer (t : State) : HostKept t (startTimer t) := ⟨.inl rfl, rfl, rfl, rfl⟩
  exact (htimer _).awake ((hemit _).awake ((hclear _).awake h.boundary).boundary).boundary

/-- A begun step is unmasked, whoever began it (R190 `S1`). -/
theorem stepBegin_awake (c : Caller) (clr : Bool) {s : State} (hslp : s.sch.slp = false) (hse : s.sch.se = false) :
    Awake (stepBegin c clr s) where
  slp := Sched.turn_slp hslp
  se := (Sched.turn_se _ _ _).trans hse
  ctl _ hc := by cases hc
  gie _ := rfl

theorem waitWake_awake (clr : Bool) {s : State} (hslp : s.sch.slp = false) : Awake (waitWake clr s) :=
  stepBegin_awake (.wait clr) clr (s := (s.setSch { s.sch with se := false, gie := false }).boundary)
    (Sched.turn_slp hslp) (Sched.turn_se _ _ _)

/-- `W3` halts with sleep armed and interrupts unmasked (R222, R261). -/
theorem waitHalt_hostLegal (clr : Bool) {s : State} (hse : s.sch.se = true) : hostLegal (waitHalt clr s) :=
  ⟨iff_of_true rfl ⟨clr, rfl⟩, iff_of_true hse ⟨clr, rfl⟩, fun _ => rfl⟩

theorem masked_turns_awake {s : State} (h : Awake s) :
    (s.setGie false).boundary.boundary.sch.slp = false ∧ (s.setGie false).boundary.boundary.sch.se = false := by
  obtain ⟨_, _, _, ht⟩ := masked_turns s
  rw [ht]
  exact ⟨h.slp, h.se⟩

theorem waitEnter_hostLegal (clr : Bool) {s : State} (h : Awake s) : hostLegal (waitEnter clr s) := by
  obtain ⟨hslp, hse⟩ := masked_turns_awake h
  cases hnd : s.sch.nd with
  | true => rw [waitEnter_due hnd]; exact (stepBegin_awake _ clr hslp hse).hostLegal
  | false => rw [waitEnter_notDue hnd]; exact waitHalt_hostLegal clr (Sched.turn_se _ _ _)

theorem pollEnter_awake (clr : Bool) {s : State} (h : Awake s) : Awake (pollEnter clr s) := by
  obtain ⟨hslp, hse⟩ := masked_turns_awake h
  cases hnd : s.sch.nd with
  | true => rw [pollEnter_due hnd]; exact stepBegin_awake _ clr hslp hse
  | false =>
    rw [pollEnter_notDue hnd]
    obtain ⟨_, _, _, hmasked⟩ := boundary_masked (s := s.setGie false) rfl
    rw [hmasked]
    exact HostKept.awake (s := s) ⟨.inl rfl, rfl, rfl, rfl⟩ h

/-- From an awake host only `WAIT` ends otherwise than awake: halted. -/
theorem exec_hostLegal {i : Instr} {s t : State} (h : exec i s = .next t) (ha : Awake s) : hostLegal t := by
  have kept {u : State} (hu : (.next u : Host.Outcome State Fault Refusal) = .next t) (k : HostKept s u) :
      hostLegal t := by
    cases hu; exact (k.awake ha).hostLegal
  cases i with
  | wait clr => cases h; exact waitEnter_hostLegal clr ha
  | poll clr => cases h; exact (pollEnter_awake clr ha).hostLegal
  | uXfer page pages mask ce => cases h; exact (ha.xfer page pages mask _).hostLegal
  | start =>
    cases h
    split
    · exact ((HostKept.raiseFault 4 s).awake ha).hostLegal
    · exact ha.start.hostLegal
  | mapc =>
    refine kept h ?_
    split
    · exact .raiseFault 3 s
    · exact ⟨.inl rfl, rfl, rfl, rfl⟩
  | needupd | uCon =>
    refine kept h ?_
    split <;> exact ⟨.inl rfl, rfl, rfl, rfl⟩
  | uEnd => exact kept h ⟨.inr rfl, rfl, rfl, rfl⟩
  | mapr | pxw | getplane | setcon | setupd | sethz | tiew | fbwr | fbrd | uRow | uPtr | uSlow | uAdv =>
    exact kept h ⟨.inl rfl, rfl, rfl, rfl⟩

/-- An idle host that is not halted may hold either mask (R230). -/
theorem hostLegal_idle {s : State} (hctl : s.ctl = .idle) (hslp : s.sch.slp = false) (hse : s.sch.se = false) :
    hostLegal s :=
  Awake.hostLegal ⟨hslp, hse, by simp [hctl], absurd hctl⟩

theorem stepReturn_hostLegal (c : Caller) {s : State} (h : Awake s) : hostLegal (stepReturn c s) := by
  cases c with
  | poll => exact hostLegal_idle rfl h.slp h.se
  | wait clr =>
    show hostLegal (waitDone clr s)
    unfold waitDone
    split
    · exact hostLegal_idle rfl h.slp h.se
    · exact waitEnter_hostLegal clr h.boundary

/-- The host's move from a legal position, halted or awake, or inside `WAIT` just woken, leaves a legal position. -/
theorem HostMove.hostLegal {s t : State} (m : HostMove s t) (hhalted : s.sch.slp = true → hostLegal s)
    (hawake : s.sch.slp = false → (∀ clr, s.ctl ≠ .asleep clr) → Awake s) : hostLegal t := by
  have idle (hslp : s.sch.slp = false) (hctl : s.ctl = .idle) : Awake s := hawake hslp (by simp [hctl])
  have presents (rest : List HostAct) : HostKept s { s with hostActs := rest } := ⟨.inl rfl, rfl, rfl, rfl⟩
  have fetches : HostKept s { s with upc := s.upc + 1 } := ⟨.inl rfl, rfl, rfl, rfl⟩
  cases m with
  | halted hslp => exact hhalted hslp
  | waits hslp hctl => exact (idle hslp hctl).hostLegal
  | masks hslp hctl => exact hostLegal_idle hctl hslp (idle hslp hctl).se
  | refused hslp hctl => exact ((presents _).awake (idle hslp hctl)).hostLegal
  | command hslp hctl _ _ _ hexec => exact exec_hostLegal hexec ((presents _).awake (idle hslp hctl))
  | badCommand hslp hctl =>
    exact ((HostKept.raiseFault _ _).awake ((presents _).awake (idle hslp hctl))).hostLegal
  | wakes hslp => exact (waitWake_awake _ hslp).hostLegal
  | microOp hslp hctl _ _ hexec => exact exec_hostLegal hexec (fetches.awake (hawake hslp (by simp [hctl])))
  | badMicroOp hslp hctl =>
    exact ((HostKept.raiseFault _ _).awake (fetches.awake (hawake hslp (by simp [hctl])))).hostLegal
  | returns hslp hctl => exact stepReturn_hostLegal _ (hawake hslp (by simp [hctl]))

/-- Settles O49: the ranges are kept by every action of the step, and the host's position by the step as a whole. -/
theorem legalStatesAreKept : Obligations.LegalStatesAreKept := by
  intro s t hlegal hstep
  obtain ⟨hsound, hhost⟩ := legal_iff.mp hlegal
  obtain ⟨hhalted, hawake⟩ := boundary_host hhost
  exact legal_iff.mpr ⟨Actions.sound (step_actions hstep) hsound, (hostMove_of_step hstep).hostLegal hhalted hawake⟩

/-! ### What no step takes back (R34, R35, R37, R250) -/

/-- Under the two-phase protocols no turn writes `PHASE` (R25, R175). -/
theorem Sched.turn_phase_twoPhase {sync : SyncMode} {p : Params} {k : Sched} (h : isThreePhase sync = false) :
    (k.turn sync p).phase = k.phase := by
  refine Sched.turn_keeps (P := fun j => j.phase = k.phase) (fun _ _ h => h) (fun e j hj => ?_) k rfl
  obtain h' | ⟨-, h'⟩ | ⟨-, h'⟩ | ⟨-, -, -, h'⟩ := Sched.async_cases sync p e j <;> rw [h']
  · exact hj
  · exact hj
  · exact hj
  · rw [Sched.takeInterrupt, Sched.isrBody, if_neg (by simp [h])]
    exact hj

/-- The later state `t` holds the log of `s` and more, a fault and `STARTED` where `s` did, and under a two-phase protocol
`PHASE` at its reset value where `s` did. -/
structure Later (s t : State) : Prop where
  sync : t.sync = s.sync
  log : s.log <:+ t.log
  err : s.err ≠ 0 → t.err = s.err
  started : s.started = true → t.started = true
  phase : isThreePhase s.sync = false → s.sch.phase = 3 → t.sch.phase = 3

theorem Later.refl (s : State) : Later s s := ⟨rfl, List.suffix_refl _, fun _ => rfl, id, fun _ => id⟩

theorem Later.trans {s t u : State} (h : Later s t) (g : Later t u) : Later s u where
  sync := g.sync.trans h.sync
  log := h.log.trans g.log
  err he := (g.err (by rwa [h.err he])).trans (h.err he)
  started hs := g.started (h.started hs)
  phase h2 hp := g.phase (by rwa [h.sync]) (h.phase h2 hp)

theorem Later.xfer (page : BitVec 3) (pages : BitVec 4) (mask : Byte) (clr : Bool) (s : State) :
    Later s (xfer page pages mask clr s) := by
  have hlog := xfer_log page pages mask clr s
  have hphase (h2 : isThreePhase s.sync = false) (hp : s.sch.phase = 3) :
      (Machine.xfer page pages mask clr s).sch.phase = 3 := by
    rw [xfer_sch]
    exact turnsTaken_keeps (P := fun k => k.phase = 3) (fun k hk => (Sched.turn_phase_twoPhase h2).trans hk) _ hp
  obtain ⟨-, he⟩ | ⟨-, _, _, _, _, _, _, _, _, he⟩ := xfer_cases page pages mask clr s <;> rw [he] at hlog hphase ⊢
  · exact ⟨rfl, hlog, fun herr => if_neg herr, id, hphase⟩
  · exact ⟨rfl, hlog, fun _ => rfl, id, hphase⟩

theorem Action.later {s t : State} (a : Action s t) : Later s t := by
  cases a with
  | turn => exact { Later.refl s with phase := fun h2 hp => (Sched.turn_phase_twoPhase h2).trans hp }
  | emit => exact { Later.refl s with log := List.suffix_cons _ _ }
  | fault => exact { Later.refl s with err := fun he => if_neg he }
  | startClear => exact { Later.refl s with phase := fun _ _ => rfl }
  | startTimer => exact { Later.refl s with started := fun _ => rfl }
  | burst _ mask clr => exact .xfer _ _ mask clr s
  | registers | bits | rate | latch | store | advance => exact { Later.refl s with }

theorem Actions.later {s t : State} (h : Actions s t) : Later s t := by
  induction h with
  | refl => exact .refl s
  | tail _ a ih => exact ih.trans a.later

theorem step_later {s t : State} (h : step s = .next t) : Later s t := Actions.later (step_actions h)

/-- Settles O51: the log, newest event first, only grows at its head. -/
theorem busIsAppendOnly : Obligations.BusIsAppendOnly := by
  intro s t h
  obtain ⟨events, hlog⟩ := (step_later h).log
  exact ⟨events.reverse, by rw [State.bus, State.bus, ← hlog, List.reverse_append]⟩

/-- Settles O56: a fault writes a zero `ERR` only, and the only write of `STARTED` sets it. -/
theorem errAndStartedAreSticky : Obligations.ErrAndStartedAreSticky :=
  fun _ _ h => ⟨(step_later h).err, (step_later h).started⟩

/-- Settles O55: `PHASE` is written by the `THREE_PHASE` ISR body, and by `T1`, which writes 3. -/
theorem twoPhaseProtocolsNeverMovePhase : Obligations.TwoPhaseProtocolsNeverMovePhase := by
  intro s t hsync hphase h
  refine (step_later h).phase ?_ hphase
  rcases hsync with hsync | hsync <;> rw [hsync] <;> rfl

/-! ### The registers' owners (R21, R24, R28, R29, R38, R73) -/

/-- Each register holds what it did unless `i` is one of the operations that own it. -/
structure OwnersWrite (i : Instr) (s t : State) : Prop where
  rates : (∀ n d, i ≠ .setupd n d) → t.un = s.un ∧ t.ud = s.ud
  con : (∀ v, i ≠ .setcon v) → t.con = s.con
  plane : i ≠ .uAdv → i ≠ .start → t.plane = s.plane
  fb : (∀ a d, i ≠ .fbwr a d) → (∀ x y c, i ≠ .pxw x y c) → (∀ g n m e, i ≠ .uXfer g n m e) → t.fb = s.fb
  ret : returnsValue i = false → t.ret = s.ret

theorem OwnersWrite.refl (i : Instr) (s : State) : OwnersWrite i s s :=
  ⟨fun _ => ⟨rfl, rfl⟩, fun _ => rfl, fun _ _ => rfl, fun _ _ _ => rfl, fun _ => rfl⟩

theorem exec_ownersWrite {i : Instr} {s t : State} (h : exec i s = .next t) : OwnersWrite i s t := by
  cases i with
  | mapc | needupd =>
    cases h
    split <;> exact { OwnersWrite.refl _ s with ret := nofun }
  | mapr | getplane | fbrd => cases h; exact { OwnersWrite.refl _ s with ret := nofun }
  | poll clr =>
    obtain ⟨_, _, _, _, _, _, he⟩ := pollEnter_eq clr s
    cases h; rw [he]; exact { OwnersWrite.refl _ s with ret := nofun }
  | pxw x y c => cases h; exact { OwnersWrite.refl _ s with fb := fun _ hi => absurd rfl (hi x y c) }
  | fbwr addr data => cases h; exact { OwnersWrite.refl _ s with fb := fun hi => absurd rfl (hi addr data) }
  | setcon v => cases h; exact { OwnersWrite.refl _ s with con := fun hi => absurd rfl (hi v) }
  | setupd n d => cases h; exact { OwnersWrite.refl _ s with rates := fun hi => absurd rfl (hi n d) }
  | uAdv => cases h; exact { OwnersWrite.refl _ s with plane := fun hi => absurd rfl hi }
  | start =>
    cases hs : s.started with
    | true =>
      have he : exec .start s = .next (s.raiseFault 4) := congrArg _ (if_pos hs)
      cases he.symm.trans h; exact { OwnersWrite.refl _ s with }
    | false =>
      obtain ⟨_, _, _, he⟩ := execStart_eq hs
      cases he.symm.trans h; exact { OwnersWrite.refl _ s with plane := fun _ hi => absurd rfl hi }
  | wait clr =>
    obtain ⟨_, _, _, _, _, he⟩ := waitEnter_eq clr s
    cases h; rw [he]; exact { OwnersWrite.refl _ s with }
  | uXfer page pages mask ce =>
    cases h
    obtain ⟨-, he⟩ | ⟨-, _, _, _, _, _, _, _, _, he⟩ := xfer_cases page pages mask (ce && s.clrin) s <;> rw [he]
    · exact { OwnersWrite.refl _ s with }
    · exact { OwnersWrite.refl _ s with fb := fun _ _ hi => absurd rfl (hi page pages mask ce) }
  | uCon => cases h; split <;> exact { OwnersWrite.refl _ s with }
  | sethz | tiew | uEnd | uRow | uPtr | uSlow => cases h; exact { OwnersWrite.refl _ s with }

/-- Settles O53: `RET` is written by the operations that return a value. -/
theorem retIsWrittenByValueCommandsOnly : Obligations.RetIsWrittenByValueCommandsOnly :=
  fun _ _ _ h => (exec_ownersWrite h).ret

/-- Settles O54: each of the registers named is written by its owners. -/
theorem registersHaveTheirOwners : Obligations.RegistersHaveTheirOwners := by
  intro i s t h
  obtain ⟨hrates, hcon, hplane, hfb, -⟩ := exec_ownersWrite h
  exact ⟨hrates, hcon, hplane, hfb⟩

/-! ### Reset (R280, R281) -/

/-- The built store has 16 words for each of the three phases (R199). -/
theorem microStore_length (p : Params) (sync : SyncMode) : (microStore p sync).length = uromWords := by
  cases sync <;> rfl

/-- `ERR` at reset is 6 exactly for a configuration that cannot be built, and else 0 (R23, R251). -/
theorem resetWith_err (cfg : BitVec 6) (p : Params) :
    (State.resetWith cfg p).err = if badConfig p cfg = true then 6 else 0 := rfl

theorem resetWith_faultLegal (cfg : BitVec 6) (p : Params) : faultLegal (State.resetWith cfg p) := by
  unfold faultLegal
  rw [resetWith_err, show (State.resetWith cfg p).par = p from rfl, show (State.resetWith cfg p).cfg = cfg from rfl]
  cases badConfig p cfg <;> decide

/-- Settles O48: each clause of `Legal` is one of the values of R281. -/
theorem resetIsLegal : Obligations.ResetIsLegal := fun cfg p => {
  plane := planeLegal_zero rfl
  sequencer :=
    ⟨show (3 : BitVec 2) ≠ 0 by decide, show (1 : BitVec 2) ≠ 0 by decide, microStore_length p _⟩
  timer := ⟨timerWord_lt p _, Nat.two_pow_pos p.tw, Nat.two_pow_pos p.tw⟩
  unstarted := fun _ => ⟨rfl, rfl, rfl⟩
  host := hostLegal_idle rfl rfl rfl
  spi := ⟨rfl, rfl⟩
  fault := resetWith_faultLegal cfg p
  memory := Memory.wf_nil }

/-- Settles O47: the values are those `State.resetWith` writes; a reload value that fits the timer is held as it is. -/
theorem resetValues : Obligations.ResetValues := by
  intro cfg p hreload
  have hbad : (State.resetWith cfg p).err = 6 ↔ badConfig p cfg = true := (resetWith_faultLegal cfg p).2
  have hgood (h : badConfig p cfg = false) : (State.resetWith cfg p).err = 0 := by simp [resetWith_err, h]
  exact ⟨rfl, rfl, rfl, rfl, rfl, rfl, rfl, rfl, rfl, rfl, timerWord_of_lt hreload, rfl, rfl, rfl, rfl, rfl, rfl, rfl, rfl,
    rfl, rfl, rfl, rfl, rfl, rfl, Memory.read_nil, rfl, rfl, microStore_length p _, hbad, hgood⟩

end Sys2Proof.Machine
end

section
/-! PROOF. The link's byte order (R76, R110), a `WAIT` with no step due (R84, R222, R261), and the host's access to the frame
buffer, byte by byte (R82, R158, R159) and pixel by pixel (R72, R134, R136). -/

namespace Sys2Proof

/-- Settles O5: the three bytes are the word's own fields, and a word is put together from its fields. -/
theorem linkBytesDecodeAsTheWord : Obligations.LinkBytesDecodeAsTheWord := by
  intro port w rest
  calc decodeBytes port (wordBytes w ++ rest)
      = .word (decode port (hab (opField w) (aField w) (bField w))) rest := rfl
    _ = .word (decode port w) rest := by rw [hab_fields]

end Sys2Proof

namespace Sys2Proof.Machine

/-! ### `WAIT` with no step due (R222) -/

/-- `W0` to `W3` are one masked passage: in its three turns only the timer's own two registers move. -/
theorem waitEnter_halts (clr : Bool) {s : State} (h : s.sch.nd = false) :
    ∃ tcnt tif turns, waitEnter clr s = { s with
      ctl := .asleep clr
      sch := { s.sch with se := true, slp := true, gie := true, tcnt := tcnt, tif := tif, turns := turns } } := by
  obtain ⟨tcnt, tif, turns, hmasked⟩ := masked_turns s
  obtain ⟨tcnt', tif', turns', harmed⟩ := boundary_masked (s := waitArm (s.setGie false).boundary.boundary)
    (by rw [hmasked]; rfl)
  refine ⟨tcnt', tif', turns', ?_⟩
  rw [waitEnter_notDue h, harmed, hmasked]
  rfl

/-- Settles O33: the passage from `W0` to `W3`. -/
theorem waitHaltsWhenNoStepIsDue : Obligations.WaitHaltsWhenNoStepIsDue := by
  intro clr s hnd
  obtain ⟨tcnt, tif, turns, hwait⟩ := waitEnter_halts clr hnd
  exact ⟨tcnt, tif, turns, congrArg _ hwait⟩

/-! ### The frame buffer's bytes (R158, R159) -/

/-- Settles O19: the buffer reads the stored byte at the address written, and at every other address what was there. -/
theorem frameBufferBytesAreStoredAndReturned : Obligations.FrameBufferBytesAreStoredAndReturned := by
  intro a b data s hwf
  have hsame : (s.fb.write a.toNat data).read a.toNat = data := Memory.read_write_same hwf _ _
  have hother (c : Nat) (hc : c ≠ a.toNat) : (s.fb.write a.toNat data).read c = s.fb.read c :=
    Memory.read_write_other hc.symm _ _
  have hread : (s.fb.write a.toNat data).read b.toNat = if a = b then data else s.fb.read b.toNat := by
    split
    next heq => rw [← heq, hsame]
    next hne => exact hother _ (fun h => hne (BitVec.eq_of_toNat_eq h.symm))
  exact ⟨rfl, s.fbWrite a.toNat data, rfl, rfl, Memory.wf_write hwf a.isLt data, hsame, hother,
    congrArg (fun v => Host.Outcome.next ((s.fbWrite a.toNat data).setRet v)) hread⟩

/-! ### Pixels (R72, R136) -/

theorem pixelAddr_toNat (x : BitVec 7) (y : BitVec 6) : (pixelAddr x y).toNat = 128 * (y.toNat / 8) + x.toNat := by
  have hpage : (y.extractLsb' 3 3).toNat = y.toNat / 8 := by
    rw [BitVec.extractLsb'_toNat, Nat.shiftRight_eq_div_pow]; omega
  rw [pixelAddr, BitVec.toNat_append, hpage, ← Nat.shiftLeft_add_eq_or_of_lt x.isLt, Nat.shiftLeft_eq, Nat.mul_comm]

theorem pixelBit_getLsbD (y : BitVec 6) {j : Nat} (hj : j < 8) : (pixelBit y).getLsbD j = decide (j = y.toNat % 8) := by
  have hrow : (y.extractLsb' 0 3).toNat = y.toNat % 8 := by
    rw [BitVec.extractLsb'_toNat, Nat.shiftRight_zero]
  rw [pixelBit, hrow, BitVec.getLsbD_shiftLeft, show (1 : Byte) = 1#8 from rfl, BitVec.getLsbD_one, Bool.eq_iff_iff]
  simp only [Bool.and_eq_true, Bool.not_eq_true', decide_eq_true_eq, decide_eq_false_iff_not]
  omega

/-- A plotted byte has the pixel's bit as asked, and its other bits as they were (R136). -/
theorem plotBit_getLsbD (lit : Bool) (y : BitVec 6) (old : Byte) {j : Nat} (hj : j < 8) :
    (plotBit lit y old).getLsbD j = if j = y.toNat % 8 then lit else old.getLsbD j := by
  cases lit with
  | true =>
    rw [plotBit, if_pos rfl, BitVec.getLsbD_or, pixelBit_getLsbD y hj]
    split <;> simp [*]
  | false =>
    rw [plotBit, if_neg Bool.false_ne_true, BitVec.getLsbD_and, BitVec.getLsbD_not, pixelBit_getLsbD y hj]
    split <;> simp [*]

/-- Settles O16: the byte at the pixel's address is replaced by the plotted one. -/
theorem pxwWritesOnePixel : Obligations.PxwWritesOnePixel := by
  intro x y c s hwf
  rw [← pixelAddr_toNat]
  refine ⟨_, rfl, rfl, Memory.wf_write hwf (pixelAddr x y).isLt _, fun a ha => Memory.read_write_other ha.symm _ _,
    fun j hj => ?_⟩
  rw [State.fbWrite_fb, Memory.read_write_same hwf]
  exact plotBit_getLsbD _ y _ hj

end Sys2Proof.Machine
end

section
/-! PROOF. The encoding (R101 to R105): the row of an operation and of a word, the decoder and the encoder inverse to each
other, match and mask, the illegal opcodes. -/

namespace Sys2Proof

/-! ### The row of an operation (R104) -/

/-- The row of the opcode map an operation stands in. -/
def Instr.row : Instr → OpRow
  | .mapc _ _ => rowMapc
  | .mapr _ _ => rowMapr
  | .pxw _ _ _ => rowPxw
  | .start => rowStart
  | .wait _ => rowWait
  | .poll _ => rowPoll
  | .needupd => rowNeedupd
  | .getplane => rowGetplane
  | .setcon _ => rowSetcon
  | .setupd _ _ => rowSetupd
  | .sethz _ => rowSethz
  | .tiew _ => rowTiew
  | .fbwr _ _ => rowFbwr
  | .fbrd _ => rowFbrd
  | .uEnd => rowUEnd
  | .uCon => rowUCon
  | .uRow _ => rowURow
  | .uPtr _ _ => rowUPtr
  | .uXfer _ _ _ _ => rowUXfer
  | .uSlow _ => rowUSlow
  | .uAdv => rowUAdv

/-- The word of an operation selects the operation's row: by the six-bit opcode in format `HM`, by the opcode byte otherwise. -/
theorem rowOf_encode (i : Instr) : rowOf (encode i) = some i.row := by
  cases i with
  | fbwr | fbrd => exact rowOf_hm _ _ _ (by decide)
  | mapc | mapr | pxw | start | wait | poll | needupd | getplane | setcon | setupd | sethz | tiew
  | uEnd | uCon | uRow | uPtr | uXfer | uSlow | uAdv => exact rowOf_hab _ _ _ (by decide)

/-! ### The operands of an encoded word (R102) -/

/-- The fields of an encoded host word are its operands; those of a micro-op's word are `Machine.uopFields`. -/
theorem hostFields :
    (∀ p : BitVec 2, ((0 : BitVec 6) ++ p : Byte).extractLsb' 0 2 = p) ∧
    (∀ (c : BitVec 2) (y : BitVec 6), (c ++ y : Byte).extractLsb' 0 6 = y ∧ (c ++ y : Byte).extractLsb' 6 2 = c) ∧
    (∀ hz : BitVec 16, (hz.extractLsb' 8 8 ++ hz.extractLsb' 0 8 : BitVec 16) = hz) :=
  ⟨fun _ => BitVec.extractLsb'_append_eq_right,
    fun _ _ => ⟨BitVec.extractLsb'_append_eq_right, BitVec.extractLsb'_append_eq_left⟩,
    fun _ => (BitVec.extractLsb'_append_extractLsb'_eq_extractLsb' rfl).trans BitVec.extractLsb'_eq_self⟩

/-- The row's operand assembly reads back the operands the encoder laid out. -/
theorem operands_encode (i : Instr) : i.row.operands (encode i) = i := by
  obtain ⟨hplane, hpixel, hrate⟩ := hostFields
  obtain ⟨hrow, hcol, hpage, hflag, hburst⟩ := Machine.uopFields
  cases i with
  | start | needupd | getplane | uEnd | uCon | uAdv => rfl
  | mapc | mapr => simp only [Instr.row, rowMapc, rowMapr, encode, aField_hab, bField_hab, hplane]
  | pxw => simp only [Instr.row, rowPxw, encode, aField_hab, bField_hab, hcol, hpixel]
  | wait | poll | tiew | uSlow => simp only [Instr.row, rowWait, rowPoll, rowTiew, rowUSlow, encode, bField_hab, hflag]
  | setcon | setupd => simp only [Instr.row, rowSetcon, rowSetupd, encode, aField_hab, bField_hab]
  | sethz => simp only [Instr.row, rowSethz, encode, aField_hab, bField_hab, hrate]
  | fbwr | fbrd => simp only [Instr.row, rowFbwr, rowFbrd, encode, addrField_hm, bField_hm]
  | uRow => simp only [Instr.row, rowURow, encode, bField_hab, hrow]
  | uPtr => simp only [Instr.row, rowUPtr, encode, aField_hab, bField_hab, hcol, hpage]
  | uXfer => simp only [Instr.row, rowUXfer, encode, aField_hab, bField_hab, hburst]

/-- The laws of `Laws.EncodesInItsRow`, one per constructor, as one of every operation. -/
theorem encodesInItsRow (i : Instr) : Laws.EncodesInItsRow.Statement i := by
  cases i with
  | mapc p c => exact Laws.EncodesInItsRow.mapc p c
  | mapr p c => exact Laws.EncodesInItsRow.mapr p c
  | pxw x y c => exact Laws.EncodesInItsRow.pxw x y c
  | start => exact Laws.EncodesInItsRow.start
  | wait clr => exact Laws.EncodesInItsRow.wait clr
  | poll clr => exact Laws.EncodesInItsRow.poll clr
  | needupd => exact Laws.EncodesInItsRow.needupd
  | getplane => exact Laws.EncodesInItsRow.getplane
  | setcon v => exact Laws.EncodesInItsRow.setcon v
  | setupd n d => exact Laws.EncodesInItsRow.setupd n d
  | sethz hz => exact Laws.EncodesInItsRow.sethz hz
  | tiew e => exact Laws.EncodesInItsRow.tiew e
  | fbwr addr data => exact Laws.EncodesInItsRow.fbwr addr data
  | fbrd addr => exact Laws.EncodesInItsRow.fbrd addr
  | uEnd => exact Laws.EncodesInItsRow.uEnd
  | uCon => exact Laws.EncodesInItsRow.uCon
  | uRow r => exact Laws.EncodesInItsRow.uRow r
  | uPtr col page => exact Laws.EncodesInItsRow.uPtr col page
  | uXfer page pages mask ce => exact Laws.EncodesInItsRow.uXfer page pages mask ce
  | uSlow e => exact Laws.EncodesInItsRow.uSlow e
  | uAdv => exact Laws.EncodesInItsRow.uAdv

/-- The operation's row has its class, and the operation's word no reserved bit of the row. -/
theorem row_port_mbz (i : Instr) : i.row.port = i.port ∧ encode i &&& i.row.mbz = 0 := by
  obtain ⟨row, hrow, hport, hmbz⟩ := encodesInItsRow i
  rw [rowOf_encode, Option.some.injEq] at hrow
  rw [hrow]
  exact ⟨hport, hmbz⟩

/-! ### The decoder's refusals (R103) -/

theorem decode_illegalOpcode_iff {port : Port} {w : Word24} : decode port w = .illegalOpcode ↔ rowOf w = none := by
  unfold decode
  cases rowOf w with
  | none => simp
  | some row =>
    simp only [reduceCtorEq, iff_false]
    split
    · simp
    · split <;> simp

theorem decode_wrongPort {port : Port} {w : Word24} {row : OpRow} (hrow : rowOf w = some row) (hport : row.port ≠ port) :
    decode port w = .wrongPort := by
  simp [decode, hrow, hport]

theorem decode_reservedField {port : Port} {w : Word24} {row : OpRow} (hrow : rowOf w = some row)
    (hport : row.port = port) (hmbz : w &&& row.mbz ≠ 0) : decode port w = .reservedField := by
  simp [decode, hrow, hport, show ¬ w &&& row.mbz = 0#24 from hmbz]

/-- Settles O1: the word selects the operation's row, sets no reserved bit of it, and holds the operands where the row reads
them; at the other port the row's class refuses it. -/
theorem decodeOfEncode : Obligations.DecodeOfEncode := by
  intro i port
  obtain ⟨hclass, hmbz⟩ := row_port_mbz i
  by_cases hport : i.port = port
  · rw [if_pos (by simp [Instr.wellFormedAt, hport])]
    exact Machine.decode_of_row (rowOf_encode i) (hclass.trans hport) hmbz (operands_encode i)
  · rw [if_neg (by simp [Instr.wellFormedAt, hport])]
    exact decode_wrongPort (rowOf_encode i) (by rwa [hclass])

/-! ### The operation of a word is encoded by the word (R103, R107) -/

/-- A word of format `HAB` is put together from its opcode and from two bytes that are its own when its reserved bits are 0. -/
theorem hab_eq_of_clear {w : Word24} {op a b m n : Byte} (hop : (opField w).toNat = op.toNat)
    (hmbz : w &&& hab 0 m n = 0) (ha : aField w &&& m = 0 → a = aField w) (hb : bField w &&& n = 0 → b = bField w) :
    hab op a b = w := by
  rw [← hab_fields w, hab_and] at hmbz
  have hma := congrArg aField hmbz
  have hmb := congrArg bField hmbz
  rw [aField_hab] at hma
  rw [bField_hab] at hmb
  rw [← BitVec.eq_of_toNat_eq hop, ha hma, hb hmb, hab_fields]

/-- A word of format `HM` keeps its address; its data byte is its own when its reserved bits are 0. -/
theorem hm_eq_of_clear {w : Word24} {op6 : BitVec 6} {data n : Byte} (hop : (op6Field w).toNat = op6.toNat)
    (hmbz : w &&& hm 0 0 n = 0) (hdata : bField w &&& n = 0 → data = bField w) : hm op6 (addrField w) data = w := by
  rw [← hm_fields w, hm_and] at hmbz
  have hclear := congrArg bField hmbz
  rw [bField_hm] at hclear
  rw [← BitVec.eq_of_toNat_eq hop, hdata hclear, hm_fields]

/-- A byte of an `HAB` word is put together again from the fields a row reads in it, when the bits the row reserves are 0. -/
theorem byteOfFields :
    (∀ b : Byte, b &&& 0xFF = 0 → 0 = b) ∧
    (∀ b : Byte, b &&& 0xFE = 0 → bitByte (b.getLsbD 0) = b) ∧
    (∀ b : Byte, b &&& 0xFC = 0 → (0 : BitVec 6) ++ b.extractLsb' 0 2 = b) ∧
    (∀ b : Byte, b &&& 0xF8 = 0 → (0 : BitVec 5) ++ b.extractLsb' 0 3 = b) ∧
    (∀ b : Byte, b &&& 0xC0 = 0 → (0 : BitVec 2) ++ b.extractLsb' 0 6 = b) ∧
    (∀ b : Byte, b &&& 0x80 = 0 → (0 : BitVec 1) ++ b.extractLsb' 0 7 = b) ∧
    (∀ b : Byte, b.extractLsb' 6 2 ++ b.extractLsb' 0 6 = b) ∧
    (∀ a : Byte, BitVec.ofBool (a.getLsbD 7) ++ a.extractLsb' 3 4 ++ a.extractLsb' 0 3 = a) := by decide

/-- The encoder lays the operands a row reads back where the row read them. -/
theorem encode_operands {w : Word24} {row : OpRow} (hrow : rowOf w = some row) (hmbz : w &&& row.mbz = 0) :
    encode (row.operands w) = w := by
  obtain ⟨hnone, hflag, hplane, hpage, hline, hcol, hpixel, hburst⟩ := byteOfFields
  unfold rowOf at hrow
  split at hrow
  · unfold rowOfOp6 at hrow
    split at hrow <;> cases hrow
    next hop => exact hm_eq_of_clear (n := 0x00) hop hmbz (fun _ => rfl)
    next hop => exact hm_eq_of_clear (n := 0xFF) hop hmbz (hnone _)
  · unfold rowOfOpcode at hrow
    split at hrow <;> cases hrow
    next hop => exact hab_eq_of_clear (m := 0xFC) (n := 0xFC) hop hmbz (hplane _) (hplane _)
    next hop => exact hab_eq_of_clear (m := 0xFC) (n := 0xFC) hop hmbz (hplane _) (hplane _)
    next hop => exact hab_eq_of_clear (m := 0x80) (n := 0x00) hop hmbz (hcol _) (fun _ => hpixel _)
    next hop => exact hab_eq_of_clear (m := 0xFF) (n := 0xFF) hop hmbz (hnone _) (hnone _)
    next hop => exact hab_eq_of_clear (m := 0xFF) (n := 0xFE) hop hmbz (hnone _) (hflag _)
    next hop => exact hab_eq_of_clear (m := 0xFF) (n := 0xFE) hop hmbz (hnone _) (hflag _)
    next hop => exact hab_eq_of_clear (m := 0xFF) (n := 0xFF) hop hmbz (hnone _) (hnone _)
    next hop => exact hab_eq_of_clear (m := 0xFF) (n := 0xFF) hop hmbz (hnone _) (hnone _)
    next hop => exact hab_eq_of_clear (m := 0xFF) (n := 0x00) hop hmbz (hnone _) (fun _ => rfl)
    next hop => exact hab_eq_of_clear (m := 0x00) (n := 0x00) hop hmbz (fun _ => rfl) (fun _ => rfl)
    next hop =>
      exact hab_eq_of_clear (m := 0x00) (n := 0x00) hop hmbz (fun _ => BitVec.extractLsb'_append_eq_left)
        (fun _ => BitVec.extractLsb'_append_eq_right)
    next hop => exact hab_eq_of_clear (m := 0xFF) (n := 0xFE) hop hmbz (hnone _) (hflag _)
    next hop => exact hab_eq_of_clear (m := 0xFF) (n := 0xFF) hop hmbz (hnone _) (hnone _)
    next hop => exact hab_eq_of_clear (m := 0xFF) (n := 0xFF) hop hmbz (hnone _) (hnone _)
    next hop => exact hab_eq_of_clear (m := 0xFF) (n := 0xC0) hop hmbz (hnone _) (hline _)
    next hop => exact hab_eq_of_clear (m := 0xF8) (n := 0x80) hop hmbz (hpage _) (hcol _)
    next hop => exact hab_eq_of_clear (m := 0x00) (n := 0x00) hop hmbz (fun _ => hburst _) (fun _ => rfl)
    next hop => exact hab_eq_of_clear (m := 0xFF) (n := 0xFE) hop hmbz (hnone _) (hflag _)
    next hop => exact hab_eq_of_clear (m := 0xFF) (n := 0xFF) hop hmbz (hnone _) (hnone _)

/-- Settles O2: the word is that of the operation its row assembles, so by O1 it would be refused if the operation's class
were not the port's. -/
theorem encodeOfDecode : Obligations.EncodeOfDecode := by
  intro port w i hdec
  obtain ⟨row, hrow, -, hmbz, rfl⟩ := Machine.decode_ok_port hdec
  have hword : encode (row.operands w) = w := encode_operands hrow hmbz
  refine ⟨hword, ?_⟩
  by_contra hclass
  have hrefused := decodeOfEncode (row.operands w) port
  rw [hword, hdec, if_neg hclass] at hrefused
  cases hrefused

/-! ### Match and mask (R104) -/

/-- The mask of the formats `HAB` and `HN` keeps the opcode byte. -/
theorem and_opcodeMask (w : Word24) : w &&& 0xFF0000 = hab (opField w) 0 0 := by
  calc w &&& 0xFF0000
      = hab (opField w) (aField w) (bField w) &&& hab 0xFF 0 0 := by rw [hab_fields]; rfl
    _ = hab (opField w &&& BitVec.allOnes 8) (aField w &&& 0#8) (bField w &&& 0#8) := hab_and _ _ _ _ _ _
    _ = hab (opField w) 0 0 := by rw [BitVec.and_allOnes, BitVec.and_zero, BitVec.and_zero]; rfl

/-- The mask of format `HM` keeps the six-bit opcode. -/
theorem and_op6Mask (w : Word24) : w &&& 0xFC0000 = hm (op6Field w) 0 0 := by
  calc w &&& 0xFC0000
      = hm (op6Field w) (addrField w) (bField w) &&& hm 0x3F 0 0 := by rw [hm_fields]; rfl
    _ = hm (op6Field w &&& BitVec.allOnes 6) (addrField w &&& 0#10) (bField w &&& 0#8) := hm_and _ _ _ _ _ _
    _ = hm (op6Field w) 0 0 := by rw [BitVec.and_allOnes, BitVec.and_zero, BitVec.and_zero]; rfl

/-- The row a word selects is one of the map, and the word matches it. -/
theorem matches_of_rowOf {w : Word24} {row : OpRow} (hrow : rowOf w = some row) :
    row ∈ opcodeMap ∧ w &&& row.mask = row.pattern := by
  unfold rowOf at hrow
  split at hrow
  · have hmask {n : Nat} (hop : (op6Field w).toNat = n) : w &&& 0xFC0000 = hm (BitVec.ofNat 6 n) 0 0 := by
      rw [and_op6Mask, ← hop, BitVec.ofNat_toNat, BitVec.setWidth_eq]
    unfold rowOfOp6 at hrow
    split at hrow <;> cases hrow
    all_goals next hop => exact ⟨by simp [opcodeMap], hmask hop⟩
  · have hmask {n : Nat} (hop : (opField w).toNat = n) : w &&& 0xFF0000 = hab (BitVec.ofNat 8 n) 0 0 := by
      rw [and_opcodeMask, ← hop, BitVec.ofNat_toNat, BitVec.setWidth_eq]
    unfold rowOfOpcode at hrow
    split at hrow <;> cases hrow
    all_goals next hop => exact ⟨by simp [opcodeMap], hmask hop⟩

/-- With `w[23] = 0` the opcode byte alone selects the row. -/
theorem rowOf_and_opcodeMask {w : Word24} (hbit : (w &&& 0xFF0000).getLsbD 23 = false) :
    rowOf w = rowOf (w &&& 0xFF0000) := by
  rw [and_opcodeMask] at hbit ⊢
  have hop : (opField w).toNat < 128 := by
    rw [formatBit_hab, decide_eq_false_iff_not] at hbit
    omega
  calc rowOf w
      = rowOf (hab (opField w) (aField w) (bField w)) := by rw [hab_fields]
    _ = rowOf (hab (opField w) 0 0) := by rw [rowOf_hab _ _ _ hop, rowOf_hab _ _ _ hop]

/-- With `w[23] = 1` the six-bit opcode alone selects the row. -/
theorem rowOf_and_op6Mask {w : Word24} (hbit : (w &&& 0xFC0000).getLsbD 23 = true) :
    rowOf w = rowOf (w &&& 0xFC0000) := by
  rw [and_op6Mask] at hbit ⊢
  have hop : 32 ≤ (op6Field w).toNat := by
    rwa [formatBit_hm, decide_eq_true_eq] at hbit
  calc rowOf w
      = rowOf (hm (op6Field w) (addrField w) (bField w)) := by rw [hm_fields]
    _ = rowOf (hm (op6Field w) 0 0) := by rw [rowOf_hm _ _ _ hop, rowOf_hm _ _ _ hop]

/-- Each row's pattern selects the row. -/
theorem rowOf_pattern : ∀ row ∈ opcodeMap, rowOf row.pattern = some row := List.map_inj_left.mp rfl

/-- Each row matches on the opcode byte with `w[23] = 0`, or on the six-bit opcode with `w[23] = 1`. -/
theorem opcodeMap_formats : ∀ row ∈ opcodeMap,
    (row.mask = 0xFF0000 ∧ row.pattern.getLsbD 23 = false) ∨ (row.mask = 0xFC0000 ∧ row.pattern.getLsbD 23 = true) := by
  decide

/-- A word that matches a row of the map selects it: the bits outside the mask take no part in the selection. -/
theorem rowOf_of_matches {w : Word24} {row : OpRow} (hmem : row ∈ opcodeMap) (hmatch : w &&& row.mask = row.pattern) :
    rowOf w = some row := by
  rw [← rowOf_pattern row hmem]
  obtain ⟨hmask, hbit⟩ | ⟨hmask, hbit⟩ := opcodeMap_formats row hmem
  · rw [← hmatch, hmask] at hbit ⊢
    exact rowOf_and_opcodeMask hbit
  · rw [← hmatch, hmask] at hbit ⊢
    exact rowOf_and_op6Mask hbit

/-- Settles O3: no two rows share a mnemonic, and the row a word selects is the one it matches. -/
theorem rowsAreSelectedByMatchAndMask : Obligations.RowsAreSelectedByMatchAndMask := by
  have hdistinct : (opcodeMap.map OpRow.mnemonic).Nodup := by decide
  intro w row hmem
  constructor
  · intro hname
    obtain ⟨selected, hrow, hmnemonic⟩ := Option.map_eq_some_iff.mp hname
    obtain ⟨hselected, hmatch⟩ := matches_of_rowOf hrow
    rwa [List.inj_on_of_nodup_map hdistinct hselected hmem hmnemonic] at hmatch
  · intro hmatch
    rw [rowOf_of_matches hmem hmatch, Option.map_some]

/-! ### The illegal opcodes (R105) -/

theorem rowOfOp6_eq_none_iff {op6 : BitVec 6} : rowOfOp6 op6 = none ↔ op6.toNat ≠ 32 ∧ op6.toNat ≠ 33 := by
  unfold rowOfOp6
  split <;> simp_all

theorem rowOfOpcode_isNone : ∀ op : Byte, (rowOfOpcode op).isNone = true ↔
    op.toNat = 0x00 ∨ (0x04 ≤ op.toNat ∧ op.toNat ≤ 0x0F) ∨ (0x15 ≤ op.toNat ∧ op.toNat ≤ 0x1F) ∨
      (0x24 ≤ op.toNat ∧ op.toNat ≤ 0x3F) ∨ 0x47 ≤ op.toNat := by decide

/-- Settles O4: an opcode byte below `0x80` is looked up whole, and from there on by its upper six bits. -/
theorem illegalOpcodesAreTheListedRanges : Obligations.IllegalOpcodesAreTheListedRanges := by
  intro w port
  have hop6 : (op6Field w).toNat = (opField w).toNat / 4 := by
    rw [op6Field_toNat, opField_toNat]; omega
  have hbit : w.getLsbD 23 = true ↔ 128 ≤ (opField w).toNat := by
    rw [formatBit_toNat, opField_toNat, decide_eq_true_eq]; omega
  rw [decode_illegalOpcode_iff, rowOf]
  split
  next h =>
    have hhigh := hbit.mp h
    rw [rowOfOp6_eq_none_iff, hop6]
    omega
  next h =>
    have hlow := mt hbit.mpr h
    rw [← Option.isNone_iff_eq_none, rowOfOpcode_isNone]
    omega

/-- Settles O6: each of the seven words is evaluated. -/
theorem spelledOutWordsDecode : Obligations.SpelledOutWordsDecode := by
  unfold Obligations.SpelledOutWordsDecode
  decide

/-- The opcodes `0x40` to `0x46` are the micro-ops'. -/
theorem rowOfOpcode_urom : ∀ op : Byte, 0x40 ≤ op.toNat → op.toNat ≤ 0x46 →
    (rowOfOpcode op).map OpRow.port = some .urom := by decide

/-- At the host port a word with a micro-op's opcode is refused for its class (R103). -/
theorem decode_host_microOpcode {w : Word24} (hlow : 0x40 ≤ (opField w).toNat) (hhigh : (opField w).toNat ≤ 0x46) :
    decode .host w = .wrongPort := by
  obtain ⟨row, hrow, hport⟩ := Option.map_eq_some_iff.mp (rowOfOpcode_urom (opField w) hlow hhigh)
  have hword : rowOf w = some row := by
    rw [← hab_fields w, rowOf_hab _ _ _ (by omega), hrow]
  exact decode_wrongPort hword (by simp [hport])

end Sys2Proof
end

section
/-! PROOF. What a refusal writes (R103, R105, R250, R251): at the port, inside a step, and for a second `START` (R221); and what
a step does with the word at the port (R220). -/

namespace Sys2Proof.Machine

/-! ### Faults (R250) -/

/-- At the port a fault writes `ERR` alone. -/
theorem State.raiseFault_idle {code : BitVec 4} {s : State} (hctl : s.ctl = .idle) :
    s.raiseFault code = { s with err := if s.err = 0 then code else s.err } := by
  simp [State.raiseFault, hctl, Ctl.endStep]

/-- Inside a step a fault writes `ERR` and ends the step. -/
theorem State.raiseFault_uops {code : BitVec 4} {c : Caller} {s : State} (hctl : s.ctl = .uops c) :
    s.raiseFault code = { s with err := if s.err = 0 then code else s.err, ctl := .stepDone c } := by
  rw [State.raiseFault, hctl, Ctl.endStep]

/-- Settles O32: `START` with `STARTED = 1` is `Fault(4)` at the port. -/
theorem secondStartIsRefused : Obligations.SecondStartIsRefused := by
  intro s hstarted hctl
  calc exec .start s
      = .next (s.raiseFault 4) := by rw [exec, execStart, if_pos hstarted]
    _ = .next { s with err := if s.err = 0 then 4 else s.err } := by rw [State.raiseFault_idle hctl]

/-! ### The presented word (R103, R220) -/

section
variable {run : Instr → State → Host.Outcome State Fault Refusal} {s : State} {w : Word24} {rest : List HostAct}

/-- A step at an awake, idle port presents the host's next word to the state after the turn. -/
theorem step_presents (hslp : s.boundary.sch.slp = false) (hctl : s.ctl = .idle) (hacts : s.hostActs = .word w :: rest) :
    step s = presentWord exec w { s.boundary with hostActs := rest } := by
  rw [step_eq, hostAction_idle hslp hctl, hostPort, State.boundary_hostActs, hacts]

theorem State.disabled_eq_false (herr : s.err ≠ 6) : s.disabled = false := by
  simpa [State.disabled] using herr

theorem presentWord_of_ok {i : Instr} (herr : s.err ≠ 6) (hdec : decode .host w = .ok i) :
    presentWord run w s = run i s := by
  simp [presentWord, State.disabled_eq_false herr, hdec]

theorem presentWord_of_refused (herr : s.err ≠ 6) (hdec : ∀ i, decode .host w ≠ .ok i) :
    presentWord run w s = .next (s.raiseFault ((decode .host w).faultCode .host)) := by
  cases hw : decode .host w with
  | ok i => exact absurd hw (hdec i)
  | illegalOpcode | wrongPort | reservedField => simp [presentWord, State.disabled_eq_false herr, hw]

/-- A refused word writes its code to a zero `ERR`; beside the turn and the word used up nothing else moves. -/
theorem step_refuses (hslp : s.boundary.sch.slp = false) (hctl : s.ctl = .idle) (hacts : s.hostActs = .word w :: rest)
    (herr : s.err ≠ 6) (hdec : ∀ i, decode .host w ≠ .ok i) :
    step s = .next { s.boundary with
      hostActs := rest, err := if s.err = 0 then (decode .host w).faultCode .host else s.err } := by
  calc step s
      = presentWord exec w { s.boundary with hostActs := rest } := step_presents hslp hctl hacts
    _ = .next (State.raiseFault ((decode .host w).faultCode .host) { s.boundary with hostActs := rest }) :=
      presentWord_of_refused herr hdec
    _ = .next { s.boundary with
          hostActs := rest, err := if s.err = 0 then (decode .host w).faultCode .host else s.err } :=
      congrArg _ (State.raiseFault_idle (s := { s.boundary with hostActs := rest }) hctl)

end

/-- Settles O7: the port's word decodes, so presenting it is running its operation. -/
theorem stepRunsPresentedWord : Obligations.StepRunsPresentedWord := by
  intro s w rest i hslp hctl hacts herr hdec
  rw [step_presents hslp hctl hacts]
  exact presentWord_of_ok herr hdec

/-- Settles O9: an illegal opcode and a micro-op's carry code 1, a reserved bit of the row the word matches carries code 2. -/
theorem refusedHostWordsOnlyWriteErr : Obligations.RefusedHostWordsOnlyWriteErr := by
  intro s w rest hslp hctl hacts herr
  have hstep := step_refuses hslp hctl hacts herr
  constructor
  · rintro (hillegal | ⟨hlow, hhigh⟩)
    · simpa [hillegal, Decoded.faultCode] using hstep
    · simpa [decode_host_microOpcode hlow hhigh, Decoded.faultCode] using hstep
  · intro row hmem hport hmatch hmbz
    have hreserved : decode .host w = .reservedField :=
      decode_reservedField (rowOf_of_matches hmem hmatch) hport hmbz
    simpa [hreserved, Decoded.faultCode] using hstep

/-! ### The fetched word (R190, R251) -/

theorem fetchUop_refused {run : Instr → State → Host.Outcome State Fault Refusal} {s : State} {w : Word24}
    (hfetch : s.urom[(uromAddr s.xphase s.upc).toNat]? = some w) (hdec : ∀ i, decode .urom w ≠ .ok i) :
    fetchUop run s = .next (State.raiseFault 5 { s with upc := s.upc + 1 }) := by
  obtain ⟨hnone, -⟩ | ⟨v, i, hv, hok, -⟩ | ⟨-, -, -, he⟩ := fetchUop_cases (run := run) s
  · rw [hfetch] at hnone; cases hnone
  · rw [hfetch] at hv; cases hv; exact absurd hok (hdec i)
  · exact he

/-- Settles O10: the refusal of the fetch is a fault inside the step, which ends it. -/
theorem refusedMicroWordsEndTheStep : Obligations.RefusedMicroWordsEndTheStep := by
  intro s c w hslp hctl hfetch hdec
  calc step s
      = fetchUop exec s.boundary := hostAction_uops hslp hctl
    _ = .next (State.raiseFault 5 { s.boundary with upc := s.upc + 1 }) := fetchUop_refused hfetch hdec
    _ = .next { s.boundary with upc := s.upc + 1, err := if s.err = 0 then 5 else s.err, ctl := .stepDone c } :=
      congrArg _ (State.raiseFault_uops (s := { s.boundary with upc := s.upc + 1 }) hctl)

end Sys2Proof.Machine
end

section
/-! PROOF. U1, the bit-plane colour mapper: the truth functions and their lookup form (R130, R131), the rule the runtime variant
selects (R134), and what `MAPC` and `MAPR` write (R132, R133). -/

namespace Sys2Proof.Machine

/-! ### The truth functions (R130, R131) -/

/-- The mask `k + 1` is the single bit `k` for the two rules of `CONTRAST4`. -/
theorem mapRule_contrast4 {k : BitVec 2} (hk : k.toNat < 2) (c : BitVec 2) :
    mapRule .contrast4 k c = c.getLsbD k.toNat := by
  revert k c; decide

/-- The two monotonic modes share one formula. -/
theorem mapRule_threshold {mode : GrayMode} (hmode : mode = .level3 ∨ mode = .triplane4) (k c : BitVec 2) :
    mapRule mode k c = decide (k.toNat < c.toNat) := by
  obtain rfl | rfl := hmode <;> rfl

theorem pixelByte_decide (P : Prop) [Decidable P] : pixelByte (decide P) = if P then 1 else 0 := by
  simp only [pixelByte, decide_eq_true_eq]

/-- Settles O13: each mode's constant is compared with its formula bit by bit; the reserved strap code has no constant. -/
theorem mapperIsItsLookupTable : Obligations.MapperIsItsLookupTable := by
  intro mode lut k c hlut hk
  cases mode with
  | contrast4 => cases hlut; revert k c; decide
  | level3 => cases hlut; revert k c; decide
  | triplane4 => cases hlut; revert k c; decide
  | reserved => cases hlut

/-! ### `MAPC` (R132) -/

theorem exec_mapc_of_lt {p : BitVec 2} {s : State} (hp : p.toNat < nplanes s.mode) (c : BitVec 2) :
    exec (.mapc p c) s = .next { s with ret := pixelByte (mapRule s.mode p c) } :=
  congrArg _ (if_neg (Nat.not_le.mpr hp))

theorem exec_mapc_of_le {p : BitVec 2} {s : State} (hp : nplanes s.mode ≤ p.toNat) (hctl : s.ctl = .idle) (c : BitVec 2) :
    exec (.mapc p c) s = .next { s with err := if s.err = 0 then 3 else s.err } :=
  calc exec (.mapc p c) s
      = .next (s.raiseFault 3) := congrArg _ (if_pos hp)
    _ = .next { s with err := if s.err = 0 then 3 else s.err } := by rw [State.raiseFault_idle hctl]

/-- Settles O14: a plane below the mode's count returns its rule's value, any other plane is `Fault(3)` at the port. -/
theorem mapcReturnsThePixel : Obligations.MapcReturnsThePixel := by
  intro p c s
  refine ⟨fun hmode hp => ?_, fun hmode hp => ?_, fun hmode hp => ?_, fun hmode hp hctl => ?_, fun hmode hp hctl => ?_⟩
  · rw [exec_mapc_of_lt (by rwa [hmode]), hmode, mapRule_contrast4 hp, pixelByte]
  · rw [exec_mapc_of_lt (by rwa [hmode]), mapRule_threshold (.inl hmode), pixelByte_decide]
  · rw [exec_mapc_of_lt (by rwa [hmode]), mapRule_threshold (.inr hmode), pixelByte_decide]
  · refine exec_mapc_of_le ?_ hctl c
    obtain hmode | hmode := hmode <;> rwa [hmode]
  · exact exec_mapc_of_le (by rw [hmode]; exact hp.ge) hctl c

/-! ### `MAPR` (R133, R134) -/

theorem ruleSel_toNat_of_two_planes {mode : GrayMode} (hmode : mode ≠ .triplane4) (p : BitVec 2) :
    (ruleSel mode p).toNat = min p.toNat 1 := by
  rw [ruleSel, if_neg hmode]
  revert p; decide

theorem ruleSel_toNat_triplane4 (p : BitVec 2) : (ruleSel .triplane4 p).toNat = min p.toNat 2 := by
  revert p; decide

theorem exec_mapr (p c : BitVec 2) (s : State) :
    exec (.mapr p c) s = .next { s with ret := pixelByte (mapRule s.mode (ruleSel s.mode p) c) } := rfl

/-- Settles O15: the rule selected is the plane's own, or the mode's last one. -/
theorem maprReturnsThePixel : Obligations.MaprReturnsThePixel := by
  intro p c s
  refine ⟨fun hmode => ?_, fun hmode => ?_, fun hmode => ?_⟩
  · have hsel : (ruleSel s.mode p).toNat = min p.toNat 1 := ruleSel_toNat_of_two_planes (by simp [hmode]) p
    have hrule : (ruleSel s.mode p).toNat < 2 := by omega
    rw [exec_mapr, ← hsel, pixelByte, hmode, mapRule_contrast4 (hmode ▸ hrule)]
  · have hsel : (ruleSel s.mode p).toNat = min p.toNat 1 := ruleSel_toNat_of_two_planes (by simp [hmode]) p
    rw [exec_mapr, mapRule_threshold (.inl hmode), hsel, pixelByte_decide]
  · rw [exec_mapr, mapRule_threshold (.inr hmode), hmode, ruleSel_toNat_triplane4, pixelByte_decide]

end Sys2Proof.Machine
end

section
/-! PROOF. The transfer engine: what a burst sends, clears and leaves in its registers (R151 to R154), its refusal (R155),
and that a micro-op's work does not depend on the scheduler (R156, R208). -/

namespace Sys2Proof.Machine

open Sys2Proof.Safety

/-! ### Operands outside the contract (R155) -/

theorem burstOk_iff {page : BitVec 3} {pages : BitVec 4} :
    burstOk page pages = true ↔ 1 ≤ pages.toNat ∧ page.toNat + pages.toNat ≤ 8 := by
  simp [burstOk]

theorem burstOk_eq_false {page : BitVec 3} {pages : BitVec 4} (h : pages = 0 ∨ 8 < page.toNat + pages.toNat) :
    burstOk page pages = false := by
  rw [← Bool.not_eq_true, burstOk_iff]
  rintro ⟨hpos, hend⟩
  rcases h with rfl | h
  · exact absurd hpos (by decide)
  · omega

theorem xfer_refused {page : BitVec 3} {pages : BitVec 4} (h : burstOk page pages = false) (mask : Byte) (clr : Bool)
    (s : State) : xfer page pages mask clr s = s.raiseFault 5 :=
  if_neg (by simp [h])

/-- Settles O18: the check of `X0` fails, and the fault is raised inside the step. -/
theorem uXferOutsideTheBufferIsRefused : Obligations.UXferOutsideTheBufferIsRefused := by
  intro page pages mask ce s c hout hctl
  calc exec (.uXfer page pages mask ce) s
      = .next (s.raiseFault 5) := by rw [exec, execUXfer, xfer_refused (burstOk_eq_false hout)]
    _ = .next { s with err := if s.err = 0 then 5 else s.err, ctl := .stepDone c } := by rw [State.raiseFault_uops hctl]

/-! ### The addresses of a burst (R151) -/

theorem mem_burstAddrs {order : XferOrder} {page : BitVec 3} {pages : BitVec 4} {a : Nat} :
    a ∈ burstAddrs order page pages ↔ inBurst page pages a = true := by
  simp only [inBurst, Bool.and_eq_true, decide_eq_true_eq]
  cases order <;> simp only [burstAddrs, List.mem_map, List.mem_range]
  case desc =>
    constructor
    · rintro ⟨i, hi, rfl⟩; omega
    · rintro ⟨hlow, hhigh⟩; exact ⟨128 * (page.toNat + pages.toNat) - 1 - a, by omega, by omega⟩
  case asc =>
    constructor
    · rintro ⟨i, hi, rfl⟩; omega
    · rintro ⟨hlow, hhigh⟩; exact ⟨a - 128 * page.toNat, by omega, by omega⟩

theorem burstAddrs_lt {order : XferOrder} {page : BitVec 3} {pages : BitVec 4} (hok : burstOk page pages = true) {a : Nat}
    (ha : a ∈ burstAddrs order page pages) : a < fbBytes := by
  obtain ⟨-, hend⟩ := burstOk_iff.mp hok
  simp only [mem_burstAddrs, inBurst, Bool.and_eq_true, decide_eq_true_eq] at ha
  unfold fbBytes
  omega

theorem burstLen_toNat (pages : BitVec 4) : (burstLen pages).toNat = 128 * pages.toNat := by
  simp only [burstLen, BitVec.toNat_ofNat]
  omega

/-! ### What a burst does (R151 to R154) -/

/-- The state in which the first byte is due: after `X0` and `X1`. -/
def xferReady (page : BitVec 3) (pages : BitVec 4) (mask : Byte) (clr : Bool) (s : State) : State :=
  xferOpen (xferLoad page pages mask clr s).boundary

@[simp] theorem xferReady_par (page : BitVec 3) (pages : BitVec 4) (mask : Byte) (clr : Bool) (s : State) :
    (xferReady page pages mask clr s).par = s.par := rfl

section
variable {page : BitVec 3} {pages : BitVec 4} (hok : burstOk page pages = true) (mask : Byte) (clr : Bool) (s : State)
include hok

/-- A burst inside the contract is `X0`, `X1`, its bytes and `X3`. -/
theorem xfer_of_burstOk : xfer page pages mask clr s =
    xferClose (xferBytes (128 * pages.toNat) (xferReady page pages mask clr s)).boundary := by
  rw [← burstLen_toNat]
  exact if_pos hok

/-- The pointer the burst's addresses are counted from. -/
theorem xferReady_xptr_toNat : (xferReady page pages mask clr s).xptr.toNat = match s.par.xferOrder with
    | .desc => 128 * (page.toNat + pages.toNat)
    | .asc => 128 * page.toNat := by
  obtain ⟨-, hend⟩ := burstOk_iff.mp hok
  unfold xferReady xferOpen xferLoad
  cases s.par.xferOrder <;> simp only [State.boundary_xptr, burstEnd, burstLow, BitVec.toNat_ofNat] <;> omega

theorem xferReady_runFits :
    runFits s.par.xferOrder (xferReady page pages mask clr s).xptr.toNat (128 * pages.toNat) := by
  rw [← burstLen_toNat]
  exact xferLoad_runFits hok mask clr s

/-- The bytes of the run that follows `X1` are those of the burst, in its order. -/
theorem burstAddrs_eq_runAddrs : burstAddrs s.par.xferOrder page pages =
    (List.range (128 * pages.toNat)).map (runAddr s.par.xferOrder (xferReady page pages mask clr s).xptr.toNat) := by
  rw [xferReady_xptr_toNat hok]
  cases s.par.xferOrder <;> rfl

/-- What the run of a burst's bytes leaves in the log, the frame buffer and the working registers, in the vocabulary of the
claims. `X3` writes `DORD` alone, so it leaves them all as the last byte did. -/
theorem xfer_data :
    (xfer page pages mask clr s).log =
        (burstEvents s.par.xferOrder page pages mask (!s.dord) s.fb).reverse ++ s.log ∧
      (xfer page pages mask clr s).fb =
        (if clr then (burstAddrs s.par.xferOrder page pages).foldl (fun m a => m.write a 0) s.fb else s.fb) ∧
      (xfer page pages mask clr s).xptr.toNat = (match s.par.xferOrder with
        | .desc => 128 * page.toNat
        | .asc => 128 * (page.toNat + pages.toNat)) ∧
      (xfer page pages mask clr s).xcnt = 0 ∧
      (burstAddrs s.par.xferOrder page pages).getLast?.map s.fb.read = some (xfer page pages mask clr s).xd := by
  obtain ⟨hpos, -⟩ := burstOk_iff.mp hok
  have hbytes : 128 * pages.toNat ≠ 0 := by omega
  obtain ⟨hlog, hfb, hxptr, hxcnt, hxd⟩ :=
    xferBytes_data _ (xferReady page pages mask clr s) (xferReady_runFits hok mask clr s)
  rw [xfer_of_burstOk hok, burstEvents, burstAddrs_eq_runAddrs hok mask clr]
  refine ⟨?_, hfb, hxptr.trans ?_, hxcnt.trans (BitVec.sub_self _), ?_⟩
  · rw [List.map_map]; exact hlog
  · rw [xferReady_par, xferReady_xptr_toNat hok]
    cases s.par.xferOrder <;> simp only <;> omega
  · rw [List.getLast?_map, List.getLast?_range, if_neg hbytes]
    exact congrArg some (hxd hbytes).symm

/-- The whole state after a burst: the engine's registers, the frame buffer, the log, `DC` and the scheduler's turns. -/
theorem xfer_eq : xfer page pages mask clr s =
    { s with
      sch := turnsTaken s.sync s.par (128 * pages.toNat + 2) s.sch
      xptr := (xfer page pages mask clr s).xptr, xcnt := 0, xmask := mask, xclr := clr
      xd := (xfer page pages mask clr s).xd, dc := true
      fb := (xfer page pages mask clr s).fb, log := (xfer page pages mask clr s).log } := by
  have hsch := xfer_sch page pages mask clr s
  obtain ⟨-, -, -, hxcnt, -⟩ := xfer_data hok mask clr s
  have hframe := xferBytes_frame (128 * pages.toNat) (xferReady page pages mask clr s)
  have hxmask : (xfer page pages mask clr s).xmask = mask := by rw [xfer_of_burstOk hok]; exact hframe.xmask
  have hxclr : (xfer page pages mask clr s).xclr = clr := by rw [xfer_of_burstOk hok]; exact hframe.xclr
  rw [if_pos hok] at hsch
  obtain ⟨hrefused, -⟩ | ⟨-, _, _, _, _, _, _, _, _, he⟩ := xfer_cases page pages mask clr s
  · exact absurd hok (by simp [hrefused])
  · rw [he] at hsch hxcnt hxmask hxclr ⊢
    simp only at hsch hxcnt hxmask hxclr
    rw [hsch, hxcnt, hxmask, hxclr]

end

/-- A clearing burst leaves 0 in the bytes of its range and no trace elsewhere. -/
theorem xfer_fb_read {page : BitVec 3} {pages : BitVec 4} (hok : burstOk page pages = true) (mask : Byte) (clr : Bool)
    {s : State} (hwf : s.fb.wf = true) (a : Nat) :
    (xfer page pages mask clr s).fb.read a = if clr && inBurst page pages a then 0 else s.fb.read a := by
  obtain ⟨-, hfb, -⟩ := xfer_data hok mask clr s
  rw [hfb]
  cases clr with
  | false => rfl
  | true => simp only [if_true, clear_read _ _ hwf (fun _ => burstAddrs_lt hok), mem_burstAddrs, Bool.true_and]

/-- Settles O17: `U_XFER` is the burst that clears when `ce` and `CLRIN` are both 1. -/
theorem uXferSendsThePages : Obligations.UXferSendsThePages := by
  intro page pages mask ce s hpos hend hwf
  have hok := burstOk_iff.mpr ⟨hpos, hend⟩
  obtain ⟨hlog, -, hxptr, -, hxd⟩ := xfer_data hok mask (ce && s.clrin) s
  refine ⟨xfer page pages mask (ce && s.clrin) s, rfl, ?_, xfer_wf hok mask _ hwf, xfer_fb_read hok mask _ hwf, hxptr, hxd,
    xfer_eq hok mask _ s⟩
  rw [State.bus, hlog, List.reverse_append, List.reverse_reverse, State.bus]

/-! ### The scheduler is not read (R156, R208) -/

theorem State.setSch_boundary (k : Sched) (s : State) :
    (s.setSch k).boundary = s.boundary.setSch (k.turn s.sync s.par) := rfl

theorem xferReady_setSch (page : BitVec 3) (pages : BitVec 4) (mask : Byte) (clr : Bool) (k : Sched) (s : State) :
    xferReady page pages mask clr (s.setSch k) =
      (xferReady page pages mask clr s).setSch (k.turn s.sync s.par) := rfl

theorem xferByte_setSch (k : Sched) (s : State) : xferByte (s.setSch k) = (xferByte s).setSch k := by
  rw [xferByte_eq, xferByte_eq]; rfl

/-- Each turn falls on the scheduler alone, so a run of burst bytes does the same work from every scheduler. -/
theorem xferBytes_setSch (n : Nat) (k : Sched) (s : State) :
    ∃ k', xferBytes n (s.setSch k) = (xferBytes n s).setSch k' := by
  induction n generalizing k s with
  | zero => exact ⟨k, rfl⟩
  | succ n ih =>
    simp only [xferBytes, State.setSch_boundary, xferByte_setSch]
    exact ih _ _

theorem xfer_setSch (page : BitVec 3) (pages : BitVec 4) (mask : Byte) (clr : Bool) (k : Sched) (s : State) :
    ∃ k', xfer page pages mask clr (s.setSch k) = (xfer page pages mask clr s).setSch k' := by
  cases hok : burstOk page pages with
  | true =>
    obtain ⟨k', hbytes⟩ := xferBytes_setSch (128 * pages.toNat) (k.turn s.sync s.par) (xferReady page pages mask clr s)
    rw [xfer_of_burstOk hok, xfer_of_burstOk hok, xferReady_setSch, hbytes]
    exact ⟨_, rfl⟩
  | false => exact ⟨k, by rw [xfer_refused hok, xfer_refused hok]; rfl⟩

theorem exec_uCon_setSch (k : Sched) (s : State) : exec .uCon (s.setSch k) = .next (State.setSch k
    (if contrastTrick s.par s.mode then s.emitCmd (.contrast (planeContrast s.par s.plane)) else s)) := by
  rw [apply_ite (State.setSch k)]; rfl

/-- Settles O58: `U_XFER` takes its turns from the scheduler it finds and reads nothing of it; the other micro-ops do not
touch it. -/
theorem microOpsIgnoreTheInterrupt : Obligations.MicroOpsIgnoreTheInterrupt := by
  intro i s t k hport h
  cases i with
  | uXfer page pages mask ce =>
    cases h
    obtain ⟨k', hxfer⟩ := xfer_setSch page pages mask (ce && s.clrin) k s
    exact ⟨k', congrArg _ hxfer⟩
  | uCon => cases h; exact ⟨k, exec_uCon_setSch k s⟩
  | uEnd | uRow | uPtr | uSlow | uAdv => cases h; exact ⟨k, rfl⟩
  | mapc | mapr | pxw | start | wait | poll | needupd | getplane | setcon | setupd | sethz | tiew | fbwr | fbrd =>
    exact absurd hport (by simp [Instr.wellFormedAt, Instr.port])

end Sys2Proof.Machine
end

section
/-! PROOF. The scheduler: the timer's ticks and fires (R171, R172, R255), what an interrupt does under each protocol (R173 to
R175, R256, R257), what the timer and the ISR neither write nor read (R176), and the commands that set the timer up (R177,
R178, R221). -/

namespace Sys2Proof.Machine

/-! ### Ticks (R171) -/

/-- A tick that does not reach `OCR` only counts. -/
theorem Sched.tick_of_ne {p : Params} {k : Sched} (hrun : k.trun = true) (hne : timerWord p (k.tcnt + 1) ≠ k.ocr) :
    k.tick p = { k with tcnt := timerWord p (k.tcnt + 1) } := by
  rw [Sched.tick, if_pos hrun, if_neg hne]

/-- The tick that reaches `OCR` fires. -/
theorem Sched.tick_of_eq {p : Params} {k : Sched} (hrun : k.trun = true) (heq : timerWord p (k.tcnt + 1) = k.ocr) :
    k.tick p = k.fire := by
  rw [Sched.tick, if_pos hrun, if_pos heq]; rfl

/-- The ticks before the compare match count them. -/
theorem Sched.repeat_tick {p : Params} {k : Sched} (hrun : k.trun = true) (hzero : k.tcnt = 0) (hocr : k.ocr < 2 ^ p.tw)
    {n : Nat} (hn : n < k.ocr) : Nat.repeat (Sched.tick p) n k = { k with tcnt := n } := by
  induction n with
  | zero => exact congrArg (fun c => { k with tcnt := c }) hzero
  | succ n ih =>
    have hword : timerWord p (n + 1) = n + 1 := timerWord_of_lt (hn.trans hocr)
    have hne : timerWord p (n + 1) ≠ k.ocr := by rw [hword]; exact hn.ne
    rw [Nat.repeat, ih (Nat.lt_of_succ_lt hn), Sched.tick_of_ne (k := { k with tcnt := n }) hrun hne, hword]

/-- Settles O20: the ticks before the last count, and the last one reaches `OCR`. -/
theorem timerFiresAfterOcrTicks : Obligations.TimerFiresAfterOcrTicks := by
  intro p k hrun hzero hpos hocr
  refine ⟨fun n hn => Sched.repeat_tick hrun hzero hocr hn, ?_⟩
  obtain ⟨n, hn⟩ : ∃ n, k.ocr = n + 1 := ⟨k.ocr - 1, by omega⟩
  have hword : timerWord p (n + 1) = k.ocr := by rw [← hn, timerWord_of_lt hocr]
  calc Nat.repeat (Sched.tick p) k.ocr k
      = Sched.tick p (Nat.repeat (Sched.tick p) n k) := by rw [hn]; rfl
    _ = Sched.tick p { k with tcnt := n } := by rw [Sched.repeat_tick hrun hzero hocr (by omega)]
    _ = { k with tcnt := 0, tif := true } := Sched.tick_of_eq (k := { k with tcnt := n }) hrun hword

/-! ### The interrupt (R174, R175, R256, R257) -/

/-- Entry, body and return under `THREE_PHASE`. -/
theorem Sched.takeInterrupt_threePhase {sync : SyncMode} {p : Params} {k : Sched} (hsync : isThreePhase sync = true) :
    k.takeInterrupt sync p = { k with
      tif := false, slp := false, gie := true, nd := true
      phase := nextPhase k.phase, ocr := delayOf p k.tcr (nextPhase k.phase) } := by
  rw [Sched.takeInterrupt, Sched.isrBody, if_pos hsync]; rfl

/-- Entry, body and return under the two-phase protocols. -/
theorem Sched.takeInterrupt_twoPhase {sync : SyncMode} {p : Params} {k : Sched} (hsync : isThreePhase sync = false) :
    k.takeInterrupt sync p = { k with tif := false, slp := false, gie := true, nd := true, ocr := k.tcr } := by
  rw [Sched.takeInterrupt, Sched.isrBody, if_neg (by simp [hsync])]; rfl

/-- The turn that is one chance of entry takes a takeable interrupt. -/
theorem Sched.turn_entry {sync : SyncMode} {p : Params} {k : Sched} {rest : List (List AsyncStep)} (htif : k.tif = true)
    (htie : k.tie = true) (hgie : k.gie = true) (hturns : k.turns = [.entry] :: rest) :
    k.turn sync p = Sched.takeInterrupt sync p { k with turns := rest } := by
  have htake : Sched.takeable { k with turns := rest } = true := by simp [Sched.takeable, htif, htie, hgie]
  rw [Sched.turn, hturns]
  exact if_pos htake

/-! ### The phase delays, and one interrupt under each protocol (R173 to R175) -/

theorem delayOf_of_ne_two {p : Params} {tcr : Nat} {q : BitVec 2} (hq : q ≠ 2) (hshort : p.delayShort < 2 ^ p.tw) :
    delayOf p tcr q = p.delayShort := by
  rw [delayOf, if_neg hq, timerWord_of_lt hshort]

theorem delayOf_two {p : Params} {tcr : Nat} (hlong : 2 * p.delayShort < tcr) (htcr : tcr < 2 ^ p.tw) :
    delayOf p tcr 2 = tcr - 2 * p.delayShort := by
  rw [delayOf, if_pos rfl, delayLong, if_pos hlong, timerWord_of_lt (by omega)]

/-- Settles O22: the interrupt programs the delay of the phase after `PHASE`. -/
theorem interruptAdvancesThePhase : Obligations.InterruptAdvancesThePhase := by
  intro p k rest htif htie hgie hturns hshort hlong htcr done
  have hturn : k.turn .threePhase p =
      { done with phase := nextPhase k.phase, ocr := delayOf p k.tcr (nextPhase k.phase) } :=
    (Sched.turn_entry htif htie hgie hturns).trans (Sched.takeInterrupt_threePhase rfl)
  refine ⟨fun hphase => ?_, fun hphase => ?_, fun hphase => ?_⟩ <;> rw [hturn, hphase]
  · rw [show nextPhase 3 = 1 from rfl, delayOf_of_ne_two (by decide) hshort]
  · rw [show nextPhase 1 = 2 from rfl, delayOf_two hlong htcr]
  · rw [show nextPhase 2 = 3 from rfl, delayOf_of_ne_two (by decide) hshort]

/-- Settles O23: the interrupt runs the body of the two-phase protocols. -/
theorem interruptOfTheTwoPhaseProtocols : Obligations.InterruptOfTheTwoPhaseProtocols := by
  intro sync p k rest hsync htif htie hgie hturns
  have htwo : isThreePhase sync = false := by rcases hsync with rfl | rfl <;> rfl
  exact (Sched.turn_entry htif htie hgie hturns).trans (Sched.takeInterrupt_twoPhase htwo)

/-! ### Fires before an entry (R255) -/

/-- A second fire is absorbed. -/
theorem Sched.async_fire_fire (sync : SyncMode) (p : Params) (k : Sched) :
    (k.async sync p .fire).async sync p .fire = k.async sync p .fire := by
  cases hrun : k.trun <;> simp [Sched.async, Sched.fire, hrun]

/-- An entry clears `TIF`, so right after one the interrupt is not takeable. -/
theorem Sched.takeable_takeInterrupt (sync : SyncMode) (p : Params) (k : Sched) :
    (k.takeInterrupt sync p).takeable = false := by
  cases hsync : isThreePhase sync with
  | true => rw [Sched.takeInterrupt_threePhase hsync]; rfl
  | false => rw [Sched.takeInterrupt_twoPhase hsync]; rfl

theorem Sched.async_entry_entry (sync : SyncMode) (p : Params) (k : Sched) :
    (k.async sync p .entry).async sync p .entry = k.async sync p .entry := by
  cases htake : k.takeable <;> simp [Sched.async, htake, Sched.takeable_takeInterrupt]

theorem Sched.foldl_fires (sync : SyncMode) (p : Params) (n : Nat) (k : Sched) :
    (List.replicate (n + 1) AsyncStep.fire).foldl (fun k e => k.async sync p e) k = k.async sync p .fire := by
  induction n generalizing k with
  | zero => rfl
  | succ n ih => rw [List.replicate_succ, List.foldl_cons, ih, Sched.async_fire_fire]

/-- Settles O21: the fires act as one, and the second chance of entry finds nothing pending. -/
theorem firesCoalesce : Obligations.FiresCoalesce := by
  intro sync p k n rest
  simp only [Sched.turn, List.foldl_append, List.foldl_cons, List.foldl_nil, Sched.foldl_fires, Sched.async_entry_entry]

/-! ### What the timer and the ISR leave alone (R38, R176) -/

/-- A turn may write `PHASE`, `ND`, `TCNT`, `OCR`, `TIF`, `SLP` and the schedule. -/
theorem Sched.turn_frame (sync : SyncMode) (p : Params) (k : Sched) : k.turn sync p = { k.turn sync p with
    tcr := k.tcr, trun := k.trun, tie := k.tie, gie := k.gie, se := k.se } := by
  rw [← Sched.turn_tcr sync p k, ← Sched.turn_trun sync p k, ← Sched.turn_tie sync p k, ← Sched.turn_gie sync p k,
    ← Sched.turn_se sync p k]

/-- Settles O25: a boundary is the scheduler's turn, which takes `CFG` and the parameters and no other register. -/
theorem asynchronousStepsStayInTheScheduler : Obligations.AsynchronousStepsStayInTheScheduler := by
  intro s
  refine ⟨⟨_, _, _, _, _, _, _, congrArg (State.setSch · s) (Sched.turn_frame s.sync s.par s.sch), Sched.turn_nd,
    Sched.turn_slp⟩, fun r hcfg hpar hsch => ?_⟩
  rw [State.boundary_sch, State.boundary_sch, State.sync, State.sync, hcfg, hpar, hsch]

/-! ### The first `START` (R221) -/

/-- The compare value `T3` loads. -/
theorem firstCompare_eq {s : State} (hshort : s.sync = .threePhase → s.par.delayShort < 2 ^ s.par.tw) :
    firstCompare s = if s.sync = .threePhase then s.par.delayShort else s.sch.tcr := by
  simp only [firstCompare, isThreePhase_iff]
  split
  · rename_i hsync
    exact delayOf_of_ne_two (by decide) (hshort hsync)
  · rfl

/-- With the timer stopped and nothing pending the turns between `T1`, `T2` and `T3` only use themselves up. -/
theorem execStart_first {s : State} (hstarted : s.started = false) (hrun : s.sch.trun = false) (htif : s.sch.tif = false) :
    execStart s = .next { s with
      plane := 0, ucnt := 0, started := true, dc := s.dc || !(startCmds s.par).isEmpty
      log := ((startCmds s.par).map (fun c => BusEvent.cmd (startCmd s.con c))).reverse ++ s.log
      sch := { s.sch with
        phase := 3, nd := false, tcnt := 0, tif := false, tie := true, trun := true, ocr := firstCompare s
        turns := s.sch.turns.drop 3 } } := by
  have hclear : (startClear s.boundary).boundary =
      startClear { s with sch := { s.sch with turns := s.sch.turns.drop 2 } } := by
    rw [boundary_stopped hrun htif, boundary_stopped (s := startClear _) (by exact hrun) (by exact htif)]
    simp [startClear]
  rw [execStart, if_neg (by simp [hstarted]), hclear, startEmit_eq, boundary_stopped (by exact hrun) (by exact htif)]
  simp only [startClear, List.drop_drop]
  rfl

/-- Settles O31: the first `START` appends the list `startCmds` gives and loads the compare value of `firstCompare_eq`. -/
theorem startArmsTheEngine : Obligations.StartArmsTheEngine := by
  intro s hstarted hrun htif hshort
  refine ⟨_, execStart_first hstarted hrun htif, ?_, fun hdefault => ?_, ?_⟩
  · simp [State.bus]
  · simp [State.bus, startCmds, hdefault, startCmd]
  · rw [firstCompare_eq hshort]

/-! ### `TIEW` and `SETHZ` (R177, R178) -/

/-- Settles O26: each is one update of the scheduler, and `SETHZ` holds the reload value in `TW` bits. -/
theorem timerCommandsWriteOneRegister : Obligations.TimerCommandsWriteOneRegister := fun _ hz s =>
  ⟨rfl, timerWord s.par (reload s.par hz.toNat), rfl, timerWord_lt _ _, timerWord_of_lt⟩

end Sys2Proof.Machine
end

section
/-! PROOF. U3, the sequencer, micro-op by micro-op: the fetch (R190, R191, R199), the operations that emit one command
(R193 to R195, R197), the end of a step (R192), and that the built store raises no code 5 (R251). -/

namespace Sys2Proof

/-! ### Reserved bits of a word of format `HAB` (R103) -/

/-- A word of format `HAB` has no bit of the mask `{0, m, n}` exactly when its operand bytes have none. -/
theorem hab_and_eq_zero_iff {op a b m n : Byte} : hab op a b &&& hab 0 m n = 0 ↔ a &&& m = 0 ∧ b &&& n = 0 := by
  refine ⟨fun h => ?_, fun ⟨ha, hb⟩ => hab_clear ha hb⟩
  rw [hab_and] at h
  have ha := congrArg aField h
  have hb := congrArg bField h
  rw [aField_hab] at ha
  rw [bField_hab] at hb
  exact ⟨ha, hb⟩

/-- At its row's own port a word is the row's operation, or is refused for a reserved bit. -/
theorem decode_hab {port : Port} {op m n : Byte} {row : OpRow} (hop : op.toNat < 128) (hrow : rowOfOpcode op = some row)
    (hport : row.port = port) (hmbz : row.mbz = hab 0 m n) (a b : Byte) :
    decode port (hab op a b) =
      if a &&& m = 0 ∧ b &&& n = 0 then .ok (row.operands (hab op a b)) else .reservedField := by
  have hword : rowOf (hab op a b) = some row := (rowOf_hab op a b hop).trans hrow
  split
  next h => exact Machine.decode_of_row hword hport (by rw [hmbz]; exact hab_and_eq_zero_iff.mpr h) rfl
  next h => exact decode_reservedField hword hport (by rw [hmbz]; exact mt hab_and_eq_zero_iff.mp h)

theorem decode_uRow_word (a b : Byte) : decode .urom (hab 0x42 a b) =
    if a = 0 ∧ b &&& 0xC0 = 0 then .ok (.uRow (b.extractLsb' 0 6)) else .reservedField := by
  rw [decode_hab (row := rowURow) (port := .urom) (m := BitVec.allOnes 8) (n := 0xC0) (by decide) rfl rfl rfl,
    BitVec.and_allOnes, rowURow]
  simp only [bField_hab]

theorem decode_uPtr_word (a b : Byte) : decode .urom (hab 0x43 a b) =
    if a &&& 0xF8 = 0 ∧ b &&& 0x80 = 0 then .ok (.uPtr (b.extractLsb' 0 7) (a.extractLsb' 0 3)) else .reservedField := by
  rw [decode_hab (row := rowUPtr) (port := .urom) (m := 0xF8) (n := 0x80) (by decide) rfl rfl rfl, rowUPtr]
  simp only [aField_hab, bField_hab]

end Sys2Proof

namespace Sys2Proof.Machine

/-! ### The fetch (R190, R191, R199) -/

theorem fetchUop_of_ok {run : Instr → State → Host.Outcome State Fault Refusal} {s : State} {w : Word24} {i : Instr}
    (hfetch : s.urom[(uromAddr s.xphase s.upc).toNat]? = some w) (hdec : decode .urom w = .ok i) :
    fetchUop run s = run i { s with upc := s.upc + 1 } := by
  simp only [fetchUop, hfetch, hdec]

/-- Settles O8: the host is inside a step, so its action is the fetch, at the address `uromAddr` forms. -/
theorem stepRunsFetchedMicroOp : Obligations.StepRunsFetchedMicroOp := by
  intro s c w i hslp hctl hfetch hdec
  calc step s
      = fetchUop exec s.boundary := hostAction_uops hslp hctl
    _ = exec i { s.boundary with upc := s.upc + 1 } := fetchUop_of_ok hfetch hdec

/-! ### Micro-ops that emit one command, and `U_END` (R192 to R195, R197) -/

/-- Settles O27: each operation is one `emitCmd`, and the words of the two opcodes are decoded by their rows. -/
theorem commandMicroOpsEmitOneEvent : Obligations.CommandMicroOpsEmitOneEvent := by
  refine ⟨fun r col page e s => ⟨?_, ?_, ?_⟩, fun a b => ⟨decode_uRow_word a b, decode_uPtr_word a b⟩, rfl⟩
  · exact ⟨s.emitCmd (.rowstart r), rfl, State.bus_emitCmd _ s, rfl⟩
  · exact ⟨s.emitCmd (.ptr col page), rfl, State.bus_emitCmd _ s, rfl⟩
  · exact ⟨s.emitCmd (.slow e), rfl, State.bus_emitCmd _ s, rfl⟩

theorem exec_uCon_on {s : State} (h : contrastTrick s.par s.mode = true) :
    exec .uCon s = .next (s.emitCmd (.contrast (planeContrast s.par s.plane))) :=
  congrArg _ (if_pos h)

theorem exec_uCon_off {s : State} (h : contrastTrick s.par s.mode = false) : exec .uCon s = .next s :=
  congrArg _ (if_neg (by simp [h]))

theorem planeContrast_of_some {p : Params} {plane : BitVec 2} {w : Byte} (h : p.planeContrast[plane.toNat]? = some w) :
    planeContrast p plane = w := by
  rw [planeContrast, h]

/-- Settles O28: the clauses are `CONTRAST_TRICK` as set, or as its default sets it. -/
theorem uConWritesThePlaneContrast : Obligations.UConWritesThePlaneContrast := by
  refine fun s => ⟨fun hon => ?_, fun hoff => ?_⟩
  · have htrick : contrastTrick s.par s.mode = true := by
      rcases hon with h | ⟨h, hmode⟩
      · simp [contrastTrick, h]
      · simp [contrastTrick, h, hmode]
    exact ⟨_, _, exec_uCon_on htrick, State.bus_emitCmd _ s, rfl, fun w => planeContrast_of_some⟩
  · have htrick : contrastTrick s.par s.mode = false := by
      rcases hoff with h | ⟨h, hmode⟩
      · simp [contrastTrick, h]
      · simp [contrastTrick, h, hmode]
    exact exec_uCon_off htrick

/-- Settles O30: inside a step `endStep` is the move to the step's end. -/
theorem uEndEndsTheStep : Obligations.UEndEndsTheStep := by
  intro s c hctl
  calc exec .uEnd s
      = .next (s.setCtl s.ctl.endStep) := rfl
    _ = .next { s with ctl := .stepDone c } := by rw [hctl]; rfl

/-! ### The built store raises no code 5 (R199, R251) -/

/-- A burst of the operation, if it is one, lies inside the contract (R155). -/
def burstFits : Instr → Bool
  | .uXfer page pages _ _ => burstOk page pages
  | _ => true

theorem burstOk_park (p : Params) : burstOk (parkPage p) 1#4 = true := by
  unfold parkPage; cases p.parkPage <;> rfl

theorem burstOk_main (p : Params) : burstOk (mainPage p) 7#4 = true := by
  unfold mainPage; cases p.parkPage <;> rfl

/-- Every program is made of micro-ops, and each of its bursts lies inside the contract (R200 to R204). -/
theorem mem_program {p : Params} {sync : SyncMode} {q : Nat} {i : Instr} (h : i ∈ program p sync q) :
    i.wellFormedAt .urom = true ∧ burstFits i = true := by
  revert i
  unfold program
  split <;>
    simp [programPhase1, programPhase2, programPhase3, programParkRow, programSlowDrive, uPtrPark, uXferPark, uXferMain,
      Instr.wellFormedAt, Instr.port, burstFits, burstOk_park, burstOk_main]

theorem storedUop_burstFits (p : Params) (sync : SyncMode) (q : BitVec 2) (u : BitVec 4) :
    burstFits (storedUop p sync q u) = true := by
  unfold storedUop
  rw [List.getD_eq_getElem?_getD]
  cases hget : (program p sync q.toNat)[u.toNat]? with
  | none => rfl
  | some i => exact (mem_program (List.mem_of_getElem? hget)).2

/-- A fetch from the built store finds the micro-op stored there; no fetch with a latched phase of 0 finds a word. -/
theorem fetch_builtStore {s : State} {w : Word24} (hurom : s.urom = microStore s.par s.sync)
    (hfetch : s.urom[(uromAddr s.xphase s.upc).toNat]? = some w) :
    decode .urom w = .ok (storedUop s.par s.sync s.xphase s.upc) := by
  have hphase : s.xphase ≠ 0 := by
    intro hzero
    have houtside : ∀ u : BitVec 4, ¬ (uromAddr 0 u).toNat < 48 := by decide
    obtain ⟨hlt, -⟩ := List.getElem?_eq_some_iff.mp hfetch
    rw [hurom, microStore_length, hzero] at hlt
    exact houtside _ hlt
  rw [hurom, microStore_word _ _ _ hphase] at hfetch
  cases hfetch
  exact decode_uop (storedUop_port _ _ _ _)

theorem raiseFault_err_ne_five {code : BitVec 4} {s : State} (hcode : code ≠ 5) (h : s.err ≠ 5) :
    (s.raiseFault code).err ≠ 5 := by
  rw [State.raiseFault_err]
  split
  · exact hcode
  · exact h

theorem waitEnter_err (clr : Bool) (s : State) : (waitEnter clr s).err = s.err := by
  obtain ⟨_, _, _, _, _, h⟩ := waitEnter_eq clr s
  rw [h]

theorem stepReturn_err (c : Caller) (s : State) : (stepReturn c s).err = s.err := by
  cases c with
  | poll => rfl
  | wait clr =>
    show (waitDone clr s).err = s.err
    unfold waitDone
    split
    · rfl
    · exact waitEnter_err clr s.boundary

/-- Code 5 is raised by a burst outside the contract alone: the other faults of the operations are 3 and 4. -/
theorem exec_err_ne_five {i : Instr} {s t : State} (h : exec i s = .next t) (hfits : burstFits i = true)
    (herr : s.err ≠ 5) : t.err ≠ 5 := by
  have keeps {u : State} (hu : (.next u : Host.Outcome State Fault Refusal) = .next t) (he : u.err = s.err) :
      t.err ≠ 5 := by
    cases hu; rwa [he]
  cases i with
  | mapc =>
    cases h
    split
    · exact raiseFault_err_ne_five (by decide) herr
    · exact herr
  | start =>
    cases hstarted : s.started with
    | true =>
      have he : exec .start s = .next (s.raiseFault 4) := congrArg _ (if_pos hstarted)
      cases he.symm.trans h
      exact raiseFault_err_ne_five (by decide) herr
    | false =>
      obtain ⟨_, _, _, he⟩ := execStart_eq hstarted
      exact keeps (he.symm.trans h) rfl
  | wait clr => exact keeps h (waitEnter_err clr s)
  | poll clr =>
    obtain ⟨_, _, _, _, _, _, he⟩ := pollEnter_eq clr s
    exact keeps h (by rw [he])
  | needupd | uCon => exact keeps h (by split <;> rfl)
  | uXfer page pages mask ce => exact keeps h (by rw [xfer_eq hfits])
  | mapr | pxw | getplane | setcon | setupd | sethz | tiew | fbwr | fbrd | uEnd | uRow | uPtr | uSlow | uAdv =>
    exact keeps h rfl

/-- Bursts are micro-ops. -/
theorem burstFits_of_host {i : Instr} (h : i.wellFormedAt .host = true) : burstFits i = true := by
  cases i with
  | uXfer => cases h
  | _ => rfl

/-- Settles O57: a fetched word is a micro-op whose burst fits, and no other move of the host raises code 5. -/
theorem builtStoreNeverRaisesBadUop : Obligations.BuiltStoreNeverRaisesBadUop := by
  intro s t hurom herr hstep
  cases hostMove_of_step hstep with
  | halted | waits | masks | refused | wakes => exact herr
  | command _ _ _ _ hdec hexec => exact exec_err_ne_five hexec (burstFits_of_host (encodeOfDecode _ _ _ hdec).2) herr
  | badCommand _ _ _ _ _ hcode => exact raiseFault_err_ne_five (by rcases hcode with rfl | rfl <;> decide) herr
  | microOp _ _ hfetch hdec hexec =>
    cases (fetch_builtStore (s := s.boundary) hurom hfetch).symm.trans hdec
    exact exec_err_ne_five hexec (storedUop_burstFits _ _ _ _) herr
  | badMicroOp _ _ hfetch hdec => exact absurd (fetch_builtStore (s := s.boundary) hurom hfetch) (hdec _)
  | returns => rw [stepReturn_err]; exact herr

end Sys2Proof.Machine
end

section
/-! PROOF. Whole steps over the built store (R190, R199 to R206): the loop `S2` is the program's micro-ops one after another,
whatever fires and interrupts fall into it (R208); and the step of phase 1, which has no burst (R193, R200). -/

namespace Sys2Proof.Machine

open Sys2Proof.Safety

/-! ### Rounds of `S2` beside the scheduler (R190, R208) -/

/-- The state a micro-op leaves. -/
def State.work (i : Instr) (s : State) : State :=
  match exec i s with
  | .next t => t
  | _ => s

/-- One round of `S2` without its turn: `UPC <- UPC + 1`, then the micro-op. -/
def State.round (i : Instr) (s : State) : State := State.work i { s with upc := s.upc + 1 }

/-- Rounds one after another. -/
def State.rounds (is : List Instr) (s : State) : State := is.foldl (fun s i => s.round i) s

theorem exec_uop_eq_work {i : Instr} (h : i.wellFormedAt .urom = true) (s : State) : exec i s = .next (s.work i) := by
  cases i with
  | uEnd | uCon | uRow | uPtr | uXfer | uSlow | uAdv => rfl
  | mapc | mapr | pxw | start | wait | poll | needupd | getplane | setcon | setupd | sethz | tiew | fbwr | fbrd =>
    exact absurd h (by simp [Instr.wellFormedAt, Instr.port])

theorem work_setSch {i : Instr} (h : i.wellFormedAt .urom = true) (k : Sched) (s : State) :
    ∃ k', (s.setSch k).work i = (s.work i).setSch k' := by
  obtain ⟨k', hk⟩ := microOpsIgnoreTheInterrupt i s _ k h (exec_uop_eq_work h s)
  exact ⟨k', Host.Outcome.next.inj ((exec_uop_eq_work h (s.setSch k)).symm.trans hk)⟩

theorem rounds_setSch {is : List Instr} (h : ∀ i ∈ is, i.wellFormedAt .urom = true) (k : Sched) (s : State) :
    ∃ k', (s.setSch k).rounds is = (s.rounds is).setSch k' := by
  induction is generalizing k s with
  | nil => exact ⟨k, rfl⟩
  | cons i is ih =>
    obtain ⟨hi, his⟩ := List.forall_mem_cons.mp h
    obtain ⟨k', hk⟩ := work_setSch hi k { s with upc := s.upc + 1 }
    have hround : (s.setSch k).round i = (s.round i).setSch k' := hk
    simp only [State.rounds, List.foldl_cons, hround]
    exact ih his k' _

/-- Every micro-op but `U_END` and a refused burst leaves the host inside its step. -/
theorem work_ctl {i : Instr} (hport : i.wellFormedAt .urom = true) (hend : i ≠ .uEnd) (hfits : burstFits i = true)
    (s : State) : (s.work i).ctl = s.ctl := by
  cases i with
  | uEnd => exact absurd rfl hend
  | uRow | uPtr | uSlow | uAdv => rfl
  | uCon => show State.ctl (if _ then _ else _) = _; split <;> rfl
  | uXfer page pages mask ce => show (xfer page pages mask (ce && s.clrin) s).ctl = _; rw [xfer_eq hfits]
  | mapc | mapr | pxw | start | wait | poll | needupd | getplane | setcon | setupd | sethz | tiew | fbwr | fbrd =>
    exact absurd hport (by simp [Instr.wellFormedAt, Instr.port])

/-- An awake host inside a step over the built store, with a latched phase. -/
structure Fetching (c : Caller) (s : State) : Prop where
  ctl : s.ctl = .uops c
  slp : s.sch.slp = false
  urom : s.urom = microStore s.par s.sync
  xphase : s.xphase ≠ 0

/-- What one machine step of the loop does: the round of the stored micro-op, and some turns of the scheduler. -/
theorem step_round {c : Caller} {s : State} (h : Fetching c s) {i : Instr}
    (hi : storedUop s.par s.sync s.xphase s.upc = i) :
    ∃ n, step s = .next ((s.round i).setSch (turnsTaken s.sync s.par n s.sch)) ∧
      SameStep s (s.round i) ∧ (s.round i).upc = s.upc + 1 := by
  have hport : i.wellFormedAt .urom = true := hi ▸ storedUop_port _ _ _ _
  have hfetch : s.urom[(uromAddr s.xphase s.upc).toNat]? = some (encode i) := by
    rw [h.urom, microStore_word _ _ _ h.xphase, hi]
  have hstep : step s = exec i { s.boundary with upc := s.upc + 1 } :=
    stepRunsFetchedMicroOp s c _ i (Sched.turn_slp h.slp) h.ctl hfetch (decode_uop hport)
  obtain ⟨k, hk⟩ := work_setSch hport s.boundary.sch { s with upc := s.upc + 1 }
  have hwork : State.work i { s.boundary with upc := s.upc + 1 } = (s.round i).setSch k := hk
  obtain ⟨t, ht, hsame, hupc, hsch, -⟩ := exec_uop hport (s := { s.boundary with upc := s.upc + 1 }) h.ctl
  rw [exec_uop_eq_work hport, hwork] at ht
  cases ht
  refine ⟨uopTurns i + 1, ?_, ⟨hsame.cfg, hsame.par, hsame.urom, hsame.xphase⟩, hupc⟩
  rw [hstep, exec_uop_eq_work hport, hwork]
  exact congrArg (fun k => Host.Outcome.next ((s.round i).setSch k)) hsch

theorem Fetching.next {c : Caller} {s : State} (h : Fetching c s) {i : Instr} (hctl : (s.round i).ctl = s.ctl)
    (hsame : SameStep s (s.round i)) (n : Nat) :
    Fetching c ((s.round i).setSch (turnsTaken s.sync s.par n s.sch)) where
  ctl := hctl.trans h.ctl
  slp := turnsTaken_slp h.slp
  urom := by
    show (s.round i).urom = microStore (s.round i).par (s.round i).sync
    rw [hsame.urom, hsame.par, hsame.sync, h.urom]
  xphase := by
    show (s.round i).xphase ≠ 0
    rw [hsame.xphase]; exact h.xphase

theorem program_length_le (p : Params) (sync : SyncMode) (q : Nat) : (program p sync q).length ≤ 9 := by
  unfold program
  split <;> simp [programPhase1, programPhase2, programPhase3, programParkRow, programSlowDrive]

/-- The micro-op at `UPC` heads what is left of the program, and `UPC` does not wrap past it. -/
theorem storedUop_of_drop {p : Params} {sync : SyncMode} {q : BitVec 2} {u : BitVec 4} {i : Instr} {rest : List Instr}
    (h : (program p sync q.toNat).drop u.toNat = i :: rest) :
    storedUop p sync q u = i ∧ (program p sync q.toNat).drop (u + 1).toNat = rest := by
  have hget : (program p sync q.toNat)[u.toNat]? = some i := by rw [← List.head?_drop, h]; rfl
  have hlast : u.toNat < 9 := by
    obtain ⟨hlt, -⟩ := List.getElem?_eq_some_iff.mp hget
    exact hlt.trans_le (program_length_le _ _ _)
  have hnext : (u + 1).toNat = u.toNat + 1 := by
    rw [BitVec.toNat_add, Nat.mod_eq_of_lt (by simp; omega)]; rfl
  refine ⟨by rw [storedUop, List.getD_eq_getElem?_getD, hget]; rfl, ?_⟩
  rw [hnext, ← List.tail_drop, h]; rfl

/-- What is left of the program up to its `U_END` runs a micro-op a machine step, and ends the step. -/
theorem run_rounds {c : Caller} {body : List Instr} {s : State} (h : Fetching c s)
    (hprog : (program s.par s.sync s.xphase.toNat).drop s.upc.toNat = body ++ [.uEnd]) (hbody : .uEnd ∉ body) :
    ∃ n, Host.Core.run Sys2Proof.core (body.length + 1) s =
      .next ((s.rounds (body ++ [.uEnd])).setSch (turnsTaken s.sync s.par n s.sch)) := by
  induction body generalizing s with
  | nil =>
    obtain ⟨hi, -⟩ := storedUop_of_drop hprog
    obtain ⟨n, hstep, -⟩ := step_round h hi
    exact ⟨n, run_succ hstep 0⟩
  | cons i body ih =>
    obtain ⟨hi, hrest⟩ := storedUop_of_drop hprog
    obtain ⟨hne, hbody⟩ := List.ne_and_not_mem_of_not_mem_cons hbody
    obtain ⟨n, hstep, hsame, hupc⟩ := step_round h hi
    have hmem {j : Instr} (hj : j ∈ i :: (body ++ [.uEnd])) : j ∈ program s.par s.sync s.xphase.toNat :=
      List.mem_of_mem_drop (i := s.upc.toNat) (by rw [hprog]; exact hj)
    have hport : ∀ j ∈ body ++ [.uEnd], j.wellFormedAt .urom = true :=
      fun j hj => (mem_program (hmem (List.mem_cons_of_mem i hj))).1
    obtain ⟨hi_port, hi_fits⟩ := mem_program (hmem List.mem_cons_self)
    have hctl : (s.round i).ctl = s.ctl := work_ctl hi_port hne.symm hi_fits _
    have hleft : (program (s.round i).par (s.round i).sync (s.round i).xphase.toNat).drop (s.round i).upc.toNat =
        body ++ [.uEnd] := by
      rw [hsame.par, hsame.sync, hsame.xphase, hupc, hrest]; rfl
    obtain ⟨m, hrun⟩ := ih (h.next hctl hsame n) hleft hbody
    obtain ⟨k, hk⟩ := rounds_setSch hport (turnsTaken s.sync s.par n s.sch) (s.round i)
    refine ⟨n + m, ?_⟩
    calc Host.Core.run Sys2Proof.core (body.length + 1 + 1) s
        = .next (((s.round i).rounds (body ++ [.uEnd])).setSch
            (turnsTaken (s.round i).sync (s.round i).par m (turnsTaken s.sync s.par n s.sch))) :=
          (run_succ hstep _).trans (hrun.trans (by rw [hk]; rfl))
      _ = .next ((s.rounds (i :: body ++ [.uEnd])).setSch (turnsTaken s.sync s.par (n + m) s.sch)) := by
        rw [turnsTaken_add, hsame.sync, hsame.par]; rfl

/-- A program ends with its only `U_END` (R200 to R204). -/
theorem program_uEnd {p : Params} {sync : SyncMode} {q : Nat} :
    program p sync q ≠ [] → ∃ body, program p sync q = body ++ [.uEnd] ∧ .uEnd ∉ body := by
  unfold program
  split
  · exact fun _ => ⟨(programPhase1 p).dropLast, rfl, by simp [programPhase1, uPtrPark]⟩
  · exact fun _ => ⟨(programPhase2 p).dropLast, rfl, by simp [programPhase2, uPtrPark, uXferPark]⟩
  · exact fun _ => ⟨(programPhase3 p).dropLast, rfl, by simp [programPhase3, uPtrPark, uXferPark, uXferMain]⟩
  · exact fun _ => ⟨(programParkRow p).dropLast, rfl, by simp [programParkRow, uXferPark, uXferMain]⟩
  · exact fun _ => ⟨(programSlowDrive p).dropLast, rfl, by simp [programSlowDrive, uXferPark, uXferMain]⟩
  · exact absurd rfl

/-- A whole step from its first fetch (R190): the rounds of the latched phase's program, beside the scheduler. -/
theorem run_program {c : Caller} {prog : List Instr} {s : State} (h : Fetching c s) (hupc : s.upc = 0)
    (hprog : program s.par s.sync s.xphase.toNat = prog) (hne : prog ≠ []) :
    ∃ n, Host.Core.run Sys2Proof.core prog.length s =
      .next ((s.rounds prog).setSch (turnsTaken s.sync s.par n s.sch)) := by
  obtain ⟨body, hbody, hend⟩ := program_uEnd (hprog ▸ hne)
  have hdrop : (program s.par s.sync s.xphase.toNat).drop s.upc.toNat = body ++ [.uEnd] := by rw [hupc]; exact hbody
  obtain ⟨n, hrun⟩ := run_rounds h hdrop hend
  rw [← hprog, hbody, List.length_append]
  exact ⟨n, hrun⟩

/-! ### What `U_CON` sends (R193) -/

/-- The current plane's contrast where the trick is on. -/
def contrastEvents (s : State) : List BusEvent :=
  if contrastTrick s.par s.mode then [.cmd (.contrast (planeContrast s.par s.plane))] else []

theorem round_uCon (s : State) :
    ∃ dc, s.round .uCon = { s with upc := s.upc + 1, log := contrastEvents s ++ s.log, dc := dc } := by
  cases htrick : contrastTrick s.par s.mode with
  | true =>
    refine ⟨true, ?_⟩
    rw [contrastEvents, if_pos htrick]
    exact if_pos htrick
  | false =>
    refine ⟨s.dc, ?_⟩
    rw [contrastEvents, if_neg (Bool.eq_false_iff.mp htrick)]
    exact if_neg (Bool.eq_false_iff.mp htrick)

theorem contrastEvents_reverse (s : State) : (contrastEvents s).reverse = contrastEvents s := by
  unfold contrastEvents
  split <;> rfl

/-- Phase 1 parks the band: there is no burst in it, so the whole state is known. -/
theorem rounds_phase1 (s : State) : s.rounds (programPhase1 s.par) = { s with
    ctl := s.ctl.endStep, upc := s.upc + 1 + 1 + 1 + 1, dc := true
    log := .cmd (.ptr s.par.parkPtrCol s.par.parkPtrPage) :: .cmd (.rowstart s.par.rowPark3P) ::
      (contrastEvents s ++ s.log) } := by
  obtain ⟨dc, hcon⟩ := round_uCon s
  show State.rounds [.uRow s.par.rowPark3P, uPtrPark s.par, .uEnd] (s.round .uCon) = _
  rw [hcon]; rfl

theorem endStep_uops {c : Caller} {s : State} (h : s.ctl = .uops c) : s.ctl.endStep = .stepDone c := by rw [h]; rfl

/-- Settles O42: the step is the four rounds of phase 1's program. -/
theorem phaseOneParksTheBand : Obligations.PhaseOneParksTheBand := by
  intro s c hsync hurom hctl hupc hphase hslp
  have hprog : program s.par s.sync s.xphase.toNat = programPhase1 s.par := by rw [hsync, hphase]; rfl
  obtain ⟨n, hrun⟩ := run_program ⟨hctl, hslp, hurom, by rw [hphase]; decide⟩ hupc hprog (List.cons_ne_nil _ _)
  rw [rounds_phase1, hupc, endStep_uops hctl] at hrun
  refine ⟨_, hrun, ?_, rfl⟩
  show State.bus _ = s.bus ++ contrastEvents s ++ _
  simp [State.bus, contrastEvents_reverse]

end Sys2Proof.Machine
end

section
/-! PROOF. What the bursts of a whole step send and clear (R200 to R206, R291), and `POLL` and `WAIT` from the presented word to
their end under the two-phase protocols (R203, R204, R208, R222, R223). -/

namespace Sys2Proof.Machine

open Sys2Proof.Safety

/-! ### The pages of the programs (R199) -/

/-- The park page and the main pages are the whole frame buffer. -/
theorem lt_1024_iff_page (p : Params) (a : Nat) :
    a < 1024 ↔ inBurst (parkPage p) 1#4 a = true ∨ inBurst (mainPage p) 7#4 a = true := by
  unfold mainPage parkPage inBurst
  cases p.parkPage <;> simp <;> omega

/-- No byte of the main pages is in the park page. -/
theorem inBurst_park_of_main {p : Params} {a : Nat} (h : inBurst (mainPage p) 7#4 a = true) :
    inBurst (parkPage p) 1#4 a = false := by
  revert h
  unfold mainPage parkPage inBurst
  cases p.parkPage <;> simp <;> omega

theorem inBurst_main_of_park {p : Params} {a : Nat} (h : inBurst (parkPage p) 1#4 a = true) :
    inBurst (mainPage p) 7#4 a = false := by
  rw [Bool.eq_false_iff]
  exact fun hmain => by simp [inBurst_park_of_main hmain] at h

/-- The bytes a burst clears. -/
def clearedBy (order : XferOrder) (page : BitVec 3) (pages : BitVec 4) (clr : Bool) : List Nat :=
  if clr then burstAddrs order page pages else []

@[simp] theorem mem_clearedBy {order : XferOrder} {page : BitVec 3} {pages : BitVec 4} {clr : Bool} {a : Nat} :
    a ∈ clearedBy order page pages clr ↔ clr = true ∧ inBurst page pages a = true := by
  cases clr <;> simp [clearedBy, mem_burstAddrs]

/-! ### What micro-ops have done since the first fetch of their step -/

/-- The state with everything blanked that a micro-op other than `U_ADV` and `U_END` may write. -/
def State.unworked (s : State) : State :=
  { s with
    sch := State.reset.sch, upc := 0, xptr := 0, xcnt := 0, xmask := 0, xclr := false, xd := 0, dc := true, fb := []
    log := [] }

/-- From `s` to `t` micro-ops have put `events` on the bus, written zero to the bytes at `cleared`, and touched no other
register than the engine's own, `UPC`, `DC` and the scheduler's. -/
structure Sent (s : State) (events : List BusEvent) (cleared : List Nat) (t : State) : Prop where
  kept : t.unworked = s.unworked
  bus : t.bus = s.bus ++ events
  fb : t.fb = cleared.foldl (fun m a => m.write a 0) s.fb
  inside : ∀ a ∈ cleared, a < fbBytes

section
variable {s t : State} {events : List BusEvent} {cleared : List Nat}

theorem Sent.refl (s : State) : Sent s [] [] s := ⟨rfl, (List.append_nil _).symm, rfl, by simp⟩

theorem Sent.par (h : Sent s events cleared t) : t.par = s.par := (congrArg State.par h.kept :)
theorem Sent.cfg (h : Sent s events cleared t) : t.cfg = s.cfg := (congrArg State.cfg h.kept :)
theorem Sent.plane (h : Sent s events cleared t) : t.plane = s.plane := (congrArg State.plane h.kept :)
theorem Sent.dord (h : Sent s events cleared t) : t.dord = s.dord := (congrArg State.dord h.kept :)
theorem Sent.clrin (h : Sent s events cleared t) : t.clrin = s.clrin := (congrArg State.clrin h.kept :)

theorem Sent.xphase (h : Sent s events cleared t) : t.xphase = s.xphase := (congrArg State.xphase h.kept :)
theorem Sent.ucnt (h : Sent s events cleared t) : t.ucnt = s.ucnt := (congrArg State.ucnt h.kept :)
theorem Sent.ud (h : Sent s events cleared t) : t.ud = s.ud := (congrArg State.ud h.kept :)
theorem Sent.err (h : Sent s events cleared t) : t.err = s.err := (congrArg State.err h.kept :)
theorem Sent.ret (h : Sent s events cleared t) : t.ret = s.ret := (congrArg State.ret h.kept :)
theorem Sent.ctl (h : Sent s events cleared t) : t.ctl = s.ctl := (congrArg State.ctl h.kept :)
theorem Sent.hostActs (h : Sent s events cleared t) : t.hostActs = s.hostActs := (congrArg State.hostActs h.kept :)

theorem Sent.fb_read (h : Sent s events cleared t) (hwf : s.fb.wf = true) (a : Nat) :
    t.fb.read a = if a ∈ cleared then 0 else s.fb.read a := by
  rw [h.fb, clear_read _ _ hwf h.inside]

/-- An operation that emits one command. -/
theorem Sent.command (h : Sent s events cleared t) {i : Instr} {c : BusCmd} (hi : ∀ u, State.work i u = u.emitCmd c) :
    Sent s (events ++ [.cmd c]) cleared (t.round i) := by
  rw [State.round, hi]
  refine ⟨h.kept, ?_, h.fb, h.inside⟩
  rw [State.bus_emitCmd, ← List.append_assoc, ← h.bus]; rfl

theorem Sent.contrast (h : Sent s events cleared t) : Sent s (events ++ contrastEvents s) cleared (t.round .uCon) := by
  obtain ⟨dc, he⟩ := round_uCon t
  have hcon : contrastEvents t = contrastEvents s := by
    rw [contrastEvents, contrastEvents, State.mode, State.mode, h.par, h.cfg, h.plane]
  rw [he]
  refine ⟨h.kept, ?_, h.fb, h.inside⟩
  rw [← List.append_assoc, ← h.bus, ← hcon, State.bus, List.reverse_append, contrastEvents_reverse]; rfl

/-- A burst over pages none of whose bytes has been cleared sends what the buffer held at first. -/
theorem Sent.burst (h : Sent s events cleared t) (hwf : s.fb.wf = true) {page : BitVec 3} {pages : BitVec 4}
    (hok : burstOk page pages = true) (hapart : ∀ a, inBurst page pages a = true → a ∉ cleared) (mask : Byte) (ce : Bool) :
    Sent s (events ++ burstEvents s.par.xferOrder page pages mask (!s.dord) s.fb)
      (cleared ++ clearedBy s.par.xferOrder page pages (ce && s.clrin)) (t.round (.uXfer page pages mask ce)) := by
  have hround : t.round (.uXfer page pages mask ce) = xfer page pages mask (ce && s.clrin) { t with upc := t.upc + 1 } := by
    rw [← h.clrin]; rfl
  have hevents : burstEvents t.par.xferOrder page pages mask (!t.dord) t.fb =
      burstEvents s.par.xferOrder page pages mask (!s.dord) s.fb := by
    rw [h.par, h.dord]
    refine List.map_congr_left fun a ha => ?_
    rw [h.fb_read hwf, if_neg (hapart a (mem_burstAddrs.mp ha))]
  obtain ⟨hlog, hfb, -⟩ := xfer_data hok mask (ce && s.clrin) { t with upc := t.upc + 1 }
  rw [hround]
  refine ⟨?_, ?_, ?_, ?_⟩
  · rw [xfer_eq hok]; exact h.kept
  · rw [State.bus, hlog, List.reverse_append, List.reverse_reverse, ← List.append_assoc, ← h.bus, ← hevents]; rfl
  · rw [hfb, List.foldl_append, ← h.fb, ← h.par, clearedBy]
    cases ce && s.clrin <;> rfl
  · intro a ha
    rcases List.mem_append.mp ha with ha | ha
    · exact h.inside a ha
    · exact burstAddrs_lt (order := .asc) hok (mem_burstAddrs.mpr (mem_clearedBy.mp ha).2)

end

/-- Phase 2 sends the park page and clears nothing (R201). The state is the one before `U_END`. -/
theorem rounds_phase2 {s : State} (hwf : s.fb.wf = true) : ∃ t, s.rounds (programPhase2 s.par) = t.round .uEnd ∧
    Sent s (burstEvents s.par.xferOrder (parkPage s.par) 1 s.par.maskP2 (!s.dord) s.fb ++
      [.cmd (.ptr s.par.parkPtrCol s.par.parkPtrPage)]) [] t :=
  ⟨_, rfl, ((Sent.refl s).burst hwf (burstOk_park s.par) (by simp) s.par.maskP2 false).command (i := uPtrPark s.par)
    fun _ => rfl⟩

/-- Settles O43: the step is the three rounds of phase 2's program, and `U_END` writes nothing. -/
theorem phaseTwoSendsTheParkPage : Obligations.PhaseTwoSendsTheParkPage := by
  intro s c hsync hurom hctl hupc hphase hslp hwf
  have hprog : program s.par s.sync s.xphase.toNat = programPhase2 s.par := by rw [hsync, hphase]; rfl
  obtain ⟨n, hrun⟩ := run_program ⟨hctl, hslp, hurom, by rw [hphase]; decide⟩ hupc hprog (List.cons_ne_nil _ _)
  obtain ⟨t, hrounds, hsent⟩ := rounds_phase2 hwf
  rw [hrounds] at hrun
  have hend : (t.round .uEnd).ctl = .stepDone c := endStep_uops (hsent.ctl.trans hctl)
  exact ⟨_, hrun, by rw [List.append_assoc]; exact hsent.bus, hend, hsent.fb, hsent.plane, hsent.ucnt, hsent.err, hsent.ret,
    hsent.dord, hsent.xphase, hsent.clrin⟩

/-! ### The step that advances the plane (R198, R202 to R204, R291) -/

/-- What a step whose last micro-ops are `U_ADV` and `U_END` leaves, from its first fetch in `s`: the whole buffer cleared
or kept as `CLRIN` says. -/
structure Refreshed (s : State) (events : List BusEvent) (t : State) : Prop where
  cfg : t.cfg = s.cfg
  bus : t.bus = s.bus ++ events
  ctl : t.ctl = s.ctl.endStep
  fb_read : ∀ a, t.fb.read a = if s.clrin && decide (a < 1024) then 0 else s.fb.read a
  plane : t.plane = nextPlane s.mode s.plane
  ucnt : t.ucnt = if nextPlane s.mode s.plane = 0 then s.ucnt + s.ud else s.ucnt
  err : t.err = s.err
  ret : t.ret = s.ret
  dord : t.dord = s.dord
  xphase : t.xphase = s.xphase
  hostActs : t.hostActs = s.hostActs

theorem Sent.refreshed {s t : State} {events : List BusEvent} {cleared : List Nat} (h : Sent s events cleared t)
    (hwf : s.fb.wf = true) (hall : ∀ a, a ∈ cleared ↔ s.clrin = true ∧ a < 1024) :
    Refreshed s events ((t.round .uAdv).round .uEnd) where
  cfg := h.cfg
  bus := h.bus
  ctl := by rw [← h.ctl]; rfl
  fb_read a := by
    show t.fb.read a = _
    simp only [h.fb_read hwf, hall, Bool.and_eq_true, decide_eq_true_eq]
  plane := by rw [← h.plane, State.mode, ← h.cfg]; rfl
  ucnt := by rw [← h.plane, ← h.ucnt, ← h.ud, State.mode, ← h.cfg]; rfl
  err := h.err
  ret := h.ret
  dord := h.dord
  xphase := h.xphase
  hostActs := h.hostActs

/-- Phase 3 sends the park page without clearing, the main pages, and the park page again (R202). -/
theorem rounds_phase3 {s : State} (hwf : s.fb.wf = true) :
    Refreshed s
      ([.cmd (.ptr s.par.parkPtrCol s.par.parkPtrPage)] ++
        burstEvents s.par.xferOrder (parkPage s.par) 1 s.par.maskP3A (!s.dord) s.fb ++
        [.cmd (.rowstart 0)] ++
        burstEvents s.par.xferOrder (mainPage s.par) 7 s.par.maskMain (!s.dord) s.fb ++
        burstEvents s.par.xferOrder (parkPage s.par) 1 s.par.maskP3C (!s.dord) s.fb)
      (s.rounds (programPhase3 s.par)) := by
  have hpark := ((Sent.refl s).command (i := uPtrPark s.par) fun _ => rfl).burst hwf (burstOk_park s.par) (by simp)
    s.par.maskP3A false
  have hmain := (hpark.command (i := .uRow 0) fun _ => rfl).burst hwf (burstOk_main s.par) (by simp) s.par.maskMain true
  have hsent := hmain.burst hwf (burstOk_park s.par) (fun a ha => by simp [inBurst_main_of_park ha]) s.par.maskP3C true
  exact hsent.refreshed hwf fun a => by simp [lt_1024_iff_page s.par, and_or_left, or_comm]

/-- `PARK_ROW` sends the park page and the main pages, both clearing (R203). -/
theorem rounds_parkRow {s : State} (hwf : s.fb.wf = true) :
    Refreshed s
      (contrastEvents s ++
        burstEvents s.par.xferOrder (parkPage s.par) 1 s.par.maskPark2P (!s.dord) s.fb ++
        [.cmd (.rowstart 63)] ++
        burstEvents s.par.xferOrder (mainPage s.par) 7 s.par.maskMain (!s.dord) s.fb ++
        [.cmd (.rowstart 0)])
      (s.rounds (programParkRow s.par)) := by
  have hpark := (Sent.refl s).contrast.burst hwf (burstOk_park s.par) (by simp) s.par.maskPark2P true
  have hmain := (hpark.command (i := .uRow 63) fun _ => rfl).burst hwf (burstOk_main s.par)
    (fun a ha => by simp [inBurst_park_of_main ha]) s.par.maskMain true
  have hsent := hmain.command (i := .uRow 0) fun _ => rfl
  exact hsent.refreshed hwf fun a => by simp [lt_1024_iff_page s.par, and_or_left]

/-- `SLOW_DRIVE` does the same inside the slow bracket (R204). -/
theorem rounds_slowDrive {s : State} (hwf : s.fb.wf = true) :
    Refreshed s
      (contrastEvents s ++ [.cmd (.slow true)] ++
        burstEvents s.par.xferOrder (parkPage s.par) 1 s.par.maskParkSD (!s.dord) s.fb ++
        [.cmd (.rowstart s.par.rowParkSD)] ++
        burstEvents s.par.xferOrder (mainPage s.par) 7 s.par.maskMain (!s.dord) s.fb ++
        [.cmd (.rowstart 0)] ++ [.cmd (.slow false)])
      (s.rounds (programSlowDrive s.par)) := by
  have hpark := ((Sent.refl s).contrast.command (i := .uSlow true) fun _ => rfl).burst hwf (burstOk_park s.par) (by simp)
    s.par.maskParkSD true
  have hmain := (hpark.command (i := .uRow s.par.rowParkSD) fun _ => rfl).burst hwf (burstOk_main s.par)
    (fun a ha => by simp [inBurst_park_of_main ha]) s.par.maskMain true
  have hsent := (hmain.command (i := .uRow 0) fun _ => rfl).command (i := .uSlow false) fun _ => rfl
  exact hsent.refreshed hwf fun a => by simp [lt_1024_iff_page s.par, and_or_left]

/-- Settles O44: the step is the seven rounds of phase 3's program. -/
theorem phaseThreeCompletesTheRefresh : Obligations.PhaseThreeCompletesTheRefresh := by
  intro s c hsync hurom hctl hupc hphase hslp hwf
  have hprog : program s.par s.sync s.xphase.toNat = programPhase3 s.par := by rw [hsync, hphase]; rfl
  obtain ⟨n, hrun⟩ := run_program ⟨hctl, hslp, hurom, by rw [hphase]; decide⟩ hupc hprog (List.cons_ne_nil _ _)
  obtain ⟨-, hbus, hend, hread, hplane, hucnt, herr, hret, hdord, hxphase, -⟩ := rounds_phase3 hwf
  exact ⟨_, hrun, hbus.trans (by simp only [List.append_assoc]), hend.trans (endStep_uops hctl), hread, hplane, hucnt, herr,
    hret, hdord, hxphase⟩

/-! ### A presented `POLL` or `WAIT` with a step due, under a two-phase protocol (R190, R222, R223) -/

/-- `s` with the command's word used up and its step begun. -/
def State.begun (c : Caller) (clr : Bool) (rest : List HostAct) (s : State) : State :=
  { s with ctl := .uops c, upc := 0, clrin := clr, xphase := 1, hostActs := rest }

/-- `k` has the interrupts unmasked, the host awake, and `SE` as it is in `s`. -/
structure SameCpu (s : State) (k : Sched) : Prop where
  gie : k.gie = true
  slp : k.slp = false
  se : k.se = s.sch.se

/-- The next word at an awake, enabled block of a two-phase protocol is `i`, a `WAIT` or `POLL`, and a step is due. -/
structure DueCommand (i : Instr) (c : Caller) (clr : Bool) (rest : List HostAct) (s : State) : Prop where
  command : i = .wait clr ∧ c = .wait clr ∨ i = .poll clr ∧ c = .poll
  twoPhase : s.sync ≠ .threePhase
  ctl : s.ctl = .idle
  slp : s.sch.slp = false
  err : s.err ≠ 6
  nd : s.sch.nd = true
  acts : s.hostActs = .word (encode i) :: rest

section
variable {i : Instr} {c : Caller} {clr : Bool} {rest : List HostAct} {s : State}

/-- The first machine step presents the word and begins the step that is due. -/
theorem DueCommand.step_begins (h : DueCommand i c clr rest s) :
    ∃ k, step s = .next ((s.begun c clr rest).setSch k) ∧ SameCpu s k := by
  obtain ⟨hcmd, htwo, hctl, hslp, herr, hnd, hacts⟩ := h
  have hslp' : s.boundary.sch.slp = false := Sched.turn_slp hslp
  have hport : i.wellFormedAt .host = true := by rcases hcmd with ⟨rfl, -⟩ | ⟨rfl, -⟩ <;> rfl
  have hdec : decode .host (encode i) = .ok i := by rw [decodeOfEncode i .host, if_pos hport]
  obtain ⟨⟨_, _, _, hwait⟩, ⟨_, _, _, hpoll⟩⟩ :=
    waitAndPollBeginADueStep clr { s.boundary with hostActs := rest } (Sched.turn_nd hnd)
  rw [if_neg (by exact htwo)] at hwait hpoll
  rw [stepRunsPresentedWord s _ rest i hslp' hctl hacts herr hdec]
  rcases hcmd with ⟨rfl, rfl⟩ | ⟨rfl, rfl⟩
  · exact ⟨_, hwait, rfl, hslp', Sched.turn_se _ _ _⟩
  · exact ⟨_, hpoll, rfl, hslp', Sched.turn_se _ _ _⟩

theorem SameCpu.turnsTaken {k : Sched} (h : SameCpu s k) (sync : SyncMode) (p : Params) (n : Nat) :
    SameCpu s (Safety.turnsTaken sync p n k) where
  gie := turnsTaken_gie.trans h.gie
  slp := turnsTaken_slp h.slp
  se := turnsTaken_keeps (P := fun j => j.se = s.sch.se) (fun j hj => (Sched.turn_se _ _ j).trans hj) n h.se

theorem SameCpu.boundary {t : State} {k : Sched} (h : SameCpu s k) : SameCpu s (t.setSch k).boundary.sch :=
  h.turnsTaken t.sync t.par 1

/-- The command up to the end of its step. -/
theorem DueCommand.run {prog : List Instr} (h : DueCommand i c clr rest s) (hurom : s.urom = microStore s.par s.sync)
    (hprog : program s.par s.sync 1 = prog) (hne : prog ≠ []) :
    ∃ k, Host.Core.run Sys2Proof.core (prog.length + 1) s =
      .next (((s.begun c clr rest).rounds prog).setSch k) ∧ SameCpu s k := by
  obtain ⟨k, hstep, hcpu⟩ := h.step_begins
  have hfetching : Fetching c ((s.begun c clr rest).setSch k) :=
    ⟨rfl, hcpu.slp, hurom, show (1 : BitVec 2) ≠ 0 by decide⟩
  have hports : ∀ j ∈ prog, j.wellFormedAt .urom = true := by rw [← hprog]; exact fun _ hj => (mem_program hj).1
  obtain ⟨n, hrun⟩ := run_program hfetching rfl hprog hne
  obtain ⟨k', hk⟩ := rounds_setSch hports k (s.begun c clr rest)
  refine ⟨Safety.turnsTaken s.sync s.par n k, ?_, hcpu.turnsTaken _ _ n⟩
  rw [run_succ hstep, hrun, hk]; rfl

end

/-! ### The end of a terminal step (R222, R223, R224) -/

/-- Every step but one of `THREE_PHASE` is terminal. -/
theorem terminalPhase_of_twoPhase {sync : SyncMode} (h : sync ≠ .threePhase) (q : BitVec 2) :
    terminalPhase sync q = true := by
  cases sync with
  | threePhase => exact absurd rfl h
  | parkRow | slowDrive | reserved => rfl

theorem step_waitReturns {clr : Bool} {s : State} (hctl : s.ctl = .stepDone (.wait clr)) (hslp : s.boundary.sch.slp = false)
    (hterm : terminalPhase s.sync s.xphase = true) : step s = .next (s.boundary.setCtl .idle) :=
  calc step s
      = .next (waitDone clr s.boundary) := hostAction_stepDone hslp hctl
    _ = .next (s.boundary.setCtl .idle) := congrArg _ (if_pos hterm)

theorem step_pollReturns {s : State} (hctl : s.ctl = .stepDone .poll) (hslp : s.boundary.sch.slp = false)
    (hterm : terminalPhase s.sync s.xphase = true) : step s = .next ((s.boundary.setRet 0x03).setCtl .idle) :=
  calc step s
      = .next (pollDone s.boundary) := hostAction_stepDone hslp hctl
    _ = .next ((s.boundary.setRet 0x03).setCtl .idle) := by
      rw [pollDone, State.boundary_sync, State.boundary_xphase, hterm]; rfl

theorem Refreshed.terminal {s t : State} {events : List BusEvent} (h : Refreshed s events t) (htwo : s.sync ≠ .threePhase) :
    terminalPhase t.sync t.xphase = true :=
  terminalPhase_of_twoPhase (by rw [State.sync, h.cfg]; exact htwo) _

/-- Settles O45: the word begins the step, its program refreshes the panel, and `P3` returns 0x03. -/
theorem parkRowPollRunsToCompletion : Obligations.ParkRowPollRunsToCompletion := by
  intro s clr rest hsync hurom hctl hslp herr hwf hnd hacts
  have hdue : DueCommand (.poll clr) .poll clr rest s :=
    ⟨.inr ⟨rfl, rfl⟩, by simp [hsync], hctl, hslp, herr, hnd, hacts⟩
  have hprog : program s.par s.sync 1 = programParkRow s.par := by rw [hsync]; rfl
  obtain ⟨k, hrun, hcpu⟩ := hdue.run hurom hprog (List.cons_ne_nil _ _)
  have hdone : Refreshed (s.begun .poll clr rest) _ ((s.begun .poll clr rest).rounds (programParkRow s.par)) :=
    rounds_parkRow hwf
  generalize State.rounds _ _ = u at hrun hdone
  have hend := step_pollReturns (s := u.setSch k) hdone.ctl hcpu.boundary.slp (hdone.terminal hdue.twoPhase)
  obtain ⟨hgie, hslp', -⟩ := hcpu.boundary (t := u)
  obtain ⟨-, hbus, -, hread, hplane, hucnt, herr', -, hdord, -, hacts'⟩ := hdone
  refine ⟨_, (Laws.Fair.run_add hrun 1).trans (run_succ hend 0), hbus.trans ?_, rfl, hacts', rfl, hgie, hslp', hread,
    hplane, hucnt, herr', hdord⟩
  simp only [List.append_assoc]; rfl

/-- Settles O46: the word begins the step, its program refreshes the panel inside the slow bracket, and `W6` is done. -/
theorem slowDriveWaitRunsToCompletion : Obligations.SlowDriveWaitRunsToCompletion := by
  intro s clr rest hsync hurom hctl hslp herr hwf hnd hacts
  have hdue : DueCommand (.wait clr) (.wait clr) clr rest s :=
    ⟨.inl ⟨rfl, rfl⟩, by simp [hsync], hctl, hslp, herr, hnd, hacts⟩
  have hprog : program s.par s.sync 1 = programSlowDrive s.par := by rw [hsync]; rfl
  obtain ⟨k, hrun, hcpu⟩ := hdue.run hurom hprog (List.cons_ne_nil _ _)
  have hdone : Refreshed (s.begun (.wait clr) clr rest) _
      ((s.begun (.wait clr) clr rest).rounds (programSlowDrive s.par)) := rounds_slowDrive hwf
  generalize State.rounds _ _ = u at hrun hdone
  have hend := step_waitReturns (s := u.setSch k) hdone.ctl hcpu.boundary.slp (hdone.terminal hdue.twoPhase)
  obtain ⟨hgie, hslp', hse⟩ := hcpu.boundary (t := u)
  obtain ⟨-, hbus, -, hread, hplane, hucnt, herr', hret, hdord, -, hacts'⟩ := hdone
  refine ⟨_, (Laws.Fair.run_add hrun 1).trans (run_succ hend 0), hbus.trans ?_, rfl, hacts', hret, hgie, hslp', hse, hread,
    hplane, hucnt, herr', hdord⟩
  simp only [List.append_assoc]; rfl

end Sys2Proof.Machine
end

section
/-! PROOF. The host's synchronisation: a halted host (R222, R261), the step a woken `WAIT` begins (R222, R257), what follows a
step (R222 to R224), a `POLL` with no step due (R223); and pacing, queries and settings (R225 to R228). -/

namespace Sys2Proof

/-! ### The word of `GETPLANE` (R226) -/

theorem decode_getplane_word (a b : Byte) :
    decode .host (hab 0x14 a b) = if a = 0 ∧ b = 0 then .ok .getplane else .reservedField := by
  rw [decode_hab (row := rowGetplane) (port := .host) (m := BitVec.allOnes 8) (n := BitVec.allOnes 8) (by decide) rfl rfl rfl,
    BitVec.and_allOnes, BitVec.and_allOnes, rowGetplane]

/-- The operand bits of a word of format `HAB`, taken together, are its two operand bytes. -/
theorem opcode_append_eq_hab (op : Byte) (operands : BitVec 16) :
    op ++ operands = hab op (operands.extractLsb' 8 8) (operands.extractLsb' 0 8) := by
  obtain ⟨-, -, hbytes⟩ := hostFields
  calc op ++ operands
      = op ++ (operands.extractLsb' 8 8 ++ operands.extractLsb' 0 8 : BitVec 16) := by rw [hbytes]
    _ = hab op (operands.extractLsb' 8 8) (operands.extractLsb' 0 8) := BitVec.append_assoc.symm

/-- A word of `GETPLANE` with an operand bit set is refused for it. -/
theorem decode_getplane_operands {operands : BitVec 16} (h : operands ≠ 0) :
    decode .host ((0x14 : Byte) ++ operands) = .reservedField := by
  obtain ⟨-, -, hbytes⟩ := hostFields
  have hset : ¬ (operands.extractLsb' 8 8 = 0 ∧ operands.extractLsb' 0 8 = 0) := by
    rintro ⟨ha, hb⟩
    exact h (by rw [← hbytes operands, ha, hb]; rfl)
  calc decode .host ((0x14 : Byte) ++ operands)
      = decode .host (hab 0x14 (operands.extractLsb' 8 8) (operands.extractLsb' 0 8)) :=
        congrArg _ (opcode_append_eq_hab 0x14 operands)
    _ = .reservedField := (decode_getplane_word _ _).trans (if_neg hset)

end Sys2Proof

namespace Sys2Proof.Machine

/-! ### A halted host and a woken `WAIT` (R222, R257, R261) -/

/-- Settles O12: the step of a halted host is the turn alone. -/
theorem sleepingHostTakesNoAction : Obligations.SleepingHostTakesNoAction := by
  intro s hslp
  obtain ⟨htcr, htrun, htie, hse⟩ := Sched.turn_fixed s.sync s.par s.sch
  have hstep : step s = .next s.boundary := hostAction_halted hslp
  exact ⟨s.sch.turn s.sync s.par, hstep, hslp, htcr, htrun, htie, hse, Sched.turn_gie _ _ _⟩

/-- `W4`, `S0` and `S1` are one masked passage: what it writes. -/
theorem waitWake_begins (clr : Bool) (s : State) :
    ∃ tcnt tif turns, waitWake clr s = { s with
      ctl := .uops (.wait clr), upc := 0, clrin := clr, xphase := if isThreePhase s.sync then s.sch.phase else 1
      sch := { s.sch with se := false, nd := false, gie := true, tcnt := tcnt, tif := tif, turns := turns } } := by
  obtain ⟨tcnt, tif, turns, h⟩ := boundary_masked (s := s.setSch { s.sch with se := false, gie := false }) rfl
  rw [waitWake, h]
  exact stepBegin_masked _ clr (s := { s with sch := { s.sch with se := false, gie := false, tcnt, tif, turns } }) rfl

/-- Settles O35: the turn wakes the host, whose action is `waitWake`. -/
theorem wokenWaitBeginsTheStep : Obligations.WokenWaitBeginsTheStep := by
  intro clr s hctl hslp
  obtain ⟨tcnt, tif, turns, hwake⟩ := waitWake_begins clr s.boundary
  simp only [← isThreePhase_iff]
  exact ⟨tcnt, tif, turns, (hostAction_asleep hslp hctl).trans (congrArg _ hwake)⟩

/-! ### What follows a step (R222 to R224) -/

theorem terminalPhase_iff {sync : SyncMode} {q : BitVec 2} :
    terminalPhase sync q = true ↔ sync ≠ .threePhase ∨ q = 3 := by
  simp [terminalPhase, ← isThreePhase_iff]

theorem terminalPhase_eq_false {sync : SyncMode} {q : BitVec 2} (h : sync = .threePhase ∧ q ≠ 3) :
    terminalPhase sync q = false := by
  simpa [terminalPhase, isThreePhase_iff] using h

/-- Settles O36: `W6` is done after a terminal step, and after another the turn before `W0` and `WAIT` from there follow. -/
theorem waitReturnsAfterATerminalStep : Obligations.WaitReturnsAfterATerminalStep := by
  intro clr s hctl hslp
  refine ⟨fun hterm => step_waitReturns hctl hslp (terminalPhase_iff.mpr hterm), fun hmore => ?_⟩
  calc step s
      = .next (waitDone clr s.boundary) := hostAction_stepDone hslp hctl
    _ = .next (waitEnter clr s.boundary.boundary) := congrArg _ (if_neg (by simp [terminalPhase_eq_false hmore]))

/-- Settles O38: `P3` returns `pollResult` of the latched phase. -/
theorem pollReportsTheStep : Obligations.PollReportsTheStep := by
  intro s hctl hslp
  refine ⟨fun hterm => step_pollReturns hctl hslp (terminalPhase_iff.mpr hterm), fun hmore => ?_⟩
  calc step s
      = .next (pollDone s.boundary) := hostAction_stepDone hslp hctl
    _ = .next ((s.boundary.setRet 0x01).setCtl .idle) := by
      rw [pollDone, State.boundary_sync, State.boundary_xphase, terminalPhase_eq_false hmore]; rfl

/-! ### `POLL` with no step due (R223) -/

/-- Settles O37: `P0` masks and the exit of `P1` restores the mask, so in the turn between them no interrupt is taken. -/
theorem pollWithoutADueStepIsANoOp : Obligations.PollWithoutADueStepIsANoOp := by
  intro clr s hnd
  obtain ⟨tcnt, tif, turns, hmasked⟩ := boundary_masked (s := s.setGie false) rfl
  refine ⟨tcnt, tif, turns, ?_⟩
  rw [exec, execPoll, pollEnter_notDue hnd, hmasked]
  rfl

/-! ### Pacing, queries and settings (R225 to R228) -/

theorem exec_needupd_due {s : State} (h : s.un.toNat ≤ s.ucnt.toNat) :
    exec .needupd s = .next { s with ucnt := s.ucnt - s.un, ret := 0x01 } :=
  congrArg _ (if_pos (decide_eq_true h))

theorem exec_needupd_notDue {s : State} (h : s.ucnt.toNat < s.un.toNat) : exec .needupd s = .next (s.setRet 0x00) :=
  congrArg _ (if_neg (by simpa [updateDue] using h))

/-- Settles O39: the credits are compared unsigned, so where they are spent the subtraction does not borrow. -/
theorem needupdSpendsCredits : Obligations.NeedupdSpendsCredits := by
  intro s
  rcases Nat.lt_or_ge s.ucnt.toNat s.un.toNat with hfew | hdue
  · exact ⟨_, exec_needupd_notDue hfew, rfl, fun h => absurd h (Nat.not_le.mpr hfew), fun _ => ⟨rfl, rfl⟩⟩
  · have hspent : (s.ucnt - s.un).toNat + s.un.toNat = s.ucnt.toNat := by
      rw [BitVec.toNat_sub_of_le (BitVec.le_def.mpr hdue), Nat.sub_add_cancel hdue]
    exact ⟨_, exec_needupd_due hdue, rfl, fun _ => ⟨rfl, hspent⟩, fun h => absurd hdue (Nat.not_le.mpr h)⟩

theorem exec_getplane (s : State) : exec .getplane s = .next (s.setRet (s.plane.setWidth 8)) := rfl

/-- Settles O40: `RET` is the plane widened, reset's plane is 0, and the words of the opcode are decoded by its row. -/
theorem getplaneReturnsThePlane : Obligations.GetplaneReturnsThePlane := by
  refine ⟨fun s => ⟨_, exec_getplane s, rfl, ?_⟩, decode_getplane_word 0 0,
    fun operands h => ⟨decode_getplane_operands h, rfl⟩, fun cfg p => ⟨_, exec_getplane _, rfl⟩⟩
  exact BitVec.toNat_setWidth_of_le (by decide)

/-- Settles O41: `SETCON` writes the register, then emits one command; `SETUPD` is one update. -/
theorem settingsWriteTheirRegisters : Obligations.SettingsWriteTheirRegisters := fun v _ _ s =>
  ⟨⟨State.emitCmd (.contrast v) { s with con := v }, rfl, State.bus_emitCmd _ _, rfl⟩, rfl⟩

end Sys2Proof.Machine
end

section
/-! PROOF. Exceptions and liveness: a disabled block refuses every word (R251), no number of steps stops a legal state (R250,
R252), a halted host sleeps for ever when no interrupt can come (R261, R285), and one that can come is taken (R256, R292). -/

namespace Sys2Proof.Machine

open Sys2Proof.Safety

/-! ### A disabled block (R251) -/

/-- Settles O11: the port presents the word, and a block with `ERR` at 6 uses it up. -/
theorem disabledBlockRefusesEveryWord : Obligations.DisabledBlockRefusesEveryWord := by
  intro s w rest hctl hacts herr hslp
  have hdisabled : State.disabled { s.boundary with hostActs := rest } = true := beq_iff_eq.mpr herr
  rw [step_presents hslp hctl hacts, presentWord, if_pos hdisabled]

/-! ### Every step of a legal state has a next state (R250, R252) -/

/-- No operation ends the machine: a fault of the spec is a state with `ERR` written. -/
theorem exec_next (i : Instr) (s : State) : ∃ t, exec i s = .next t := by
  cases i <;> exact ⟨_, rfl⟩

/-- A latched phase other than 0 forms one of the store's 48 addresses (R199). -/
theorem uromAddr_lt {q : BitVec 2} (hq : q ≠ 0) (u : BitVec 4) : (uromAddr q u).toNat < uromWords := by
  revert q u; decide

theorem hostPort_next (s : State) : ∃ t, hostPort exec s = .next t := by
  obtain ⟨-, he⟩ | ⟨_, _, -, he⟩ | ⟨_, _, -, -, he⟩ | ⟨_, _, i, -, -, -, he⟩ | ⟨_, _, _, -, -, -, -, -, he⟩ :=
    hostPort_cases (run := exec) s
  · exact ⟨_, he⟩
  · exact ⟨_, he⟩
  · exact ⟨_, he⟩
  · rw [he]; exact exec_next i _
  · exact ⟨_, he⟩

/-- A fetch finds one of the 48 words, so it is no stop; a word that is no micro-op is a fault that goes on. -/
theorem fetchUop_next {s : State} (hphase : s.xphase ≠ 0) (hurom : s.urom.length = uromWords) :
    ∃ t, fetchUop exec s = .next t := by
  obtain ⟨habsent, -⟩ | ⟨_, i, -, -, he⟩ | ⟨_, -, -, he⟩ := fetchUop_cases (run := exec) s
  · exact absurd (List.getElem?_eq_none_iff.mp habsent) (by rw [hurom]; exact (uromAddr_lt hphase _).not_ge)
  · rw [he]; exact exec_next i _
  · exact ⟨_, he⟩

/-- Progress: the one stop of the machine, a fetch outside the store, needs a latched phase of 0 or another store. -/
theorem step_next {s : State} (h : sequencerLegal s) : ∃ t, step s = .next t := by
  obtain ⟨-, hphase, hurom⟩ := h
  rw [step_eq]
  cases hslp : s.boundary.sch.slp with
  | true => exact ⟨_, hostAction_halted hslp⟩
  | false =>
    cases hctl : s.ctl with
    | idle => rw [hostAction_idle hslp hctl]; exact hostPort_next _
    | asleep clr => exact ⟨_, hostAction_asleep hslp hctl⟩
    | uops c => rw [hostAction_uops hslp hctl]; exact fetchUop_next hphase hurom
    | stepDone c => exact ⟨_, hostAction_stepDone hslp hctl⟩

/-- Packaged induction: a run is safe from every state of an invariant that lets each step answer and that each step
keeps. -/
theorem safeRun_of_invariant {P : State → Prop} (hprogress : ∀ s, P s → ∃ t, step s = .next t)
    (hkeep : ∀ s t, P s → step s = .next t → P t) {s : State} (h : P s) : SafeRun s := by
  intro n
  induction n generalizing s with
  | zero => exact ⟨s, rfl⟩
  | succ n ih =>
    obtain ⟨t, hstep⟩ := hprogress s h
    rw [run_succ hstep]
    exact ih (hkeep s t h hstep)

/-- Settles O50: a legal state has a next state, and that is legal (O49). -/
theorem legalRunsNeverStop : Obligations.LegalRunsNeverStop := fun _ =>
  safeRun_of_invariant (fun _ h => step_next h.sequencer) legalStatesAreKept

/-! ### A halted host (R222, R261, R285) -/

/-- While the host is halted, `n` steps are `n` turns; that it is halted after the last says that it was all along. -/
theorem run_halted {n : Nat} {s : State} (h : (turnsTaken s.sync s.par n s.sch).slp = true) :
    Host.Core.run Sys2Proof.core n s = .next (s.setSch (turnsTaken s.sync s.par n s.sch)) := by
  induction n generalizing s with
  | zero => rfl
  | succ n ih =>
    have hslp : s.boundary.sch.slp = true := by
      cases hb : s.boundary.sch.slp with
      | true => rfl
      | false => exact absurd h (Bool.eq_false_iff.mp (turnsTaken_slp (n := n) hb))
    rw [run_succ (hostAction_halted hslp : step s = .next s.boundary)]
    exact ih (s := s.boundary) h

/-- No interrupt can come: it is disabled, or the timer is stopped and nothing is pending (R285). -/
def Sched.Undisturbed (k : Sched) : Prop := k.tie = false ∨ (k.trun = false ∧ k.tif = false)

/-- A turn of such a scheduler wakes no host and leaves it so. -/
theorem Sched.Undisturbed.turn {sync : SyncMode} {p : Params} {k : Sched} (h : k.Undisturbed) :
    (k.turn sync p).slp = k.slp ∧ (k.turn sync p).Undisturbed := by
  rcases h with htie | ⟨hrun, htif⟩
  · obtain ⟨_, _, _, hk⟩ := Sched.turn_untaken (sync := sync) (p := p) (k := k) (.inr htie)
    rw [hk]
    exact ⟨rfl, .inl htie⟩
  · rw [Sched.turn_stopped hrun htif]
    exact ⟨rfl, .inr ⟨hrun, htif⟩⟩

/-- Settles O59: no turn wakes the host, so every step is a turn. -/
theorem waitWithoutAnInterruptSleepsForEver : Obligations.WaitWithoutAnInterruptSleepsForEver := by
  intro s clr n _ hslp hnone
  obtain ⟨hasleep, -⟩ := turnsTaken_keeps (P := fun k => k.slp = true ∧ k.Undisturbed) (sync := s.sync) (p := s.par)
    (fun _ ⟨hk, hnone⟩ => hnone.turn.imp_left (·.trans hk)) n ⟨hslp, hnone⟩
  exact ⟨_, run_halted hasleep, hasleep⟩

/-! ### A takeable interrupt is taken (R256, R292) -/

/-- What an interrupt that has been taken leaves behind until the host acts: a step due and the host awake. -/
def Sched.Taken (k : Sched) : Prop := k.nd = true ∧ k.slp = false

/-- A fire is pending, or an interrupt has been taken. -/
def Sched.Signalled (k : Sched) : Prop := k.tif = true ∨ k.Taken

section
variable {sync : SyncMode} {p : Params} {k : Sched}

theorem Sched.takeable_iff : k.takeable = true ↔ k.tif = true ∧ k.tie = true ∧ k.gie = true := by
  rw [Sched.takeable, Bool.and_eq_true, Bool.and_eq_true, and_assoc]

theorem Sched.taken_takeInterrupt (sync : SyncMode) (p : Params) (k : Sched) : (k.takeInterrupt sync p).Taken := by
  cases hsync : isThreePhase sync with
  | true => rw [Sched.takeInterrupt_threePhase hsync]; exact ⟨rfl, rfl⟩
  | false => rw [Sched.takeInterrupt_twoPhase hsync]; exact ⟨rfl, rfl⟩

theorem Sched.Taken.turn (h : k.Taken) : (k.turn sync p).Taken := ⟨Sched.turn_nd h.1, Sched.turn_slp h.2⟩

/-- A pending fire is kept until it is taken. -/
theorem Sched.Signalled.async (h : k.Signalled) (e : AsyncStep) : (k.async sync p e).Signalled := by
  obtain he | ⟨-, he⟩ | ⟨-, he⟩ | ⟨-, -, -, he⟩ := Sched.async_cases sync p e k <;> rw [he]
  · exact h
  · exact h
  · exact .inl rfl
  · exact .inr (Sched.taken_takeInterrupt sync p k)

theorem Sched.Signalled.turn (h : k.Signalled) : (k.turn sync p).Signalled :=
  Sched.turn_keeps (fun _ _ h => h) (fun e _ h => h.async e) k h

theorem Sched.Signalled.turns (h : k.Signalled) (n : Nat) : (turnsTaken sync p n k).Signalled :=
  turnsTaken_keeps (P := Sched.Signalled) (fun _ h => h.turn) n h

/-- The schedule's own entries are used up one by one. -/
theorem turnsTaken_length_turns (sync : SyncMode) (p : Params) (k : Sched) :
    (turnsTaken sync p k.turns.length k).turns = [] := by
  generalize hturns : k.turns = turns
  induction turns generalizing k with
  | nil => exact hturns
  | cons steps rest ih => exact ih _ (Sched.turn_turns hturns)

theorem turnsTaken_takeable (n : Nat) (htie : k.tie = true) (hgie : k.gie = true) :
    (turnsTaken sync p n k).takeable = (turnsTaken sync p n k).tif := by
  have htie' : (turnsTaken sync p n k).tie = true :=
    turnsTaken_keeps (P := fun j => j.tie = true) (fun j hj => (Sched.turn_tie sync p j).trans hj) n htie
  rw [Sched.takeable, htie', turnsTaken_gie, hgie, Bool.and_true, Bool.and_true]

/-- A tick takes nothing back. -/
theorem Sched.takeable_tick (h : k.takeable = true) : (k.tick p).takeable = true := by
  obtain ⟨-, htie, hgie⟩ := Sched.takeable_iff.mp h
  unfold Sched.tick
  split <;> [split; skip]
  · exact Sched.takeable_iff.mpr ⟨rfl, htie, hgie⟩
  · exact h
  · exact h

/-- The fair turn takes what its tick leaves takeable. -/
theorem Sched.taken_fairTurn (hturns : k.turns = []) (h : (k.tick p).takeable = true) : (k.turn sync p).Taken := by
  rw [Sched.turn_fair hturns, if_pos h]
  exact Sched.taken_takeInterrupt sync p (k.tick p)

/-- A takeable interrupt is taken by the schedule or by the first fair turn after it. -/
theorem taken_of_takeable (h : k.takeable = true) : (turnsTaken sync p (k.turns.length + 1) k).Taken := by
  obtain ⟨htif, htie, hgie⟩ := Sched.takeable_iff.mp h
  rw [turnsTaken_succ]
  rcases Sched.Signalled.turns (.inl htif) k.turns.length with hpending | htaken
  · refine Sched.taken_fairTurn (turnsTaken_length_turns sync p k) (Sched.takeable_tick ?_)
    rw [turnsTaken_takeable _ htie hgie, hpending]
  · exact htaken.turn

/-! ### A running timer fires (R171, R292) -/

/-- The interrupt has been taken, or is pending and disabled or masked. -/
def Sched.Come (k : Sched) : Prop := k.Taken ∨ (k.tif = true ∧ k.takeable = false)

/-- The timer runs with its registers in range (R30, R31). -/
structure Sched.Running (p : Params) (k : Sched) : Prop where
  trun : k.trun = true
  tcnt : k.tcnt < 2 ^ p.tw
  ocr : k.ocr < 2 ^ p.tw

/-- A running timer goes on counting until it fires. -/
theorem Sched.Running.async (h : k.Running p) (e : AsyncStep) :
    (k.async sync p e).Signalled ∨ (k.async sync p e).Running p := by
  obtain he | ⟨-, he⟩ | ⟨-, he⟩ | ⟨-, -, -, he⟩ := Sched.async_cases sync p e k <;> rw [he]
  · exact .inr h
  · exact .inr ⟨h.trun, timerWord_lt p _, h.ocr⟩
  · exact .inl (.inl rfl)
  · exact .inl (.inr (Sched.taken_takeInterrupt sync p k))

theorem Sched.signalled_or_running_turn (h : k.Signalled ∨ k.Running p) :
    (k.turn sync p).Signalled ∨ (k.turn sync p).Running p :=
  Sched.turn_keeps (P := fun j => j.Signalled ∨ j.Running p) (fun _ _ h => h.imp id (fun h => ⟨h.trun, h.tcnt, h.ocr⟩))
    (fun e _ h => h.elim (fun h => .inl (h.async e)) (·.async e)) k h

open Laws.Fair (ticksLeft)

theorem Sched.Running.ticksLeft_pos (h : k.Running p) : 0 < ticksLeft p k := by
  have := h.tcnt
  unfold ticksLeft
  split <;> omega

theorem Sched.Running.ticksLeft_le (h : k.Running p) : ticksLeft p k ≤ 2 ^ p.tw := by
  have := h.ocr
  unfold ticksLeft
  split <;> omega

/-- A tick that only counts brings the fire nearer; the law reads no register but `TCNT` and `OCR`. -/
theorem Sched.Running.ticksLeft_count (h : k.Running p) (hne : timerWord p (k.tcnt + 1) ≠ k.ocr) {d : Nat}
    (hd : ticksLeft p k ≤ d + 1) : ticksLeft p { k with tcnt := timerWord p (k.tcnt + 1) } ≤ d :=
  Laws.Fair.ticksLeft_tick (k := { k with tie := true, tcr := 0, phase := 1 })
    ⟨h.trun, rfl, ⟨by positivity, h.tcnt, h.ocr⟩, (by decide : (1 : BitVec 2) ≠ 0)⟩ hne hd

/-- After the schedule's own entries, the tick that reaches `OCR` fires, and the fire is taken at once if it can be. -/
theorem Sched.Running.come (h : k.Running p) (hturns : k.turns = []) {d : Nat} (hd : ticksLeft p k ≤ d) :
    ∃ n, n ≤ d ∧ (turnsTaken sync p n k).Come := by
  induction d generalizing k with
  | zero => exact absurd h.ticksLeft_pos (by omega)
  | succ d ih =>
    by_cases htake : (k.tick p).takeable = true
    · exact ⟨1, by omega, .inl (Sched.taken_fairTurn hturns htake)⟩
    · have hturn : k.turn sync p = k.tick p := by rw [Sched.turn_fair hturns, if_neg htake]
      by_cases hmatch : timerWord p (k.tcnt + 1) = k.ocr
      · rw [Sched.tick_of_eq h.trun hmatch] at hturn htake
        refine ⟨1, by omega, .inr ?_⟩
        rw [turnsTaken, turnsTaken, hturn]
        exact ⟨rfl, by simpa using htake⟩
      · rw [Sched.tick_of_ne h.trun hmatch] at hturn
        obtain ⟨n, hn, hcome⟩ := ih (k := { k with tcnt := timerWord p (k.tcnt + 1) })
          ⟨h.trun, timerWord_lt p _, h.ocr⟩ hturns (h.ticksLeft_count hmatch hd)
        refine ⟨n + 1, by omega, ?_⟩
        rw [turnsTaken, hturn]
        exact hcome

/-- A running timer's interrupt comes within the schedule's entries and `2^TW` fair turns. -/
theorem interrupt_comes (sync : SyncMode) (h : k.Running p) :
    ∃ n, n ≤ k.turns.length + 2 ^ p.tw ∧ (turnsTaken sync p n k).Come := by
  have hone : 0 < 2 ^ p.tw := by positivity
  have hturns := turnsTaken_length_turns sync p k
  have hafter := turnsTaken_keeps (P := fun j => j.Signalled ∨ j.Running p) (sync := sync) (p := p)
    (fun _ => Sched.signalled_or_running_turn) k.turns.length (.inr h)
  rcases hafter with (htif | htaken) | hrunning
  · cases htake : (turnsTaken sync p k.turns.length k).takeable with
    | true =>
      refine ⟨k.turns.length + 1, by omega, .inl ?_⟩
      rw [turnsTaken_succ]
      exact Sched.taken_fairTurn hturns (Sched.takeable_tick htake)
    | false => exact ⟨k.turns.length, by omega, .inr ⟨htif, htake⟩⟩
  · exact ⟨k.turns.length, by omega, .inl htaken⟩
  · obtain ⟨n, hn, hcome⟩ := hrunning.come (sync := sync) hturns hrunning.ticksLeft_le
    exact ⟨k.turns.length + n, by omega, by rw [turnsTaken_add]; exact hcome⟩

end

/-! ### A `WAIT` asleep wakes (R222, R261, R292) -/

/-- The first turn that wakes the host is the one of the step that begins its step. -/
theorem run_wakes {clr : Bool} {n : Nat} {s : State} (hctl : s.ctl = .asleep clr) (hslp : s.sch.slp = true)
    (hwoken : (turnsTaken s.sync s.par n s.sch).slp = false) :
    ∃ m t, m ≤ n ∧ Host.Core.run Sys2Proof.core m s = .next t ∧ t.ctl = .uops (.wait clr) := by
  induction n generalizing s with
  | zero => rw [turnsTaken, hslp] at hwoken; cases hwoken
  | succ n ih =>
    cases hb : s.boundary.sch.slp with
    | true =>
      obtain ⟨m, t, hm, hrun, ht⟩ := ih (s := s.boundary) hctl hb hwoken
      exact ⟨m + 1, t, by omega, (run_succ (hostAction_halted hb : step s = .next s.boundary) m).trans hrun, ht⟩
    | false =>
      obtain ⟨_, _, _, hstep⟩ := wokenWaitBeginsTheStep clr s hctl hb
      exact ⟨1, _, by omega, run_succ hstep 0, rfl⟩

/-- Settles O60: a takeable interrupt is taken, a running timer's interrupt comes, and under `TIE` and `GIE` it is taken,
which wakes the host. -/
theorem enabledInterruptsComeAndAreTaken : Obligations.EnabledInterruptsComeAndAreTaken := by
  refine ⟨fun sync p k htake => taken_of_takeable htake, fun sync p k hrun _ _ htcnt hocr => ?_,
    fun s clr hctl hslp hrun htie hgie htcnt hocr => ?_⟩
  · obtain ⟨n, hn, htaken | hpending⟩ := interrupt_comes sync (k := k) ⟨hrun, htcnt, hocr⟩
    · exact ⟨n, hn, .inr htaken.1⟩
    · exact ⟨n, hn, .inl hpending.1⟩
  · obtain ⟨n, hn, hcome⟩ := interrupt_comes s.sync (k := s.sch) ⟨hrun, htcnt, hocr⟩
    have hwoken : (turnsTaken s.sync s.par n s.sch).slp = false := by
      rcases hcome with htaken | ⟨htif, hheld⟩
      · exact htaken.2
      · rw [turnsTaken_takeable n htie hgie, htif] at hheld; cases hheld
    obtain ⟨m, t, hm, h⟩ := run_wakes hctl hslp hwoken
    exact ⟨m, t, hm.trans hn, h⟩

end Sys2Proof.Machine
end
